-- ==== Sys2Proof/Word.lean ====
section
/-! DEFINITION. The word types of the block and the plain records built from them. -/

namespace Sys2Proof

/-- A stored byte: an image byte, a table entry, a channel (`u8`, R8). -/
abbrev Byte := BitVec 8

/-- A register-wide value, `XLEN = 32` (R7, R8). -/
abbrev Word := BitVec 32

/-- Three 8-bit channels R, G, B (glossary of `00_scope.md`, R97). -/
structure Pixel where
  r : Byte
  g : Byte
  b : Byte
deriving DecidableEq, Repr

/-- A per-channel signed error, each in -255..255 (`E` of R46, step 4 of R172). -/
structure ChannelError where
  r : Int
  g : Int
  b : Int
deriving DecidableEq, Repr

/-- A stencil entry `(dx, dy, num, den)`: a signed column offset, a row offset, and the weight
`num / den` as an exact fraction (R105). -/
structure StencilEntry where
  dx : Int
  dy : Nat
  num : Nat
  den : Nat
deriving DecidableEq, Repr

end Sys2Proof
end

