-- ==== Sys2Proof/Config.lean ====
section
/-! DEFINITION. The shape of the numerics record, and the constants without a body for what the spec leaves OPEN or
unspecified (R7, R39, R49, R76). The record of parameters and the hardware's own are in `Machine/Parameters.lean`,
beside the values the spec decides. -/

namespace Sys2Proof

/-- The numerics record `NUM` (R123). The tie rule of `round` is itself a parameter, so both functions take it (R7,
R125). -/
structure Numerics where
  /-- `NUM.gamma_entry(g, i)`, after the tie rule. -/
  gammaEntry : (Nat → Bool) → Word → Byte → Byte
  /-- `NUM.cb_entry(g, c, l, i)`, after the tie rule. -/
  cbEntry : (Nat → Bool) → Word → Word → Word → Byte → Byte

namespace Config

/-- Free values; DESIGN CHOICE to hold the OPEN parameters this way (log 2). The free numerics depend on the tie rule
too. -/
opaque freeGamma : (Nat → Bool) → Word → Byte → Byte
opaque freeCb : (Nat → Bool) → Word → Word → Word → Byte → Byte
opaque freeNearest : BitVec 12 → Byte
opaque freePaletteR : Byte → Byte
opaque freePaletteG : Byte → Byte
opaque freePaletteB : Byte → Byte
opaque freeBayer : BitVec 4 → BitVec 4 → Byte
opaque freeCap : Nat
opaque freeUnwritten : Nat → Nat → Byte
opaque freeDraw : Nat → Word

end Config
end Sys2Proof
end

