-- ==== Sys2Proof/Syntax.lean ====
section
/-! DEFINITION. The commands of the block, one constructor per row of the opcode table (R91). -/

namespace Sys2Proof

/-- The seven commands. They carry no immediates and no register numbers: every operand is a register
read by name (R94). -/
inductive Instr where
  /-- `NOP`, word 0x00000000 (R216). -/
  | nop
  /-- `BUILD_LUT`, word 0x00000001 (R120). -/
  | buildLut
  /-- `APPLY_LUT`, word 0x00000002 (R127). -/
  | applyLut
  /-- `DITHER`, word 0x00000003 (R170). -/
  | dither
  /-- `MAP332`, word 0x00000004 (R154). -/
  | map332
  /-- `MAPNN`, word 0x00000005 (R155). -/
  | mapnn
  /-- `SRESET`, word 0x00000006 (R217). -/
  | sreset
deriving DecidableEq, Repr

end Sys2Proof
end

