-- ==== Sys2Proof/WellFormed.lean ====
section
/-! DEFINITION. Which command words are well formed. An `Instr` has no fields (R94), so every `Instr` is
well formed; the checks are on the word (R90, R92, R93). -/

namespace Sys2Proof

/-- Bits [31:8] are zero (R90, R92). -/
def reservedZero (w : Word) : Bool := w.extractLsb' 8 24 == 0#24

/-- The opcode in bits [7:0] is one of 0x00 to 0x06 (R91, R93). -/
def opcodeAssigned (w : Word) : Bool := decide (w.extractLsb' 0 8 ≤ 0x06#8)

/-- A legal command word (R93: every word is one of the seven commands or illegal). -/
def commandWordWf (w : Word) : Bool := reservedZero w && opcodeAssigned w

end Sys2Proof
end

