-- ==== Sys2Proof/Decode.lean ====
section
/-! DEFINITION. The decoder of command words, total, rejecting by name, and the encoder (R90 to R93). -/

namespace Sys2Proof

/-- Why a word is no command. -/
inductive DecodeError where
  /-- A bit of [31:8] is set (R92). -/
  | reservedBits (w : Word)
  /-- The opcode is 0x07 to 0xFF (R93). -/
  | unassignedOpcode (w : Word)
  /-- Fewer than the four bytes of a command word. -/
  | truncated
deriving DecidableEq, Repr

/-- The command of an opcode (the table of R91). -/
def decodeOpcode : Nat → Option Instr
  | 0 => some .nop
  | 1 => some .buildLut
  | 2 => some .applyLut
  | 3 => some .dither
  | 4 => some .map332
  | 5 => some .mapnn
  | 6 => some .sreset
  | _ => none

/-- A command word: the opcode in bits [7:0], everything above reserved (R90, R92, R93). -/
def decode (w : Word) : Except DecodeError Instr :=
  if w.extractLsb' 8 24 = 0#24 then
    match decodeOpcode (w.extractLsb' 0 8).toNat with
    | some i => .ok i
    | none => .error (.unassignedOpcode w)
  else .error (.reservedBits w)

/-- The word with the given bytes, the first at bits [7:0] (R65). -/
def wordOfBytes (b0 b1 b2 b3 : Byte) : Word := b3 ++ b2 ++ b1 ++ b0

/-- The byte at bits [8n+7:8n] of a word (R65). -/
def byteOfWord (w : Word) (n : Nat) : Byte := w.extractLsb' (8 * n) 8

/-- Decoding from bytes in bus order, the rest handed on. -/
def decodeBytes : List Byte → Except DecodeError (Instr × List Byte)
  | b0 :: b1 :: b2 :: b3 :: rest => (decode (wordOfBytes b0 b1 b2 b3)).map (·, rest)
  | _ => .error .truncated

/-- The command word of a command (the table of R91). -/
def encode : Instr → Word
  | .nop => 0x00000000#32
  | .buildLut => 0x00000001#32
  | .applyLut => 0x00000002#32
  | .dither => 0x00000003#32
  | .map332 => 0x00000004#32
  | .mapnn => 0x00000005#32
  | .sreset => 0x00000006#32

/-- The same word as bytes in bus order (R65). -/
def encodeBytes (i : Instr) : List Byte := (List.range 4).map (byteOfWord (encode i))

/-- The command my decoder reads from a table row's `nbits` bits `w`; the bits above are zero (log 16). -/
def decodeTableWord (nbits w : Nat) : Option Instr :=
  if nbits ≤ 32 ∧ w < 2 ^ nbits then
    match decodeBytes ((List.range 4).map (byteOfWord (BitVec.ofNat 32 w))) with
    | .ok (i, _) => some i
    | .error _ => none
  else none

end Sys2Proof
end

