-- ==== Sys2Proof/Machine/State.lean ====
section
/-! DEFINITION. The state of the block as plain data, the reasons a step can stop, and the state after reset. -/

namespace Sys2Proof.Machine

/-- The image space: the bytes somebody has written since the last reset, addresses strictly rising
(R47; log 5). -/
abbrev Memory := List Host.Cell

/-- The width of a bus access in bits (R66, R110). -/
inductive Width where
  | w8
  | w16
  | w32
deriving DecidableEq, Repr

/-- The two windows of the bus: the one at `REG_BASE`, which holds the register space and the table
space, and the one at `IMG_BASE` (R60; log 11). -/
inductive Space where
  | window
  | image
deriving DecidableEq, Repr

/-- What the host can do to the block: one bus access (R110), or a pulse of `rst_n` (R260). -/
inductive HostAct where
  | read (space : Space) (offset : Nat) (width : Width)
  | write (space : Space) (offset : Nat) (width : Width) (data : Word)
  | resetPin
deriving DecidableEq, Repr

/-- A pending act of the host. `after = none`: the host waits for the running command to end (R264).
`after = some k`: the host acts after `k` more core steps although the command may still run (log 1). -/
structure Pending where
  after : Option Nat
  act : HostAct
deriving DecidableEq, Repr

/-- One slot of the row buffer: its tag, and the pixels of the row it holds (`ROWTAG`, `ROWBUF`, R45). -/
structure RowSlot where
  tag : Option Nat
  px : List Pixel
deriving DecidableEq, Repr

/-- The error kinds of R230. `ioFailure` is never raised (R233). -/
inductive ErrorKind where
  | invalidArgument
  | invalidParameter
  | ioFailure
  | illegalCommand
deriving DecidableEq, Repr

/-- Everything the spec gives the block (`10_state.md`), and four fields of the model's own at the end. -/
structure State where
  /-- `STATUS.BUSY` (R23). -/
  busy : Bool
  /-- `STATUS.DONE` (R23). -/
  done : Bool
  /-- `STATUS.ESTK` (R23). -/
  estk : Bool
  /-- `STATUS.LUTV` (R23). -/
  lutv : Bool
  /-- `STATUS.ERR` (R23, R102). -/
  err : BitVec 3
  /-- `CTRL.IE` (R24). -/
  ie : Bool
  /-- `CTRL.BUFV` (R24). -/
  bufv : Bool
  /-- `GAMMA`, an f32 pattern (R25). -/
  gamma : Word
  /-- `CONTRAST`, an f32 pattern (R26). -/
  contrast : Word
  /-- `LIGHTNESS`, an f32 pattern (R27). -/
  lightness : Word
  /-- `DITHER_METHOD`, an s32 (R28). -/
  method : Word
  /-- `WIDTH` bits [15:0] (R29). -/
  width : BitVec 16
  /-- `HEIGHT` bits [15:0] (R30). -/
  height : BitVec 16
  /-- `PIX_IN` bits [23:0] (R31). -/
  pixIn : BitVec 24
  /-- `PIX_OUT` (R32). -/
  pixOut : Word
  /-- `IDX_OUT` (R33). -/
  idxOut : Word
  /-- `ERRINFO` (R34). -/
  errInfo : Word
  /-- `POS.Y` (R35, R40). -/
  posY : BitVec 16
  /-- `POS.X` (R35, R40). -/
  posX : BitVec 16
  /-- `LUTG[0..255]` (R39). -/
  lutG : Vector Byte 256
  /-- `LUTC[0..255]` (R39). -/
  lutC : Vector Byte 256
  /-- `IMG` (R47). -/
  image : Memory
  /-- `ROWBUF` and `ROWTAG` (R45). -/
  rowbuf : Vector RowSlot 3
  /-- `OP`, the latched command word (R46). -/
  op : Word
  /-- `M`, the sampled method (R46). -/
  m : Word
  /-- `S`, the selected stencil (R46). -/
  sSel : Fin 3
  /-- `K`, the stencil index (R46). -/
  kIdx : Fin 12
  /-- `E`, the error of the current pixel (R46). -/
  errE : ChannelError
  /-- `OLD`, the pixel read in step 1 of R172 (R46). -/
  old : Pixel
  /-- `NEW`, the quantised pixel of step 2 of R172 (R46). -/
  new : Pixel
  /-- `I`, the table index (R46). -/
  iIdx : Byte
  /-- `Wl`, the sampled width (R46). -/
  wl : BitVec 16
  /-- `Hl`, the sampled height (R46). -/
  hl : BitVec 16
  /-- MODEL: the host's pending acts, oldest first (log 1). -/
  host : List Pending
  /-- MODEL: the values the host's reads returned, newest first (log 19). -/
  reads : List Word
  /-- MODEL: how many unspecified host reads there have been (log 7). -/
  draws : Nat
  /-- MODEL: how many resets the image space has seen (log 5). -/
  epoch : Nat
deriving DecidableEq, Repr

/-- The reasons the model stops. All three stand for states that no run reaches, so all three are safe. -/
inductive Fault where
  /-- The core reads a tone table while `LUTV = 0` (R49, `93` section 2). Raised by `APPLY_LUT`'s pixel step. Safe. -/
  | unbuiltTables
  /-- The host reads a `STATUS.ERR` of 3, 5, 6 or 7 (`93` section 2). Raised by the read of `STATUS`. Safe. -/
  | reservedErrCode
  /-- A busy block whose `OP` is no command word (log 15). Raised by the core step. Safe. -/
  | noCommand
deriving DecidableEq, Repr

/-- The model refuses nothing; the one constructor is the interface's. -/
inductive Refusal where
  /-- A command without a meaning; raised by no arm. Safe. -/
  | notModelled (mnemonic : String)
deriving DecidableEq, Repr

/-- The outcome of a step, a meaning or a host access. -/
abbrev Result := Host.Outcome State Fault Refusal

/-- The state after hardware reset (R48, R260). The tables and the hidden state, which R48 leaves
unspecified, hold zeros and empty rows: DESIGN CHOICE (log 4). -/
def State.reset : State where
  busy := false
  done := false
  estk := false
  lutv := false
  err := 0#3
  ie := false
  bufv := false
  gamma := 0x3F800000#32
  contrast := 0x00000000#32
  lightness := 0x3F800000#32
  method := 0xFFFFFFFF#32
  width := 0#16
  height := 0#16
  pixIn := 0#24
  pixOut := 0#32
  idxOut := 0#32
  errInfo := 0#32
  posY := 0#16
  posX := 0#16
  lutG := Vector.replicate 256 0#8
  lutC := Vector.replicate 256 0#8
  image := []
  rowbuf := Vector.replicate 3 ⟨none, []⟩
  op := 0#32
  m := 0#32
  sSel := 0
  kIdx := 0
  errE := ⟨0, 0, 0⟩
  old := ⟨0#8, 0#8, 0#8⟩
  new := ⟨0#8, 0#8, 0#8⟩
  iIdx := 0#8
  wl := 0#16
  hl := 0#16
  host := []
  reads := []
  draws := 0
  epoch := 0

end Sys2Proof.Machine
end

