-- ==== Sys2Proof/Machine/Operands.lean ====
section
/-! DEFINITION. Every operand form: the fields and the value of an f32 pattern, the sampled geometry, the method
selector, the packing of a pixel in a register, and the small arithmetic helpers of R10. -/

namespace Sys2Proof.Machine

/-- The sign bit of an f32 pattern (R96). -/
def f32Sign (f : Word) : Bool := f.getLsbD 31

/-- The exponent field, bits [30:23] (R96). -/
def f32Exp (f : Word) : Nat := (f.extractLsb' 23 8).toNat

/-- The fraction field, bits [22:0] (R96). -/
def f32Frac (f : Word) : Nat := (f.extractLsb' 0 23).toNat

/-- A NaN: `e = 255`, `t ≠ 0` (R96). -/
def f32IsNaN (f : Word) : Bool := f32Exp f == 255 && f32Frac f != 0

/-- An infinity: `e = 255`, `t = 0` (R96). -/
def f32IsInf (f : Word) : Bool := f32Exp f == 255 && f32Frac f == 0

/-- The magnitude of a finite pattern times `2^149`, which is always an integer (R96). -/
def f32Magnitude (f : Word) : Nat :=
  if f32Exp f = 0 then f32Frac f else (2 ^ 23 + f32Frac f) * 2 ^ (f32Exp f - 1)

/-- `val(f) * 2^149` of a finite pattern, exactly (R96). -/
def f32Scaled (f : Word) : Int :=
  if f32Sign f then -(f32Magnitude f : Int) else (f32Magnitude f : Int)

/-- `val(f)`, the real number a finite pattern denotes (R9, R96). -/
def f32Val (f : Word) : Rat := mkRat (f32Scaled f) (2 ^ 149)

/-- `clamp(v, 0, 255)` as a byte (R10). -/
def clampByte (v : Int) : Byte :=
  if v < 0 then 0#8 else if 255 < v then 255#8 else BitVec.ofInt 8 v

/-- The pixel in `PIX_IN`: R in [23:16], G in [15:8], B in [7:0] (R31, R98). -/
def pixelOfBits (v : BitVec 24) : Pixel :=
  ⟨v.extractLsb' 16 8, v.extractLsb' 8 8, v.extractLsb' 0 8⟩

/-- The word `{0x00, R, G, B}` (R98, R101). -/
def wordOfPixel (px : Pixel) : Word := 0#8 ++ px.r ++ px.g ++ px.b

/-- `zext_32` of a byte (R154). -/
def zextByte (b : Byte) : Word := b.setWidth 32

/-- `DITHER_METHOD` or `M` as a two's-complement s32 (R28, R94). -/
def methodOf (w : Word) : Int := w.toInt

/-- The sampled width `W` (R94). -/
def State.wNat (s : State) : Nat := s.wl.toNat

/-- The sampled height `H` (R94). -/
def State.hNat (s : State) : Nat := s.hl.toNat

end Sys2Proof.Machine
end

