-- ==== Sys2Proof/Machine/Numerics.lean ====
section
/-! DEFINITION. The reference instance `NUM_REAL` of the numerics record (R124), the default of the parameter `NUM`,
computed exactly on integers. -/

namespace Sys2Proof.Machine

/-! ### `NUM_REAL` (R124) -/

/-- `vg(i) ≥ t`, exactly, where `vg(i) = (i/255)^(1/G)` for `G > 0` (R124). With `G = p/q` and `t = n/d > 0`
this is `(i/255)^q ≥ (n/d)^p`. -/
def vgAtLeast (G : Rat) (i : Byte) (t : Rat) : Bool :=
  decide (t.num ≤ 0) ||
  decide (t.num.toNat ^ G.num.toNat * 255 ^ G.den ≤ i.toNat ^ G.den * t.den ^ G.num.toNat)

/-- `vg(i) ≤ t`, exactly (R124). -/
def vgAtMost (G : Rat) (i : Byte) (t : Rat) : Bool :=
  decide (0 ≤ t.num) &&
  decide (i.toNat ^ G.den * t.den ^ G.num.toNat ≤ t.num.toNat ^ G.num.toNat * 255 ^ G.den)

/-- `255 * v` of a real `v` in 0..1 rounded to nearest, ties by `ties` (R10, R125), from the tests `v ≥ t` and
`v ≤ t` at the boundaries `255 * t = k + 1/2`: the number of `k` in 0..254 whose boundary `v` has passed, or met with
a tie that goes up. -/
def rnd255 (ties : Nat → Bool) (atLeast atMost : Rat → Bool) : Byte :=
  BitVec.ofNat 8 ((List.range 255).countP (fun (k : Nat) =>
    atLeast (mkRat (2 * (k : Int) + 1) 510) && (ties k || !atMost (mkRat (2 * (k : Int) + 1) 510))))

/-- `factor = 259 * (C + 255) / (255 * (259 - C))` (R124). -/
def contrastFactor (C : Rat) : Rat := 259 * (C + 255) / (255 * (259 - C))

/-- `v'(i) ≥ t`, exactly, where `v'(i) = factor * (vg(i) * L - 1/2) + 1/2` (R124). -/
def vcAtLeast (G C L : Rat) (i : Byte) (t : Rat) : Bool :=
  let f := contrastFactor C
  let b := t - 1 / 2 + f / 2
  if 0 < f * L then vgAtLeast G i (b / (f * L))
  else if f * L < 0 then vgAtMost G i (b / (f * L))
  else decide (b ≤ 0)

/-- `v'(i) ≤ t`, exactly (R124). -/
def vcAtMost (G C L : Rat) (i : Byte) (t : Rat) : Bool :=
  let f := contrastFactor C
  let b := t - 1 / 2 + f / 2
  if 0 < f * L then vgAtMost G i (b / (f * L))
  else if f * L < 0 then vgAtLeast G i (b / (f * L))
  else decide (0 ≤ b)

/-- `NUM_REAL.gamma_entry(g, i)`, with the tie rule `ROUND_TIES` (R124, R125). -/
def numRealGamma (ties : Nat → Bool) (g : Word) (i : Byte) : Byte :=
  rnd255 ties (vgAtLeast (f32Val g) i) (vgAtMost (f32Val g) i)

/-- `NUM_REAL.cb_entry(g, c, l, i)`, with the tie rule `ROUND_TIES` (R124, R125); every threshold lies in 0..1, so the
clamp is in `rnd255`. -/
def numRealCb (ties : Nat → Bool) (g c l : Word) (i : Byte) : Byte :=
  rnd255 ties (vcAtLeast (f32Val g) (f32Val c) (f32Val l) i) (vcAtMost (f32Val g) (f32Val c) (f32Val l) i)

/-- `NUM_REAL`, the default numerics record (R7, R123). -/
def numReal : Numerics := ⟨numRealGamma, numRealCb⟩

end Sys2Proof.Machine
end

