-- ==== Sys2Proof/Machine/Parameters.lean ====
section
/-! DEFINITION. The values the spec decides for the parameters of R7, the record of parameters with those values as its
defaults, and the hardware's own parameters, where what R7 leaves OPEN is free. -/

namespace Sys2Proof.Machine

/-! ### The stencils (R176 to R178) -/

/-- `STENCIL[0]`, Floyd-Steinberg (R176). -/
def floydSteinberg : List StencilEntry :=
  [⟨1, 0, 7, 16⟩, ⟨-1, 1, 3, 16⟩, ⟨0, 1, 5, 16⟩, ⟨1, 1, 1, 16⟩]

/-- `STENCIL[1]`, Jarvis-Judice-Ninke (R177). -/
def jarvis : List StencilEntry :=
  [⟨1, 0, 7, 48⟩, ⟨2, 0, 5, 48⟩,
   ⟨-2, 1, 3, 48⟩, ⟨-1, 1, 5, 48⟩, ⟨0, 1, 7, 48⟩, ⟨1, 1, 5, 48⟩, ⟨2, 1, 3, 48⟩,
   ⟨-2, 2, 1, 48⟩, ⟨-1, 2, 3, 48⟩, ⟨0, 2, 5, 48⟩, ⟨1, 2, 3, 48⟩, ⟨2, 2, 1, 48⟩]

/-- `STENCIL[2]`, Atkinson; the weights sum to 6/8 on purpose (R178, C4). -/
def atkinson : List StencilEntry :=
  [⟨1, 0, 1, 8⟩, ⟨2, 0, 1, 8⟩, ⟨-1, 1, 1, 8⟩, ⟨0, 1, 1, 8⟩, ⟨1, 1, 1, 8⟩, ⟨0, 2, 1, 8⟩]

/-- The stencil ROM (R44). -/
def stencilRom : Fin 3 → List StencilEntry
  | 0 => floydSteinberg
  | 1 => jarvis
  | 2 => atkinson

/-! ### The decided functions -/

/-- `DIFFUSE(p, e, num, den) = clamp(floor((p * den + e * num) / den), 0, 255)` (R174). -/
def diffuse (c : Byte) (e : Int) (num den : Nat) : Byte :=
  clampByte (((c.toNat : Int) * den + e * num) / (den : Int))

/-- `BAYER_OFFSET(t) = floor((t - 128) / 8)` (R202). -/
def bayerOffset (t : Byte) : Int := ((t.toNat : Int) - 128) / 8

/-- `ROUND_TIES`: every tie goes up, `rnd(x) = floor(x + 1/2)` (R7, R125). -/
def tiesUp (_ : Nat) : Bool := true

end Sys2Proof.Machine

namespace Sys2Proof

/-- The named parameters of R7, each with the default R7 gives it, and the two supplies of free values. `XLEN`,
`FLOAT_FMT` and `DIM_BITS` are the widths of types, and no rule depends on `REG_BASE`, `IMG_BASE` and `BUS` (log 2,
log 22). -/
structure Params where
  /-- `NUM`, by default `NUM_REAL` (R7, R123, R124). -/
  num : Numerics := Machine.numReal
  /-- `ROUND_TIES`, the tie rule of `round` in the tone curve: whether `k + 1/2` rounds up to `k + 1` (R125). -/
  roundTies : Nat → Bool := Machine.tiesUp
  /-- `NEAREST_ROM`, 4096 palette indices by grid index (R41). -/
  nearestRom : BitVec 12 → Byte
  /-- `PALETTE_ROM`, 256 RGB triples (R42). -/
  paletteRom : Byte → Pixel
  /-- `BAYER_ROM[r][c]`, row first (R43). -/
  bayerRom : BitVec 4 → BitVec 4 → Byte
  /-- `STENCIL[s]`, three ordered lists of entries (R44). -/
  stencil : Fin 3 → List StencilEntry := Machine.stencilRom
  /-- `DIFFUSE(p, e, num, den)` (R174). -/
  diffuse : Byte → Int → Nat → Nat → Byte := Machine.diffuse
  /-- `BAYER_OFFSET(t)` (R202). -/
  bayerOffset : Byte → Int := Machine.bayerOffset
  /-- `ROWBUF_W`, the pixels of a row of the row buffer (R45). -/
  rowbufW : Nat := 65535
  /-- Every legal `WIDTH` fits in a row (R7). -/
  rowbufFits : 65535 ≤ rowbufW := by decide
  /-- `ID_VALUE`, what the `ID` register reads (R21). -/
  idValue : Word := 0x00000332#32
  /-- `IMG_CAP`, the capacity of the image space in bytes (R7, R47). -/
  imgCap : Nat
  /-- The value of an image byte nobody has written, by reset count and address (R49; log 5). -/
  unwritten : Nat → Nat → Byte
  /-- The value of the n-th unspecified host read (R37, R39, R76; log 7). -/
  draw : Nat → Word

/-- `NUM.gamma_entry(g, i)` under the tie rule of the parameters (R123, R125). -/
def Params.gammaEntry (p : Params) (g : Word) (i : Byte) : Byte := p.num.gammaEntry p.roundTies g i

/-- `NUM.cb_entry(g, c, l, i)` under the tie rule of the parameters (R123, R125). -/
def Params.cbEntry (p : Params) (g c l : Word) (i : Byte) : Byte := p.num.cbEntry p.roundTies g c l i

end Sys2Proof

namespace Sys2Proof.Config

/-! ### The hardware's parameters -/

/-- The hardware's `NUM.gamma_entry`, free but for the properties P2 and P4 of R123. -/
def gammaEntry (ties : Nat → Bool) (g : Word) (i : Byte) : Byte :=
  if i = 0#8 then 0#8
  else if i = 255#8 then 255#8
  else if g = 0x3F800000#32 then i
  else freeGamma ties g i

/-- The hardware's `NUM.cb_entry`, free but for the property P2 of R123. -/
def cbEntry (ties : Nat → Bool) (g c l : Word) (i : Byte) : Byte :=
  if g = 0x3F800000#32 ∧ c = 0x00000000#32 ∧ l = 0x3F800000#32 then i
  else freeCb ties g c l i

/-- The largest capacity R7 allows, `3 * 65535 * 65535`. -/
def maxCap : Nat := 3 * 65535 * 65535

/-- The hardware's own parameters: free constants where R7 says OPEN, the defaults of `Params` where it decides.
`IMG_CAP` is any positive integer up to `maxCap`. -/
def hw : Params where
  num := ⟨gammaEntry, cbEntry⟩
  nearestRom := freeNearest
  paletteRom := fun p => ⟨freePaletteR p, freePaletteG p, freePaletteB p⟩
  bayerRom := freeBayer
  imgCap := freeCap % maxCap + 1
  unwritten := freeUnwritten
  draw := freeDraw

end Sys2Proof.Config
end

