-- ==== Sys2Proof/Machine/Flags.lean ====
section
/-! DEFINITION. Every flag computation: the words of `STATUS`, `CTRL` and `POS`, the write to `STATUS`, the interrupt
line, and the three entry checks. -/

namespace Sys2Proof.Machine

/-- One flag bit as a bit vector. -/
def bit (b : Bool) : BitVec 1 := BitVec.ofBool b

/-- `STATUS` as the host reads it; [31:11] and [7:4] are reserved and read 0 (R23). -/
def statusWord (s : State) : Word :=
  0#21 ++ s.err ++ 0#4 ++ bit s.lutv ++ bit s.estk ++ bit s.done ++ bit s.busy

/-- `CTRL` as the host reads it; [31:2] read 0 (R24). -/
def ctrlWord (s : State) : Word := 0#30 ++ bit s.bufv ++ bit s.ie

/-- `POS` as the host reads it (R35). -/
def posWord (s : State) : Word := s.posY ++ s.posX

/-- `irq = IE and DONE` (R236). -/
def irq (s : State) : Bool := s.ie && s.done

/-- A host write to `STATUS`: bit [1] clears `DONE`, bit [2] clears `ESTK`, nothing else (R23, R218). -/
def writeStatus (v : Word) (s : State) : State :=
  { s with done := s.done && !v.getLsbD 1, estk := s.estk && !v.getLsbD 2 }

/-- A host write to `CTRL` (R24). -/
def writeCtrl (v : Word) (s : State) : State :=
  { s with ie := v.getLsbD 0, bufv := v.getLsbD 1 }

/-- The numeric code of an error kind (R102). -/
def ErrorKind.code : ErrorKind → BitVec 3
  | .invalidArgument => 1#3
  | .invalidParameter => 2#3
  | .ioFailure => 3#3
  | .illegalCommand => 4#3

/-- A cause bit of `ERRINFO`, set when its condition holds (R103). -/
def cause (holds : Bool) (mask : Word) : Word := if holds then mask else 0#32

/-- `GAMMA_BAD`: a NaN, an infinity, or `val(g) ≤ 0` (R121). -/
def gammaBad (g : Word) : Bool := f32IsNaN g || f32IsInf g || decide (f32Scaled g ≤ 0)

/-- `CONTRAST_BAD`: a NaN, an infinity, or `val(c) ≥ 259` (R121). -/
def contrastBad (c : Word) : Bool :=
  f32IsNaN c || f32IsInf c || decide (259 * 2 ^ 149 ≤ f32Scaled c)

/-- `LIGHTNESS_BAD`: a NaN or an infinity (R121). -/
def lightnessBad (l : Word) : Bool := f32IsNaN l || f32IsInf l

/-- `param_check(g, c, l)` of `BUILD_LUT` (R121). -/
def paramCheck (g c l : Word) : Word :=
  cause (gammaBad g) 0x100#32 ||| cause (contrastBad c) 0x200#32 ||| cause (lightnessBad l) 0x400#32

/-- `3 * W * H` of the sampled geometry, on unbounded integers (R63). -/
def State.imageSize (s : State) : Nat := 3 * s.wNat * s.hNat

/-- `apply_check()` of `APPLY_LUT` (R128). -/
def applyCheck (p : Params) (s : State) : Word :=
  cause (!s.bufv) 0x1#32
  ||| cause (s.bufv && decide (s.wNat * s.hNat = 0)) 0x2#32
  ||| cause (!s.lutv) 0x4#32
  ||| cause (s.bufv && decide (p.imgCap < s.imageSize)) 0x8#32

/-- `dither_check()` of `DITHER` (R171). -/
def ditherCheck (p : Params) (s : State) : Word :=
  cause (!s.bufv) 0x1#32 ||| cause (s.bufv && decide (p.imgCap < s.imageSize)) 0x8#32

end Sys2Proof.Machine
end

