-- ==== Sys2Proof/Machine/Ops.lean ====
section
/-! DEFINITION. The named operations over memory and registers: reading and writing image bytes and pixels, the life
cycle of a command, the error entry (the block's one exception entry), the reset, and running a command. -/

namespace Sys2Proof.Machine

/-! ### The image space -/

/-- The byte listed at an address, if any. -/
def Memory.get? : Memory → Nat → Option Byte
  | [], _ => none
  | (k, v) :: rest, a => if a = k then some v else Memory.get? rest a

/-- Writing one byte keeps the addresses strictly rising. -/
def Memory.set : Memory → Nat → Byte → Memory
  | [], a, b => [(a, b)]
  | (k, v) :: rest, a, b =>
    if a < k then (a, b) :: (k, v) :: rest
    else if a = k then (a, b) :: rest
    else (k, v) :: Memory.set rest a b

/-- The canonical form: addresses strictly rising. An unlisted address holds no stored value, so no
entry can repeat one (log 5). -/
def Memory.wf : Memory → Bool
  | [] => true
  | [_] => true
  | (a, _) :: (b, v) :: rest => decide (a < b) && Memory.wf ((b, v) :: rest)

/-- `MemRead(IMG+a, 1)` (R9): the written byte, or the free value of a byte nobody has written since
the last reset, the same at every read (R49; log 5). -/
def imgByte (p : Params) (s : State) (a : Nat) : Byte :=
  (Memory.get? s.image a).getD (p.unwritten s.epoch a)

/-- `MemWrite(IMG+a, 1, b)` (R9). -/
def setImgByte (s : State) (a : Nat) (b : Byte) : State := { s with image := Memory.set s.image a b }

/-- The offset of pixel `(x, y)` in an image `w` pixels wide, on unbounded integers (R63). -/
def pixelAddr (w x y : Nat) : Nat := 3 * (y * w + x)

/-- `PIX(x, y)` (R9, R63): R at the lowest offset, then G, then B. -/
def imgPixel (p : Params) (s : State) (x y : Nat) : Pixel :=
  ⟨imgByte p s (pixelAddr s.wNat x y), imgByte p s (pixelAddr s.wNat x y + 1),
   imgByte p s (pixelAddr s.wNat x y + 2)⟩

/-- `PIX(x, y) <- px` (R9): three byte writes in the order R, G, B (R67). -/
def setImgPixel (s : State) (x y : Nat) (px : Pixel) : State :=
  let a := pixelAddr s.wNat x y
  setImgByte (setImgByte (setImgByte s a px.r) (a + 1) px.g) (a + 2) px.b

/-! ### The life cycle of a command (R215) -/

/-- Issue: `DONE`, `ERR` and `ERRINFO` are cleared (R215). -/
def State.issue (s : State) : State := { s with done := false, err := 0#3, errInfo := 0#32 }

/-- Acceptance: `OP` is latched, `POS <- (0, 0)`, `BUSY <- 1`, the geometry is sampled (R215, R46). -/
def State.accept (w : Word) (s : State) : State :=
  { s with op := w, posY := 0#16, posX := 0#16, busy := true, wl := s.width, hl := s.height }

/-- `raise <Kind>(info)`, the error entry: it takes the place of an exception entry, and control goes
nowhere (R238). -/
def State.raise (kind : ErrorKind) (info : Word) (s : State) : State :=
  { s with err := kind.code, estk := true, errInfo := info, busy := false, done := true }

/-- The end of a command without error (R215). `ERR` is 0 since the issue. -/
def State.finish (s : State) : State := { s with busy := false, done := true }

/-- The state of R48 again, the model's own fields kept; the image starts a new epoch (R260; log 6). -/
def State.hardReset (s : State) : State :=
  { State.reset with host := s.host, reads := s.reads, draws := s.draws, epoch := s.epoch + 1 }

/-! ### The scan (R40) -/

/-- The scan is over: no pixel to visit, or `Y = H` (R40). -/
def scanDone (s : State) : Bool := decide (s.wNat * s.hNat = 0) || decide (s.hNat ≤ s.posY.toNat)

/-- The advance of `POS` after a pixel step (R40). -/
def advance (s : State) : State :=
  if s.posX.toNat + 1 < s.wNat then { s with posX := s.posX + 1#16 }
  else { s with posY := s.posY + 1#16, posX := 0#16 }

/-! ### Running -/

/-- The host waits for the end of the running command before its next act (R264; log 1). -/
def State.hostWaits (s : State) : Bool :=
  match s.host with
  | ⟨some _, _⟩ :: _ => false
  | _ => true

/-- Core steps until the command ends (R222: "the rest of the command at once"). -/
def runToEnd (coreStep : State → Result) : Nat → State → Result
  | 0, s => .next s
  | n + 1, s =>
    if s.busy then
      match coreStep s with
      | .next t => runToEnd coreStep n t
      | .fault f => .fault f
      | .refused r => .refused r
    else .next s

/-- More core steps than any command takes: one per pixel, and the end (R215). -/
def coreBound (s : State) : Nat := s.wNat * s.hNat + 2

/-- The life cycle of R215 around one command. A busy block ignores the write (R219). `latch` samples what
the command samples at acceptance; `check` is its entry check, an `ERRINFO` word, 0 for success; `coreStep`
is one core step. With a host that waits the whole command runs in this one step (R186, R222); with one
that does not, the command is accepted and its core steps follow one by one (log 1). -/
def runCommand (w : Word) (kind : ErrorKind) (latch : State → State) (check : State → Word)
    (coreStep : State → Result) (s : State) : Result :=
  if s.busy then .next s
  else
    let t := latch ((s.issue).accept w)
    if check t ≠ 0#32 then .next (t.raise kind (check t))
    else if t.hostWaits then runToEnd coreStep (coreBound t) t
    else .next t

end Sys2Proof.Machine
end

