-- ==== Sys2Proof/Machine/Control.lean ====
section
/-! DEFINITION. The two commands that belong to no unit (`44_control.md`): `NOP` and `SRESET`. -/

namespace Sys2Proof.Machine

/-- The core step of `NOP`: nothing but the end (R216). -/
def nopStep (s : State) : Result := .next s.finish

/-- The core step of `SRESET`: every piece of state takes its reset value, then the command ends (R217, R262). -/
def sresetStep (s : State) : Result := .next s.hardReset.finish

/-- The meaning of `NOP` (R216). -/
def execNop (s : State) : Result :=
  runCommand 0x00000000#32 .invalidArgument id (fun _ => 0#32) nopStep s

/-- The meaning of `SRESET` (R217). -/
def execSreset (s : State) : Result :=
  runCommand 0x00000006#32 .invalidArgument id (fun _ => 0#32) sresetStep s

end Sys2Proof.Machine
end

