-- ==== Sys2Proof/Machine/Palette.lean ====
section
/-! DEFINITION. The palette mapper unit (`41_palette_mapper.md`): its functions, `MAP332` and `MAPNN`. -/

namespace Sys2Proof.Machine

/-- `trunc332(R, G, B)` (R150, R99). -/
def trunc332 (px : Pixel) : Byte :=
  (px.r &&& 0xE0#8) ||| ((px.g &&& 0xE0#8) >>> 3) ||| (px.b >>> 6)

/-- `reduce4(v) = floor(v * 15 / 256)` (R151); never 15 (C3, R270). -/
def reduce4 (v : Byte) : BitVec 4 := BitVec.ofNat 4 (v.toNat * 15 / 256)

/-- `grid_index(R, G, B)`, R in the top nibble (R152, R100). -/
def gridIndex (px : Pixel) : BitVec 12 := reduce4 px.r ++ reduce4 px.g ++ reduce4 px.b

/-- The palette index of `nearest` (R153). -/
def nearestIndex (p : Params) (px : Pixel) : Byte := p.nearestRom (gridIndex px)

/-- `nearest_rgb(R, G, B)` (R153). -/
def nearestRgb (p : Params) (px : Pixel) : Pixel := p.paletteRom (nearestIndex p px)

/-- The core step of `MAP332` (R154). -/
def map332Step (s : State) : Result :=
  .next ({ s with pixOut := zextByte (trunc332 (pixelOfBits s.pixIn)) }).finish

/-- The core step of `MAPNN` (R155). -/
def mapnnStep (p : Params) (s : State) : Result :=
  let px := pixelOfBits s.pixIn
  .next ({ s with
    pixOut := wordOfPixel (nearestRgb p px)
    idxOut := 0#4 ++ gridIndex px ++ 0#8 ++ nearestIndex p px }).finish

/-- `MAP332` (R154): no entry check. -/
def cmdMap332 (s : State) : Result :=
  runCommand 0x00000004#32 .invalidArgument id (fun _ => 0#32) map332Step s

/-- `MAPNN` (R155): no entry check. -/
def cmdMapnn (p : Params) (s : State) : Result :=
  runCommand 0x00000005#32 .invalidArgument id (fun _ => 0#32) (mapnnStep p) s

/-- The meaning of `MAP332`. -/
def execMap332 (s : State) : Result := cmdMap332 s

/-- The meaning of `MAPNN`, with the hardware's ROMs. -/
def execMapnn (s : State) : Result := cmdMapnn Config.hw s

end Sys2Proof.Machine
end

