-- ==== Sys2Proof/Machine/RowBuffer.lean ====
section
/-! DEFINITION. The row buffer of the error-diffusion unit (R45): a write-back window of three rows over the image. -/

namespace Sys2Proof.Machine

/-- The slot of image row `r` is slot `r mod 3` (R45). -/
def slotOf (r : Nat) : Fin 3 := Fin.ofNat 3 r

/-- A slot of the row buffer. -/
def State.slot (s : State) (j : Fin 3) : RowSlot := s.rowbuf[j.val]'j.isLt

/-- Replacing a slot. -/
def State.setSlot (s : State) (j : Fin 3) (slot : RowSlot) : State :=
  { s with rowbuf := s.rowbuf.set j.val slot j.isLt }

/-- Row `r` is held in the row buffer. -/
def State.holdsRow (s : State) (r : Nat) : Bool := decide ((s.slot (slotOf r)).tag = some r)

/-- The pixels `x, x+1, …` of row `r` written to the image. -/
def storeRow (r : Nat) : Nat → List Pixel → State → State
  | _, [], s => s
  | x, px :: rest, s => storeRow r (x + 1) rest (setImgPixel s x r px)

/-- A held row is copied back to the image and its tag becomes `none` (R45). -/
def flushSlot (j : Fin 3) (s : State) : State :=
  match (s.slot j).tag with
  | none => s
  | some r => (storeRow r 0 (s.slot j).px s).setSlot j ⟨none, (s.slot j).px⟩

/-- Every held row is copied back (R45: before the command ends). -/
def flushAll (s : State) : State := flushSlot 2 (flushSlot 1 (flushSlot 0 s))

/-- Row `r` is copied from the image before its first use, `ROWBUF_W` pixels at most, which is every pixel (R45, R7). -/
def loadRow (p : Params) (r : Nat) (s : State) : State :=
  if s.hNat ≤ r ∨ s.holdsRow r then s
  else
    let t := flushSlot (slotOf r) s
    t.setSlot (slotOf r) ⟨some r, (List.range (min t.wNat p.rowbufW)).map (fun x => imgPixel p t x r)⟩

/-- The rows `y` to `y + reach` that exist are held (R45; R179 to R181). -/
def loadRows (p : Params) (y : Nat) : Nat → State → State
  | 0, s => loadRow p y s
  | reach + 1, s => loadRow p (y + (reach + 1)) (loadRows p y reach s)

/-- `PIX(x, y)` during error diffusion: the held copy, or the image (R45). -/
def bufPixel (p : Params) (s : State) (x y : Nat) : Pixel :=
  if s.holdsRow y then ((s.slot (slotOf y)).px[x]?).getD (imgPixel p s x y) else imgPixel p s x y

/-- `PIX(x, y) <- px` during error diffusion: to the held copy, or the image (R45). -/
def setBufPixel (s : State) (x y : Nat) (px : Pixel) : State :=
  if s.holdsRow y then s.setSlot (slotOf y) ⟨some y, (s.slot (slotOf y)).px.set x px⟩
  else setImgPixel s x y px

end Sys2Proof.Machine
end

