-- ==== Sys2Proof/Machine/Dither.lean ====
section
/-! DEFINITION. The two ditherer units (`42_error_diffusion.md`, `43_bayer_dither.md`): the pixel steps of the five
method behaviours, and `DITHER`. Stencils, `DIFFUSE` and `BAYER_OFFSET` are parameters (`Machine/Parameters.lean`). -/

namespace Sys2Proof.Machine

/-! ### Error diffusion (R172 to R175) -/

/-- How many rows below `y` the row buffer needs (R179 to R181). -/
def stencilReach : Fin 3 → Nat
  | 0 => 1
  | 1 => 2
  | 2 => 2

/-- `DIFFUSE` on the three channels, each with its own error (R172). -/
def diffusePixel (p : Params) (px : Pixel) (e : ChannelError) (ent : StencilEntry) : Pixel :=
  ⟨p.diffuse px.r e.r ent.num ent.den, p.diffuse px.g e.g ent.num ent.den, p.diffuse px.b e.b ent.num ent.den⟩

/-- `inside(tx, ty)` on signed integers (R173). -/
def inside (w h : Nat) (tx ty : Int) : Bool :=
  decide (0 ≤ tx) && decide (tx < w) && decide (0 ≤ ty) && decide (ty < h)

/-- The signed error per channel (step 4 of R172). -/
def pixelError (old new : Pixel) : ChannelError :=
  ⟨(old.r.toNat : Int) - new.r.toNat, (old.g.toNat : Int) - new.g.toNat, (old.b.toNat : Int) - new.b.toNat⟩

/-- One stencil entry of step 5 of R172, at the pixel `(x, y)`: outside targets are skipped (R173). -/
def spreadEntry (p : Params) (x y : Nat) (ent : StencilEntry) (s : State) : State :=
  let tx : Int := (x : Int) + ent.dx
  let ty : Int := (y : Int) + ent.dy
  if inside s.wNat s.hNat tx ty then
    setBufPixel s tx.toNat ty.toNat (diffusePixel p (bufPixel p s tx.toNat ty.toNat) s.errE ent)
  else s

/-- Step 5 of R172: the entries from index `k` on, in the stencil's order (R175). -/
def spreadError (p : Params) (x y : Nat) : Nat → List StencilEntry → State → State
  | _, [], s => s
  | k, ent :: rest, s =>
    spreadError p x y (k + 1) rest (spreadEntry p x y ent { s with kIdx := Fin.ofNat 12 k })

/-- Steps 1 to 5 of R172 at the scan position. -/
def diffusionPixel (p : Params) (s : State) : State :=
  let x := s.posX.toNat
  let y := s.posY.toNat
  let old := bufPixel p s x y
  let new := nearestRgb p old
  let t := setBufPixel { s with old := old, new := new } x y new
  spreadError p x y 0 (p.stencil t.sSel) { t with errE := pixelError old new }

/-- Row `y` is copied back when the scan leaves it (R45). -/
def leaveRow (y : Nat) (s : State) : State :=
  if s.posY.toNat = y then s else flushSlot (slotOf y) s

/-- The core step of an error-diffusion method: a pixel step in the row buffer and the advance of `POS`, or the
write-back and the end (R172, R187). -/
def diffusionStep (p : Params) (s : State) : Result :=
  if scanDone s then .next (flushAll s).finish
  else
    let y := s.posY.toNat
    .next (leaveRow y (advance (diffusionPixel p (loadRows p y (stencilReach s.sSel) s))))

/-! ### The methods without error (R182, R200) -/

/-- The core step of a method whose pixels are independent: `f x y` maps the pixel at `(x, y)`. -/
def pointwiseStep (p : Params) (f : Nat → Nat → Pixel → Pixel) (s : State) : Result :=
  if scanDone s then .next s.finish
  else
    let x := s.posX.toNat
    let y := s.posY.toNat
    .next (advance (setImgPixel s x y (f x y (imgPixel p s x y))))

/-- The adjusted channel `clamp(c + off, 0, 255)` (R203). -/
def bayerChannel (c : Byte) (off : Int) : Byte := clampByte ((c.toNat : Int) + off)

/-- The threshold of a pixel, row first, by its own coordinates modulo 16 (R201). -/
def bayerThreshold (p : Params) (x y : Nat) : Byte := p.bayerRom (BitVec.ofNat 4 y) (BitVec.ofNat 4 x)

/-- The Bayer pixel step (R200 to R204). -/
def bayerPixel (p : Params) (x y : Nat) (px : Pixel) : Pixel :=
  let off := p.bayerOffset (bayerThreshold p x y)
  nearestRgb p ⟨bayerChannel px.r off, bayerChannel px.g off, bayerChannel px.b off⟩

/-! ### The command -/

/-- `M` and `S` at acceptance: the dispatch of R170 is taken once (R46, R220, R179 to R181). -/
def latchMethod (s : State) : State :=
  { s with
    m := s.method
    sSel := if methodOf s.method = 0 then 0
      else if methodOf s.method = 1 then 1
      else if methodOf s.method = 2 then 2
      else s.sSel }

/-- The core step of `DITHER`, by the sampled method; every other value is the no-dither default (R170, R95). -/
def ditherStep (p : Params) (s : State) : Result :=
  if methodOf s.m = 0 ∨ methodOf s.m = 1 ∨ methodOf s.m = 2 then diffusionStep p s
  else if methodOf s.m = 3 then pointwiseStep p (bayerPixel p) s
  else pointwiseStep p (fun _ _ => nearestRgb p) s

/-- `DITHER` (R170), its entry check R171. -/
def cmdDither (p : Params) (s : State) : Result :=
  runCommand 0x00000003#32 .invalidArgument latchMethod (ditherCheck p) (ditherStep p) s

/-- The meaning of `DITHER`, with the hardware's ROMs. -/
def execDither (s : State) : Result := cmdDither Config.hw s

end Sys2Proof.Machine
end

