-- ==== Sys2Proof/Machine/Tone.lean ====
section
/-! DEFINITION. The tone curve unit (`40_tone_curve.md`): `BUILD_LUT` and `APPLY_LUT`. Its arithmetic is the parameter
`NUM` under the tie rule `ROUND_TIES` (`Machine/Parameters.lean`). -/

namespace Sys2Proof.Machine

/-! ### `BUILD_LUT` -/

/-- A whole table from its entries. -/
def tableOf (f : Byte → Byte) : Vector Byte 256 := Vector.ofFn (fun i => f (BitVec.ofNat 8 i.val))

/-- An entry of a table, indexed by a byte (R129). -/
def tableAt (t : Vector Byte 256) (i : Byte) : Byte := t[i.toNat]'i.isLt

/-- The core step of `BUILD_LUT`: both tables whole, by `NUM` under `ROUND_TIES`, and `LUTV` (R120, R122, R126). -/
def buildLutStep (p : Params) (s : State) : Result :=
  .next ({ s with
    lutG := tableOf (p.gammaEntry s.gamma)
    lutC := tableOf (p.cbEntry s.gamma s.contrast s.lightness)
    iIdx := 255#8
    lutv := true }).finish

/-- `BUILD_LUT` (R120), its entry check R121. -/
def cmdBuildLut (p : Params) (s : State) : Result :=
  runCommand 0x00000001#32 .invalidParameter id (fun t => paramCheck t.gamma t.contrast t.lightness)
    (buildLutStep p) s

/-- The meaning of `BUILD_LUT`, with the hardware's numerics. -/
def execBuildLut (s : State) : Result := cmdBuildLut Config.hw s

/-! ### `APPLY_LUT` -/

/-- The chained tables on one channel: `LUTC[LUTG[b]]` (R129, R130). -/
def toneByte (s : State) (b : Byte) : Byte := tableAt s.lutC (tableAt s.lutG b)

/-- The chained tables on one pixel (R127). -/
def tonePixel (s : State) (px : Pixel) : Pixel := ⟨toneByte s px.r, toneByte s px.g, toneByte s px.b⟩

/-- The core step of `APPLY_LUT`: a pixel step and the advance of `POS`, or the end (R127, R40). -/
def applyLutStep (p : Params) (s : State) : Result :=
  if scanDone s then .next s.finish
  else if s.lutv then
    .next (advance (setImgPixel s s.posX.toNat s.posY.toNat
      (tonePixel s (imgPixel p s s.posX.toNat s.posY.toNat))))
  else .fault .unbuiltTables

/-- `APPLY_LUT` (R127), its entry check R128. -/
def cmdApplyLut (p : Params) (s : State) : Result :=
  runCommand 0x00000002#32 .invalidArgument id (applyCheck p) (applyLutStep p) s

/-- The meaning of `APPLY_LUT`. -/
def execApplyLut (s : State) : Result := cmdApplyLut Config.hw s

end Sys2Proof.Machine
end

