-- ==== Sys2Proof/Machine/Bus.lean ====
section
/-! DEFINITION. The bus and the sequencer: register, table and image accesses of the host (`10_state.md` section 1,
`20_memory.md`), the core step of the latched command, and the step relation of R222. -/

namespace Sys2Proof.Machine

/-! ### What a host read returns -/

/-- A host read returns `v`. -/
def reply (v : Word) (s : State) : State := { s with reads := v :: s.reads }

/-- The part of a value that an access of the given width carries. -/
def narrow : Width → Word → Word
  | .w8, v => v &&& 0xFF#32
  | .w16, v => v &&& 0xFFFF#32
  | .w32, v => v

/-- A host read returns an unspecified value: a free value, a new one every time (R37, R39, R76; log 7). -/
def replyFree (p : Params) (width : Width) (s : State) : State :=
  { reply (narrow width (p.draw s.draws)) s with draws := s.draws + 1 }

/-- Image and table accesses: 8 bits at any offset, or 32 bits aligned (R66). -/
def byteSpaceOk (offset : Nat) : Width → Bool
  | .w8 => true
  | .w16 => false
  | .w32 => offset % 4 == 0

/-- The value of an access from the bytes at its offsets, little-endian (R65). -/
def gather (byteAt : Nat → Byte) (offset : Nat) : Width → Word
  | .w8 => zextByte (byteAt offset)
  | .w16 => 0#16 ++ byteAt (offset + 1) ++ byteAt offset
  | .w32 => wordOfBytes (byteAt offset) (byteAt (offset + 1)) (byteAt (offset + 2)) (byteAt (offset + 3))

/-! ### The register space (R20 to R37) -/

/-- `PIX_OUT`, `IDX_OUT`, `ERRINFO` and `POS` are unspecified while the block is busy (R37). -/
def readVolatile (p : Params) (v : Word) (s : State) : State :=
  if s.busy then replyFree p .w32 s else reply v s

/-- `STATUS` with one of the codes R102 reserves for nobody to write. -/
def errReserved (s : State) : Bool :=
  s.err == 3#3 || s.err == 5#3 || s.err == 6#3 || s.err == 7#3

/-- An aligned 32-bit read of the register space (R20 to R37). Reads have no side effect on the block (R67). -/
def readRegister (p : Params) (offset : Nat) (s : State) : Result :=
  match offset with
  | 0x00 => .next (reply p.idValue s)
  | 0x04 => .next (reply 0#32 s)
  | 0x08 => if errReserved s then .fault .reservedErrCode else .next (reply (statusWord s) s)
  | 0x0C => .next (reply (ctrlWord s) s)
  | 0x10 => .next (reply s.gamma s)
  | 0x14 => .next (reply s.contrast s)
  | 0x18 => .next (reply s.lightness s)
  | 0x1C => .next (reply s.method s)
  | 0x20 => .next (reply (0#16 ++ s.width) s)
  | 0x24 => .next (reply (0#16 ++ s.height) s)
  | 0x28 => .next (reply (0#8 ++ s.pixIn) s)
  | 0x2C => .next (readVolatile p s.pixOut s)
  | 0x30 => .next (readVolatile p s.idxOut s)
  | 0x34 => .next (readVolatile p s.errInfo s)
  | 0x38 => .next (readVolatile p (posWord s) s)
  | _ => .next (reply 0#32 s)

/-- A write of a word to `CMD` (R22, R215). An illegal word is issued and raises `IllegalCommand`, and changes
nothing else (R93, R234). `run` is the meaning of a command. -/
def writeCmd (run : Instr → State → Result) (w : Word) (s : State) : Result :=
  match decode w with
  | .ok i => run i s
  | .error _ => .next ((s.issue).raise .illegalCommand w)

/-- An aligned 32-bit write to the register space of an idle block (R20 to R36). -/
def writeRegister (run : Instr → State → Result) (offset : Nat) (v : Word) (s : State) : Result :=
  match offset with
  | 0x04 => writeCmd run v s
  | 0x08 => .next (writeStatus v s)
  | 0x0C => .next (writeCtrl v s)
  | 0x10 => .next { s with gamma := v }
  | 0x14 => .next { s with contrast := v }
  | 0x18 => .next { s with lightness := v }
  | 0x1C => .next { s with method := v }
  | 0x20 => .next (if s.bufv then s else { s with width := v.extractLsb' 0 16 })
  | 0x24 => .next (if s.bufv then s else { s with height := v.extractLsb' 0 16 })
  | 0x28 => .next { s with pixIn := v.extractLsb' 0 24 }
  | _ => .next s

/-! ### The table space (R64) -/

/-- The `LUTG` and `LUTC` windows, 0x0400 to 0x05FF (R64). -/
def lutWindow (offset : Nat) : Bool := decide (0x400 ≤ offset ∧ offset < 0x600)

/-- The byte at an offset of the table space; unmapped offsets read 0 (R61, R64; log 11). -/
def tableByte (p : Params) (s : State) (offset : Nat) : Byte :=
  if offset < 0x400 then 0#8
  else if offset < 0x500 then tableAt s.lutG (BitVec.ofNat 8 (offset - 0x400))
  else if offset < 0x600 then tableAt s.lutC (BitVec.ofNat 8 (offset - 0x500))
  else if offset < 0x700 then
    p.bayerRom (BitVec.ofNat 4 ((offset - 0x600) / 16)) (BitVec.ofNat 4 ((offset - 0x600) % 16))
  else if offset < 0x800 then 0#8
  else if offset < 0xC00 then
    byteOfWord (wordOfPixel (p.paletteRom (BitVec.ofNat 8 ((offset - 0x800) / 4)))) ((offset - 0x800) % 4)
  else if offset < 0x1000 then 0#8
  else if offset < 0x2000 then p.nearestRom (BitVec.ofNat 12 (offset - 0x1000))
  else 0#8

/-- A read of the table space; the tone tables are unspecified unless `LUTV = 1` and `BUSY = 0` (R64). -/
def readTable (p : Params) (offset : Nat) (width : Width) (s : State) : State :=
  if byteSpaceOk offset width then
    if lutWindow offset && !(s.lutv && !s.busy) then replyFree p width s
    else reply (gather (tableByte p s) offset width) s
  else reply 0#32 s

/-! ### The image space (R60, R66, R76) -/

/-- The byte the host sees at an image offset: 0 at and above `IMG_CAP` (R66), a free value while the block is
busy (R76), else the image byte. -/
def hostImgByte (p : Params) (s : State) (a : Nat) : Byte :=
  if p.imgCap ≤ a then 0#8
  else if s.busy then byteOfWord (p.draw s.draws) (a % 4)
  else imgByte p s a

/-- A host read of the image space. -/
def readImage (p : Params) (offset : Nat) (width : Width) (s : State) : State :=
  if byteSpaceOk offset width then
    let t := reply (gather (hostImgByte p s) offset width) s
    if s.busy then { t with draws := s.draws + 1 } else t
  else reply 0#32 s

/-- A host write of one image byte: nothing at and above `IMG_CAP` (R66). -/
def hostSetByte (p : Params) (a : Nat) (b : Byte) (s : State) : State :=
  if p.imgCap ≤ a then s else setImgByte s a b

/-- A host write to the image space of an idle block, byte by byte (R65, R66; log 9). -/
def writeImage (p : Params) (offset : Nat) (width : Width) (v : Word) (s : State) : State :=
  if byteSpaceOk offset width then
    match width with
    | .w8 => hostSetByte p offset (byteOfWord v 0) s
    | .w16 => s
    | .w32 =>
      hostSetByte p (offset + 3) (byteOfWord v 3) (hostSetByte p (offset + 2) (byteOfWord v 2)
        (hostSetByte p (offset + 1) (byteOfWord v 1) (hostSetByte p offset (byteOfWord v 0) s)))
  else s

/-! ### Acts of the host -/

/-- The access is to the register space, and is one the register space answers (R36, R66). -/
def registerAccess (offset : Nat) (width : Width) : Bool :=
  decide (offset < 0x100) && decide (width = .w32) && offset % 4 == 0

/-- A host read. -/
def hostRead (p : Params) (space : Space) (offset : Nat) (width : Width) (s : State) : Result :=
  match space with
  | .window =>
    if registerAccess offset width then readRegister p offset s
    else if offset < 0x100 then .next (reply 0#32 s)
    else .next (readTable p offset width s)
  | .image => .next (readImage p offset width s)

/-- A host write. A busy block ignores it whatever it is (R37, R76, R219); table space is read-only (R64). -/
def hostWrite (p : Params) (run : Instr → State → Result) (space : Space) (offset : Nat) (width : Width)
    (v : Word) (s : State) : Result :=
  if s.busy then .next s
  else
    match space with
    | .window => if registerAccess offset width then writeRegister run offset v s else .next s
    | .image => .next (writeImage p offset width v s)

/-- One act of the host (R222). The reset pin stops even a running command (R260). -/
def hostAct (p : Params) (run : Instr → State → Result) (act : HostAct) (s : State) : Result :=
  match act with
  | .read space offset width => hostRead p space offset width s
  | .write space offset width v => hostWrite p run space offset width v s
  | .resetPin => .next s.hardReset

/-! ### The core and the step -/

/-- One core step of a command. -/
def commandStep (p : Params) : Instr → State → Result
  | .nop => nopStep
  | .buildLut => buildLutStep p
  | .applyLut => applyLutStep p
  | .dither => ditherStep p
  | .map332 => map332Step
  | .mapnn => mapnnStep p
  | .sreset => sresetStep

/-- One core step of the latched command (R222). -/
def coreStep (p : Params) (s : State) : Result :=
  match decode s.op with
  | .ok i => commandStep p i s
  | .error _ => .fault .noCommand

/-- The rest of the running command at once (R222). -/
def restOfCommand (p : Params) (s : State) : Result := runToEnd (coreStep p) (coreBound s) s

/-- The step relation of R222, made a function by what State says of the host (log 1). An idle block with no
pending act stays as it is. A busy block runs to its end if the host waits; otherwise core steps and the host's
act come in the order the pending act's count says. -/
def stepWith (p : Params) (run : Instr → State → Result) (s : State) : Result :=
  if s.busy then
    match s.host with
    | ⟨some 0, act⟩ :: rest => hostAct p run act { s with host := rest }
    | ⟨some (k + 1), act⟩ :: rest => coreStep p { s with host := ⟨some k, act⟩ :: rest }
    | _ => restOfCommand p s
  else
    match s.host with
    | [] => .next s
    | q :: rest => hostAct p run q.act { s with host := rest }

end Sys2Proof.Machine
end

