-- ==== Sys2Proof/Machine/Dispatch.lean ====
section
/-! DEFINITION. The dispatch of a command to its meaning, one arm per constructor. -/

namespace Sys2Proof.Machine

def exec (i : Instr) (s : State) : Host.Outcome State Fault Refusal :=
  match i with
  | .nop => Sys2Proof.Machine.execNop s
  | .buildLut => Sys2Proof.Machine.execBuildLut s
  | .applyLut => Sys2Proof.Machine.execApplyLut s
  | .dither => Sys2Proof.Machine.execDither s
  | .map332 => Sys2Proof.Machine.execMap332 s
  | .mapnn => Sys2Proof.Machine.execMapnn s
  | .sreset => Sys2Proof.Machine.execSreset s

end Sys2Proof.Machine
end

