-- ==== Sys2Proof/Machine/Step.lean ====
section
/-! DEFINITION. One step of the machine, and placing a command where the next step takes it. -/

namespace Sys2Proof.Machine

/-- One step with the hardware's parameters and the meanings of `exec`. -/
def step (s : State) : Host.Outcome State Fault Refusal := stepWith Config.hw exec s

/-- `s` with a write of the word `w` to `CMD` as the host's next act, and the block idle, so that the very next
step issues exactly it (log 1). -/
def State.withFetchWord (s : State) (nbits w : Nat) : State :=
  { s with
    busy := false
    host := ⟨none, .write .window 0x04 .w32 (BitVec.ofNat 32 (w % 2 ^ nbits))⟩ :: s.host }

end Sys2Proof.Machine
end

