-- ==== Sys2Proof/Machine/Script.lean ====
section
/-! DEFINITION. The host script notation of R110 and R111, as pending acts, and the external Encoder's file (R108). -/

namespace Sys2Proof.Machine.Script

/-- `WR <REG>, v` of an idle-waiting host (R110). -/
def wr (offset : Nat) (v : Word) : Pending := ⟨none, .write .window offset .w32 v⟩

/-- `RD <REG>` (R110). A `WAIT` is the read of `STATUS` that sees `BUSY = 0`: the host that waits (log 1). -/
def rd (offset : Nat) : Pending := ⟨none, .read .window offset .w32⟩

/-- `WRB IMG+a, b` (R110). -/
def wrb (a : Nat) (b : Byte) : Pending := ⟨none, .write .image a .w8 (zextByte b)⟩

/-- `RDB IMG+a` (R110). -/
def rdb (a : Nat) : Pending := ⟨none, .read .image a .w8⟩

/-- `RDB TBL+o` (R110). -/
def rdbTable (o : Nat) : Pending := ⟨none, .read .window o .w8⟩

/-- `RDW TBL+o` (R110). -/
def rdwTable (o : Nat) : Pending := ⟨none, .read .window o .w32⟩

/-- `<MNEMONIC>`: a write of the command word to `CMD` (R110). -/
def command (i : Instr) : Pending := wr 0x04 (encode i)

/-- `WAIT` (R110). -/
def wait : Pending := rd 0x08

/-- `PARAMS g, c, l` (R111). -/
def params (g c l : Word) : List Pending := [wr 0x10 g, wr 0x14 c, wr 0x18 l]

/-- The bytes of an image written from an offset on. -/
def imageBytes : Nat → List Byte → List Pending
  | _, [] => []
  | a, b :: rest => wrb a b :: imageBytes (a + 1) rest

/-- `LOADIMG W, H, b0, b1, …` (R111). -/
def loadImage (w h : Word) (bytes : List Byte) : List Pending :=
  [wr 0x0C 0#32, wr 0x20 w, wr 0x24 h] ++ imageBytes 0 bytes ++ [wr 0x0C 2#32]

/-- `ACK` (R111). -/
def ack : Pending := wr 0x08 6#32

/-- `CONVERT m` (R111). -/
def convert (m : Word) : List Pending :=
  [wr 0x1C m, command .buildLut, wait, command .applyLut, wait, command .dither, wait]

/-- `ENC332 a`, for the pixel the three reads return (R111). -/
def enc332 (a : Nat) (px : Pixel) : List Pending :=
  [rdb a, rdb (a + 1), rdb (a + 2), wr 0x28 (wordOfPixel px), command .map332, wait, rd 0x2C]

/-- The Encoder's file: the little-endian header and `trunc332` of every pixel, row by row (R108). -/
def encoderFile (p : Params) (s : State) : List Byte :=
  let t := { s with wl := s.width, hl := s.height }
  [t.width.extractLsb' 0 8, t.width.extractLsb' 8 8, t.height.extractLsb' 0 8, t.height.extractLsb' 8 8,
    0x32#8, 0x03#8]
  ++ (List.range t.hNat).flatMap (fun y => (List.range t.wNat).map (fun x => trunc332 (imgPixel p t x y)))

end Sys2Proof.Machine.Script
end

