-- ==== Sys2Proof/Safety.lean ====
section
/-! DEFINITION. The terms claims use: what the host can see of a state, the invariant of the machine, and the image
algorithms of the spec on a plain image function, without row buffer, position or life cycle. -/

namespace Sys2Proof.Machine

/-! ### What can be seen between commands -/

/-- `s` with the hidden state of R45 and R46 blanked. Two idle states with equal `visible` differ in nothing
that a host access or a later command depends on. -/
def State.visible (s : State) : State :=
  { s with
    rowbuf := State.reset.rowbuf
    op := 0#32
    m := 0#32
    sSel := 0
    kIdx := 0
    errE := ⟨0, 0, 0⟩
    old := ⟨0#8, 0#8, 0#8⟩
    new := ⟨0#8, 0#8, 0#8⟩
    iIdx := 0#8
    wl := 0#16
    hl := 0#16 }

/-- `s` with `act` as the host's next act, made `after` so many core steps of a running command, or after its end
(log 1). -/
def State.facing (s : State) (after : Option Nat) (act : HostAct) : State := { s with host := ⟨after, act⟩ :: s.host }

/-- An act of a host is made by the very next step: the block is idle, or the host does not wait any longer (log 1). -/
def State.due (s : State) (after : Option Nat) : Prop := s.busy = false ∨ after = some 0

/-- The block is idle and the host waits for the end of the command it issues: the conditions under which a
command runs whole in one step (R186, R222; log 1). -/
def State.ready (s : State) : Prop := s.busy = false ∧ s.hostWaits = true

/-- What acceptance and a good end write for every command but `SRESET` (R215, R46), the scan position apart. -/
def State.completed (s : State) (i : Instr) : State :=
  { s with op := encode i, wl := s.width, hl := s.height, busy := false, done := true, err := 0#3, errInfo := 0#32 }

/-- What a failed entry check leaves of an accepted command (R215, R238; log 8). -/
def State.failed (s : State) (i : Instr) (kind : ErrorKind) (info : Word) : State :=
  { s.completed i with posY := 0#16, posX := 0#16, err := kind.code, estk := true, errInfo := info }

/-- The state with the scan at its end: `(H, 0)`, or `(0, 0)` for an image without pixels (R40). -/
def State.scanned (s : State) : State :=
  { s with posX := 0#16, posY := if s.width.toNat * s.height.toNat = 0 then 0#16 else s.height }

/-- No row is held (R45: so at every command end). -/
def State.tagsNone (s : State) : Prop := ∀ j, (s.slot j).tag = none

/-- `n` steps of the machine. -/
def stepsOf : Nat → State → Result
  | 0, s => .next s
  | n + 1, s =>
    match step s with
    | .next t => stepsOf n t
    | .fault f => .fault f
    | .refused r => .refused r

/-- `3 * W * H` of the geometry registers (R47). -/
def State.bufferSize (s : State) : Nat := 3 * s.width.toNat * s.height.toNat

/-! ### The invariant -/

/-- The method sampled at acceptance is one of the three that diffuse errors (R95). -/
def State.diffusing (s : State) : Prop :=
  s.op = encode .dither ∧ (methodOf s.m = 0 ∨ methodOf s.m = 1 ∨ methodOf s.m = 2)

/-- The command being executed visits the pixels of the image (R40). -/
def State.scanning (s : State) : Prop := s.op = encode .applyLut ∨ s.op = encode .dither

/-- The row buffer during error diffusion: slot `r mod 3` may hold row `r`, of the rows `Y` to `Y + 2` that
exist, with one pixel per column (R45). -/
def State.rowsOk (s : State) : Prop :=
  ∀ j r, (s.slot j).tag = some r →
    slotOf r = j ∧ s.posY.toNat ≤ r ∧ r ≤ s.posY.toNat + 2 ∧ r < s.hNat ∧ (s.slot j).px.length = s.wNat

/-- The invariant of the machine. -/
structure State.Inv (s : State) : Prop where
  /-- `BUSY` and `DONE` are never both 1 (R23). -/
  busyDone : ¬(s.busy = true ∧ s.done = true)
  /-- Codes 3, 5, 6 and 7 are never written (R102). -/
  errCode : s.err = 0#3 ∨ s.err = 1#3 ∨ s.err = 2#3 ∨ s.err = 4#3
  /-- A running command has cleared the code of the one before (R215). -/
  errBusy : s.busy = true → s.err = 0#3
  /-- `ERRINFO` is 0 exactly when `ERR` is (R103). -/
  errDetail : s.err = 0#3 ↔ s.errInfo = 0#32
  /-- `PIX_OUT` bits [31:24] are 0 (R32). -/
  pixOutTop : s.pixOut.extractLsb' 24 8 = 0#8
  /-- `IDX_OUT` bits [31:28] and [15:8] are 0 (R33). -/
  idxOutGaps : s.idxOut.extractLsb' 28 4 = 0#4 ∧ s.idxOut.extractLsb' 8 8 = 0#8
  /-- The image memory is in canonical form. -/
  imageWf : Memory.wf s.image = true
  /-- No byte is stored at or above `IMG_CAP` (R47, R66). -/
  imageCap : ∀ c ∈ s.image, c.1 < Config.hw.imgCap
  /-- An idle block holds no row (R45), and its scan position is at the start of a row (R40). -/
  idle : s.busy = false → s.tagsNone ∧ s.posX = 0#16
  /-- A busy block executes a command (R215) on the geometry it sampled (R46). -/
  command : s.busy = true → (∃ i, s.op = encode i) ∧ s.wl = s.width ∧ s.hl = s.height
  /-- A scanning command has passed its entry check (R128, R171). -/
  entry : s.busy = true → s.scanning → s.bufv = true ∧ s.bufferSize ≤ Config.hw.imgCap
  /-- `APPLY_LUT` runs only with built tables (R128). -/
  tables : s.busy = true → s.op = encode .applyLut → s.lutv = true
  /-- `BUILD_LUT` runs only with good parameters (R121). -/
  params : s.busy = true → s.op = encode .buildLut → paramCheck s.gamma s.contrast s.lightness = 0#32
  /-- The scan position is a pixel of the image, or the end of the scan, or `(0, 0)` of an empty image (R40). -/
  position : s.busy = true →
    (s.posX.toNat < s.wNat ∧ s.posY.toNat < s.hNat) ∨
      (s.posX = 0#16 ∧ (s.posY.toNat = s.hNat ∨ s.posY = 0#16))
  /-- Only the scanning commands move the scan position (R40). -/
  still : s.busy = true → ¬s.scanning → s.posX = 0#16 ∧ s.posY = 0#16
  /-- `M` and `S` are the sampled method and its stencil (R46). -/
  method : s.busy = true → s.op = encode .dither →
    s.m = s.method ∧ (s.diffusing → methodOf s.m = s.sSel.val)
  /-- Rows are held only by a running error diffusion (R45). -/
  rows : s.busy = true → (s.diffusing → s.rowsOk) ∧ (¬s.diffusing → s.tagsNone)

/-! ### The algorithms of the spec on an image function -/

/-- An image as the function from offsets to bytes. -/
abbrev ImageFn := Nat → Byte

/-- `PIX(x, y)` of an image function (R63). -/
def ImageFn.pixel (f : ImageFn) (w x y : Nat) : Pixel :=
  ⟨f (pixelAddr w x y), f (pixelAddr w x y + 1), f (pixelAddr w x y + 2)⟩

/-- `PIX(x, y) <- px` of an image function (R63). -/
def ImageFn.put (f : ImageFn) (w x y : Nat) (px : Pixel) : ImageFn := fun a =>
  if a = pixelAddr w x y then px.r
  else if a = pixelAddr w x y + 1 then px.g
  else if a = pixelAddr w x y + 2 then px.b
  else f a

/-- The raster order of R40: row-major, top to bottom, left to right. -/
def rasterOrder (w h : Nat) : List (Nat × Nat) :=
  (List.range h).flatMap (fun y => (List.range w).map (fun x => (x, y)))

/-- Step 5 of R172 on an image function, entry by entry in the stencil's order: each channel of an inside target
takes the share of its own channel's error, by `DIFFUSE`. -/
def refSpread (p : Params) (w h x y : Nat) (e : ChannelError) : List StencilEntry → ImageFn → ImageFn
  | [], f => f
  | ent :: rest, f =>
    let tx : Int := (x : Int) + ent.dx
    let ty : Int := (y : Int) + ent.dy
    let px := ImageFn.pixel f w tx.toNat ty.toNat
    refSpread p w h x y e rest
      (if 0 ≤ tx ∧ tx < w ∧ 0 ≤ ty ∧ ty < h then
        ImageFn.put f w tx.toNat ty.toNat
          ⟨p.diffuse px.r e.r ent.num ent.den, p.diffuse px.g e.g ent.num ent.den, p.diffuse px.b e.b ent.num ent.den⟩
      else f)

/-- The pixel step of R172 on an image function: read, quantise, write back, and spread the signed error
`OLD - NEW` of each channel. -/
def refDiffusionPixel (p : Params) (st : List StencilEntry) (w h : Nat) (f : ImageFn) (q : Nat × Nat) : ImageFn :=
  let old := ImageFn.pixel f w q.1 q.2
  let new := nearestRgb p old
  let e : ChannelError :=
    ⟨(old.r.toNat : Int) - new.r.toNat, (old.g.toNat : Int) - new.g.toNat, (old.b.toNat : Int) - new.b.toNat⟩
  refSpread p w h q.1 q.2 e st (ImageFn.put f w q.1 q.2 new)

/-- `error_diffusion(st)` of R172: the left fold of the pixel step over the raster order (R186). -/
def refDiffusion (p : Params) (st : List StencilEntry) (w h : Nat) (f : ImageFn) : ImageFn :=
  (rasterOrder w h).foldl (refDiffusionPixel p st w h) f

/-- A method whose pixels are independent of each other, on an image function (R129, R182, R205). -/
def refPointwise (g : Nat → Nat → Pixel → Pixel) (w h : Nat) (f : ImageFn) : ImageFn := fun a =>
  if a < 3 * w * h then
    let x := a / 3 % w
    let y := a / 3 / w
    let px := g x y (ImageFn.pixel f w x y)
    if a % 3 = 0 then px.r else if a % 3 = 1 then px.g else px.b
  else f a

/-- The image of a state as a function (R47, R49). -/
def imageOf (s : State) : ImageFn := imgByte Config.hw s

end Sys2Proof.Machine
end

