-- ==== Sys2Proof/Certificates/Slice0/Obligations.lean ====
section
/-! DEFINITION. The statements for the provers. Each docstring names the rule the statement formalises. -/

open Sys2Proof Sys2Proof.Machine

/-! ### Encoding and the step -/

/-- R90 to R93, R107: decoding inverts encoding, on words and on bytes in bus order, in both directions. -/
def Obligations.DecodeInvertsEncode : Prop :=
  (∀ i, decode (encode i) = .ok i) ∧
  (∀ w i, decode w = .ok i → w = encode i) ∧
  (∀ i rest, decodeBytes (encodeBytes i ++ rest) = .ok (i, rest)) ∧
  (∀ b0 b1 b2 b3 rest i r, decodeBytes (b0 :: b1 :: b2 :: b3 :: rest) = .ok (i, r) →
    r = rest ∧ encodeBytes i = [b0, b1, b2, b3])

/-- R92 and the first sentence of R93: which words are illegal, and why each is rejected. -/
def Obligations.IllegalWordsAreRejectedByName : Prop :=
  ∀ w : Word,
    (w.extractLsb' 8 24 ≠ 0#24 → decode w = .error (.reservedBits w)) ∧
    (w.extractLsb' 8 24 = 0#24 → 0x07#8 ≤ w.extractLsb' 0 8 → decode w = .error (.unassignedOpcode w)) ∧
    (w.extractLsb' 8 24 = 0#24 → w.extractLsb' 0 8 < 0x07#8 → ∃ i, decode w = .ok i ∧ encode i = w)

/-- R91: the opcode map, row by row, and words beside it. -/
def Obligations.OpcodeMapOfTheSpec : Prop :=
  decodeTableWord 32 0x00000000 = some .nop ∧
  decodeTableWord 32 0x00000001 = some .buildLut ∧
  decodeTableWord 32 0x00000002 = some .applyLut ∧
  decodeTableWord 32 0x00000003 = some .dither ∧
  decodeTableWord 32 0x00000004 = some .map332 ∧
  decodeTableWord 32 0x00000005 = some .mapnn ∧
  decodeTableWord 32 0x00000006 = some .sreset ∧
  decodeTableWord 32 0x00000007 = none ∧
  decodeTableWord 32 0x00000101 = none ∧
  decodeTableWord 32 0x80000001 = none

/-- R22, R215: the write of a command word to `CMD` of an idle block, as the host's next act, is the command's
meaning at the state without that act. -/
def Obligations.StepRunsTheDecodedCommand : Prop :=
  ∀ (s : State) (after : Option Nat) (rest : List Pending) (w : Word) (i : Instr),
    s.busy = false → decode w = .ok i →
    step { s with host := ⟨after, .write .window 0x04 .w32 w⟩ :: rest } = exec i { s with host := rest }

/-- The placing of a table word (log 1): the very next step runs the command it stands for. -/
def Obligations.PlacedWordRuns : Prop :=
  ∀ (s : State) (nbits w : Nat) (i : Instr), decodeTableWord nbits w = some i →
    step (s.withFetchWord nbits w) = exec i { s with busy := false }

/-- R92, R93, R234: an illegal word written to `CMD` of an idle block ends with `IllegalCommand`, the word in
`ERRINFO`, and nothing else changes. -/
def Obligations.IllegalWordRaisesIllegalCommand : Prop :=
  ∀ (s : State) (after : Option Nat) (w : Word), s.busy = false →
    (w.extractLsb' 8 24 ≠ 0#24 ∨ 0x07#8 ≤ w.extractLsb' 0 8) →
    step (s.facing after (.write .window 0x04 .w32 w)) =
      .next { s with done := true, err := 4#3, estk := true, errInfo := w }

/-- R222: an idle block without pending acts has no step of its own; the model's step leaves it as it is (log 21). -/
def Obligations.IdleBlockStaysAsItIs : Prop :=
  ∀ s : State, s.busy = false → s.host = [] → step s = .next s

/-- R37, R219, R22: while `BUSY = 1` every host write is ignored; ten registers read their current values, `CMD` reads
0, and four registers return free values (log 7). -/
def Obligations.BusyRegisterSpace : Prop :=
  ∀ s : State, s.busy = true →
    (∀ space offset width v, step (s.facing (some 0) (.write space offset width v)) = .next s) ∧
    (errReserved s = false →
      step (s.facing (some 0) (.read .window 0x08 .w32)) = .next { s with reads := statusWord s :: s.reads }) ∧
    (∀ q ∈ [(0x00, 0x00000332#32), (0x04, 0#32), (0x0C, ctrlWord s), (0x10, s.gamma), (0x14, s.contrast),
        (0x18, s.lightness), (0x1C, s.method), (0x20, s.width.setWidth 32), (0x24, s.height.setWidth 32),
        (0x28, s.pixIn.setWidth 32)],
      step (s.facing (some 0) (.read .window q.1 .w32)) = .next { s with reads := q.2 :: s.reads }) ∧
    (∀ offset ∈ [0x2C, 0x30, 0x34, 0x38],
      step (s.facing (some 0) (.read .window offset .w32)) =
        .next { s with reads := Config.hw.draw s.draws :: s.reads, draws := s.draws + 1 })

/-! ### The register space of an idle block -/

/-- R21 to R35, R98: what a host reads in the fifteen registers of an idle block. -/
def Obligations.RegistersReadTheirFields : Prop :=
  ∀ (s : State) (after : Option Nat), s.busy = false → errReserved s = false →
    ∀ q ∈ [(0x00, 0x00000332#32), (0x04, 0#32), (0x08, statusWord s), (0x0C, ctrlWord s), (0x10, s.gamma),
        (0x14, s.contrast), (0x18, s.lightness), (0x1C, s.method), (0x20, s.width.setWidth 32),
        (0x24, s.height.setWidth 32), (0x28, s.pixIn.setWidth 32), (0x2C, s.pixOut), (0x30, s.idxOut),
        (0x34, s.errInfo), (0x38, posWord s)],
      step (s.facing after (.read .window q.1 .w32)) = .next { s with reads := q.2 :: s.reads }

/-- R23, R24, R35: the places of the fields in `STATUS`, `CTRL` and `POS`; reserved bits read 0. R236: the interrupt
line is `IE and DONE`; a written 1 to `DONE`, clearing `IE` and the issue of a command that goes on lower it. -/
def Obligations.StatusFieldPlaces : Prop :=
  ∀ s : State,
    (statusWord s).getLsbD 0 = s.busy ∧ (statusWord s).getLsbD 1 = s.done ∧
    (statusWord s).getLsbD 2 = s.estk ∧ (statusWord s).getLsbD 3 = s.lutv ∧
    (statusWord s).extractLsb' 4 4 = 0#4 ∧ (statusWord s).extractLsb' 8 3 = s.err ∧
    (statusWord s).extractLsb' 11 21 = 0#21 ∧
    (ctrlWord s).getLsbD 0 = s.ie ∧ (ctrlWord s).getLsbD 1 = s.bufv ∧ (ctrlWord s).extractLsb' 2 30 = 0#30 ∧
    (posWord s).extractLsb' 16 16 = s.posY ∧ (posWord s).extractLsb' 0 16 = s.posX ∧
    (irq s = true ↔ s.ie = true ∧ s.done = true) ∧
    (∀ after v, s.busy = false → v.getLsbD 1 = true →
      ∃ t, step (s.facing after (.write .window 0x08 .w32 v)) = .next t ∧ irq t = false) ∧
    (∀ after v, s.busy = false → v.getLsbD 0 = false →
      ∃ t, step (s.facing after (.write .window 0x0C .w32 v)) = .next t ∧ irq t = false) ∧
    (∀ i t, s.busy = false → exec i s = .next t → t.busy = true → irq t = false)

/-- R20, R23 to R35, R218: what a host write to each register of an idle block does; `CMD` apart. -/
def Obligations.RegisterWritesOfAnIdleBlock : Prop :=
  ∀ (s : State) (after : Option Nat) (v : Word), s.busy = false →
    step (s.facing after (.write .window 0x08 .w32 v)) =
      .next { s with done := s.done && !v.getLsbD 1, estk := s.estk && !v.getLsbD 2 } ∧
    step (s.facing after (.write .window 0x0C .w32 v)) = .next { s with ie := v.getLsbD 0, bufv := v.getLsbD 1 } ∧
    step (s.facing after (.write .window 0x10 .w32 v)) = .next { s with gamma := v } ∧
    step (s.facing after (.write .window 0x14 .w32 v)) = .next { s with contrast := v } ∧
    step (s.facing after (.write .window 0x18 .w32 v)) = .next { s with lightness := v } ∧
    step (s.facing after (.write .window 0x1C .w32 v)) = .next { s with method := v } ∧
    step (s.facing after (.write .window 0x20 .w32 v)) =
      .next (if s.bufv then s else { s with width := v.setWidth 16 }) ∧
    step (s.facing after (.write .window 0x24 .w32 v)) =
      .next (if s.bufv then s else { s with height := v.setWidth 16 }) ∧
    step (s.facing after (.write .window 0x28 .w32 v)) = .next { s with pixIn := v.setWidth 24 } ∧
    (∀ offset ∈ [0x00, 0x2C, 0x30, 0x34, 0x38], step (s.facing after (.write .window offset .w32 v)) = .next s)

/-- R36: accesses to the register space that no register answers read 0, write nothing and raise nothing. That a busy
block answers so too, and gives no free value, is the model's reading (log 10). -/
def Obligations.UnansweredRegisterAccesses : Prop :=
  ∀ (s : State) (after : Option Nat) (offset : Nat) (width : Width) (v : Word), s.due after → offset < 0x100 →
    (0x3C ≤ offset ∨ width ≠ .w32 ∨ offset % 4 ≠ 0) →
    step (s.facing after (.read .window offset width)) = .next { s with reads := 0#32 :: s.reads } ∧
    step (s.facing after (.write .window offset width v)) = .next s

/-- R269, R29, R30: `WIDTH` and `HEIGHT` cannot be changed while `BUFV = 1`: whatever a step does, it either
leaves them, or clears `BUFV`. -/
def Obligations.GeometryLock : Prop :=
  ∀ s t : State, step s = .next t → s.bufv = true → t.bufv = true →
    t.width = s.width ∧ t.height = s.height

/-- R67: a host read has no side effect on the block: only the model's log of reads and its count of free values
move. -/
def Obligations.HostReadsHaveNoSideEffect : Prop :=
  ∀ (s t : State) (after : Option Nat) (space : Space) (offset : Nat) (width : Width), s.due after →
    step (s.facing after (.read space offset width)) = .next t →
    (∃ v, t.reads = v :: s.reads) ∧ t = { s with reads := t.reads, draws := t.draws }

/-! ### The table space and the image space -/

/-- R64, R65, R66: the five windows, when they may be read and what they return otherwise (free values, log 7), at
8 bits and at aligned 32 bits, little-endian; the other accesses read 0; writes are ignored. The byte reads of the
palette window, and that writes at offsets from 0x2000, which no rule names, are ignored too, are the model's
reading (log 11). -/
def Obligations.TableSpaceReads : Prop :=
  ∀ (s : State) (after : Option Nat), s.due after →
    (s.lutv = true → s.busy = false → ∀ i : Byte,
      step (s.facing after (.read .window (0x400 + i.toNat) .w8)) =
        .next { s with reads := (tableAt s.lutG i).setWidth 32 :: s.reads } ∧
      step (s.facing after (.read .window (0x500 + i.toNat) .w8)) =
        .next { s with reads := (tableAt s.lutC i).setWidth 32 :: s.reads } ∧
      (i.toNat % 4 = 0 →
        step (s.facing after (.read .window (0x400 + i.toNat) .w32)) =
          .next { s with reads := (tableAt s.lutG (i + 3) ++ tableAt s.lutG (i + 2) ++ tableAt s.lutG (i + 1)
            ++ tableAt s.lutG i) :: s.reads } ∧
        step (s.facing after (.read .window (0x500 + i.toNat) .w32)) =
          .next { s with reads := (tableAt s.lutC (i + 3) ++ tableAt s.lutC (i + 2) ++ tableAt s.lutC (i + 1)
            ++ tableAt s.lutC i) :: s.reads })) ∧
    (s.lutv = false ∨ s.busy = true → ∀ offset, 0x400 ≤ offset → offset < 0x600 →
      step (s.facing after (.read .window offset .w8)) =
        .next { s with reads := (Config.hw.draw s.draws &&& 0xFF#32) :: s.reads, draws := s.draws + 1 } ∧
      (offset % 4 = 0 → step (s.facing after (.read .window offset .w32)) =
        .next { s with reads := Config.hw.draw s.draws :: s.reads, draws := s.draws + 1 })) ∧
    (∀ r c : BitVec 4,
      step (s.facing after (.read .window (0x600 + 16 * r.toNat + c.toNat) .w8)) =
        .next { s with reads := (Config.hw.bayerRom r c).setWidth 32 :: s.reads } ∧
      (c.toNat % 4 = 0 → step (s.facing after (.read .window (0x600 + 16 * r.toNat + c.toNat) .w32)) =
        .next { s with reads := (Config.hw.bayerRom r (c + 3) ++ Config.hw.bayerRom r (c + 2)
          ++ Config.hw.bayerRom r (c + 1) ++ Config.hw.bayerRom r c) :: s.reads })) ∧
    (∀ p : Byte, step (s.facing after (.read .window (0x800 + 4 * p.toNat) .w32)) =
        .next { s with reads := (0#8 ++ (Config.hw.paletteRom p).r ++ (Config.hw.paletteRom p).g
          ++ (Config.hw.paletteRom p).b) :: s.reads } ∧
      ∀ k : Fin 4, step (s.facing after (.read .window (0x800 + 4 * p.toNat + k.val) .w8)) =
        .next { s with reads := ([(Config.hw.paletteRom p).b, (Config.hw.paletteRom p).g, (Config.hw.paletteRom p).r,
          0#8].getD k.val 0#8).setWidth 32 :: s.reads }) ∧
    (∀ i : BitVec 12,
      step (s.facing after (.read .window (0x1000 + i.toNat) .w8)) =
        .next { s with reads := (Config.hw.nearestRom i).setWidth 32 :: s.reads } ∧
      (i.toNat % 4 = 0 → step (s.facing after (.read .window (0x1000 + i.toNat) .w32)) =
        .next { s with reads := (Config.hw.nearestRom (i + 3) ++ Config.hw.nearestRom (i + 2)
          ++ Config.hw.nearestRom (i + 1) ++ Config.hw.nearestRom i) :: s.reads })) ∧
    (s.busy = false → ∀ offset width, 0x400 ≤ offset → offset < 0x2000 →
      (width = .w16 ∨ width = .w32 ∧ offset % 4 ≠ 0) →
      step (s.facing after (.read .window offset width)) = .next { s with reads := 0#32 :: s.reads }) ∧
    (∀ offset width v, 0x100 ≤ offset → step (s.facing after (.write .window offset width v)) = .next s)

/-- R61: the unmapped offsets of the table space read 0, at any width, busy or not, and ignore writes. -/
def Obligations.UnmappedTableOffsetsReadZero : Prop :=
  ∀ (s : State) (after : Option Nat) (offset : Nat) (width : Width) (v : Word), s.due after →
    (0x100 ≤ offset ∧ offset < 0x400 ∨ 0x700 ≤ offset ∧ offset < 0x800 ∨ 0xC00 ≤ offset ∧ offset < 0x1000) →
    step (s.facing after (.read .window offset width)) = .next { s with reads := 0#32 :: s.reads } ∧
    step (s.facing after (.write .window offset width v)) = .next s

/-- R60, R65, R66: a byte write and an aligned word write of an idle block's image change exactly the bytes they
name, and no other state. -/
def Obligations.ImageWritesOfTheHost : Prop :=
  ∀ (s : State) (after : Option Nat) (a : Nat) (v : Word), s.busy = false →
    (a < Config.hw.imgCap → ∃ t, step (s.facing after (.write .image a .w8 v)) = .next t ∧
      t = { s with image := t.image } ∧
      ∀ k, imageOf t k = if k = a then v.setWidth 8 else imageOf s k) ∧
    (a % 4 = 0 → a + 3 < Config.hw.imgCap → ∃ t, step (s.facing after (.write .image a .w32 v)) = .next t ∧
      t = { s with image := t.image } ∧
      ∀ k, imageOf t k =
        if a ≤ k ∧ k < a + 4 then v.extractLsb' (8 * (k - a)) 8 else imageOf s k)

/-- R60, R65: what the host reads in the image of an idle block, little-endian, at both widths. -/
def Obligations.ImageReadsOfTheHost : Prop :=
  ∀ (s : State) (after : Option Nat) (a : Nat), s.busy = false →
    (a < Config.hw.imgCap →
      step (s.facing after (.read .image a .w8)) = .next { s with reads := (imageOf s a).setWidth 32 :: s.reads }) ∧
    (a % 4 = 0 → a + 3 < Config.hw.imgCap →
      step (s.facing after (.read .image a .w32)) =
        .next { s with reads :=
          (imageOf s (a + 3) ++ imageOf s (a + 2) ++ imageOf s (a + 1) ++ imageOf s a) :: s.reads })

/-- R66: image accesses at or above `IMG_CAP`, unaligned words and 16-bit accesses read 0 and write nothing. For a
busy block see log 10. -/
def Obligations.UnansweredImageAccesses : Prop :=
  ∀ (s : State) (after : Option Nat) (a : Nat) (width : Width) (v : Word), s.busy = false →
    (Config.hw.imgCap ≤ a ∨ width = .w16 ∨ (width = .w32 ∧ a % 4 ≠ 0)) →
    step (s.facing after (.read .image a width)) = .next { s with reads := 0#32 :: s.reads } ∧
    step (s.facing after (.write .image a width v)) = .next s

/-- R64, R71 and R76 make the host's reads of the image and of the tone tables of a busy block unspecified. The model
gives free values for them (log 7), so what is read does not depend on image or tables: that is the model's choice,
not the rules' word, which would let the live bytes be read. -/
def Obligations.BusyReadsRevealNothing : Prop :=
  ∀ (s : State) (img : Memory) (g c : Vector Byte 256) (space : Space) (offset : Nat) (width : Width) (t u : State),
    s.busy = true →
    step (s.facing (some 0) (.read space offset width)) = .next t →
    step ({ s with image := img, lutG := g, lutC := c }.facing (some 0) (.read space offset width)) = .next u →
    t.reads = u.reads

/-! ### Reset -/

/-- R48, R260: the state after reset, as the spec states it. -/
def Obligations.ResetStateOfTheSpec : Prop :=
  statusWord State.reset = 0x00000000#32 ∧ ctrlWord State.reset = 0x00000000#32 ∧
  State.reset.gamma = 0x3F800000#32 ∧ State.reset.contrast = 0x00000000#32 ∧
  State.reset.lightness = 0x3F800000#32 ∧ State.reset.method = 0xFFFFFFFF#32 ∧
  State.reset.width = 0 ∧ State.reset.height = 0 ∧ State.reset.pixIn = 0 ∧ State.reset.pixOut = 0 ∧
  State.reset.idxOut = 0 ∧ State.reset.errInfo = 0 ∧ posWord State.reset = 0 ∧
  State.reset.tagsNone ∧ irq State.reset = false ∧
  ∀ after,
    step (State.reset.facing after (.read .window 0x00 .w32)) =
      .next { State.reset with reads := [0x00000332#32] } ∧
    step (State.reset.facing after (.read .window 0x04 .w32)) = .next { State.reset with reads := [0#32] }

/-- R260: the reset pin takes any state, busy or idle, to the reset state; no image byte keeps its value by the
model's account (log 6), and the model's own fields are kept. -/
def Obligations.ResetPinStopsEverything : Prop :=
  ∀ (s : State) (after : Option Nat), s.due after → step (s.facing after .resetPin) =
    .next { State.reset with host := s.host, reads := s.reads, draws := s.draws, epoch := s.epoch + 1 }

/-- R262, R217: `SRESET` completes in the state of a hardware reset, except that `DONE = 1`. -/
def Obligations.SresetIsAHardwareResetWithDone : Prop :=
  ∀ s : State, s.ready → ∃ t u : State,
    exec .sreset s = .next t ∧ step (s.facing none .resetPin) = .next u ∧ t = { u with done := true } ∧
    statusWord t = 0x002#32 ∧ irq t = false

/-! ### The commands -/

/-- R216: `NOP` completes and changes nothing but what the life cycle writes. -/
def Obligations.NopCompletes : Prop :=
  ∀ s : State, s.ready → exec .nop s = .next { s.completed .nop with posY := 0#16, posX := 0#16 }

/-- R154: `MAP332` completes, with `trunc332` of the pixel in `PIX_IN`. -/
def Obligations.Map332Completes : Prop :=
  ∀ s : State, s.ready →
    exec .map332 s = .next { s.completed .map332 with
      posY := 0#16
      posX := 0#16
      pixOut := (((s.pixIn.extractLsb' 16 8 &&& 0xE0#8) ||| ((s.pixIn.extractLsb' 8 8 &&& 0xE0#8) >>> 3)
        ||| (s.pixIn.extractLsb' 0 8 >>> 6) : Byte)).setWidth 32 }

/-- R155, R153: `MAPNN` completes, with the palette entry and the two indices. -/
def Obligations.MapnnCompletes : Prop :=
  ∀ s : State, s.ready → ∀ (px : Pixel) (q : Byte),
    px = ⟨s.pixIn.extractLsb' 16 8, s.pixIn.extractLsb' 8 8, s.pixIn.extractLsb' 0 8⟩ →
    q = Config.hw.nearestRom (gridIndex px) →
    exec .mapnn s = .next { s.completed .mapnn with
      posY := 0#16
      posX := 0#16
      pixOut := 0#8 ++ (Config.hw.paletteRom q).r ++ (Config.hw.paletteRom q).g ++ (Config.hw.paletteRom q).b
      idxOut := (gridIndex px).setWidth 32 <<< 16 ||| q.setWidth 32 }

/-- R120, R123, R125: `BUILD_LUT` with good parameters completes: both tables entry by entry, by `NUM` under the tie
rule `ROUND_TIES`, `LUTV`, and nothing else that can be seen. -/
def Obligations.BuildLutCompletes : Prop :=
  ∀ s : State, s.ready → paramCheck s.gamma s.contrast s.lightness = 0#32 →
    ∃ t, exec .buildLut s = .next t ∧
      (∀ i, tableAt t.lutG i = Config.hw.num.gammaEntry Config.hw.roundTies s.gamma i) ∧
      (∀ i, tableAt t.lutC i = Config.hw.num.cbEntry Config.hw.roundTies s.gamma s.contrast s.lightness i) ∧
      t.lutv = true ∧
      t.visible = ({ s.completed .buildLut with
        posY := 0#16, posX := 0#16, lutG := t.lutG, lutC := t.lutC, lutv := true } : State).visible

/-- R121, R126, R232, R238: `BUILD_LUT` with a bad parameter raises `InvalidParameter` and leaves tables and `LUTV`.
That `POS` is (0, 0) and `OP` and the geometry are latched after it is what R215, R40 and R46 write at acceptance; that
R239 does not take it back is the model's reading (log 8). -/
def Obligations.BuildLutRaisesInvalidParameter : Prop :=
  ∀ s : State, s.busy = false → paramCheck s.gamma s.contrast s.lightness ≠ 0#32 →
    exec .buildLut s =
      .next (s.failed .buildLut .invalidParameter (paramCheck s.gamma s.contrast s.lightness))

/-- R121, with R96's NaN (`e = 255`, `t` not 0) and infinity (`e = 255`, `t = 0`): the three cause bits of
`param_check`, each exactly when its condition on the pattern holds. -/
def Obligations.ParamCheckBits : Prop :=
  ∀ g c l : Word,
    ((paramCheck g c l).getLsbD 8 = true ↔
      (g.extractLsb' 23 8 = 255#8 ∧ g.extractLsb' 0 23 ≠ 0#23) ∨ (g.extractLsb' 23 8 = 255#8 ∧ g.extractLsb' 0 23 = 0#23) ∨
        f32Val g ≤ 0) ∧
    ((paramCheck g c l).getLsbD 9 = true ↔
      (c.extractLsb' 23 8 = 255#8 ∧ c.extractLsb' 0 23 ≠ 0#23) ∨ (c.extractLsb' 23 8 = 255#8 ∧ c.extractLsb' 0 23 = 0#23) ∨
        259 ≤ f32Val c) ∧
    ((paramCheck g c l).getLsbD 10 = true ↔
      (l.extractLsb' 23 8 = 255#8 ∧ l.extractLsb' 0 23 ≠ 0#23) ∨ (l.extractLsb' 23 8 = 255#8 ∧ l.extractLsb' 0 23 = 0#23)) ∧
    (∀ n, n ≠ 8 → n ≠ 9 → n ≠ 10 → (paramCheck g c l).getLsbD n = false) ∧
    (∀ f : Word, (f32IsNaN f = true ↔ f.extractLsb' 23 8 = 255#8 ∧ f.extractLsb' 0 23 ≠ 0#23) ∧
      (f32IsInf f = true ↔ f.extractLsb' 23 8 = 255#8 ∧ f.extractLsb' 0 23 = 0#23))

/-- R96: the value of a finite pattern. -/
def Obligations.F32ValueFormula : Prop :=
  ∀ f : Word,
    (f32Exp f = (f.extractLsb' 23 8).toNat ∧ f32Frac f = (f.extractLsb' 0 23).toNat) ∧
    (1 ≤ f32Exp f → f32Exp f ≤ 254 → f32Val f =
      (if f.getLsbD 31 then -1 else 1) * (2 : ℚ) ^ ((f32Exp f : ℤ) - 127) * (1 + (f32Frac f : ℚ) / 2 ^ 23)) ∧
    (f32Exp f = 0 → f32Val f =
      (if f.getLsbD 31 then -1 else 1) * (2 : ℚ) ^ (-126 : ℤ) * ((f32Frac f : ℚ) / 2 ^ 23))

/-- R127, R129, R130, R40: `APPLY_LUT` on a present, non-empty buffer that fits, with built tables, completes: every
byte of the image is replaced by the chained tables' value of itself, every other byte and everything else that can
be seen is unchanged. -/
def Obligations.ApplyLutCompletes : Prop :=
  ∀ s : State, s.ready → s.bufv = true → s.lutv = true → s.width.toNat * s.height.toNat ≠ 0 →
    s.bufferSize ≤ Config.hw.imgCap →
    ∃ t, exec .applyLut s = .next t ∧
      (∀ a, imageOf t a = if a < s.bufferSize then tableAt s.lutC (tableAt s.lutG (imageOf s a)) else imageOf s a) ∧
      t.visible = ({ (s.completed .applyLut).scanned with image := t.image } : State).visible

/-- R128, R231, R238: `APPLY_LUT` whose entry check finds a cause raises `InvalidArgument` with every cause that holds,
and touches neither image nor tables. That `POS` is (0, 0) and `OP` and the geometry are latched after it is what R215,
R40 and R46 write at acceptance; that R239 does not take it back is the model's reading (log 8). -/
def Obligations.ApplyLutRaisesInvalidArgument : Prop :=
  ∀ (s : State) (info : Word), s.busy = false →
    info = (if s.bufv then
        (if s.width.toNat * s.height.toNat = 0 then 0x2#32 else 0#32)
          ||| (if Config.hw.imgCap < 3 * s.width.toNat * s.height.toNat then 0x8#32 else 0#32)
      else 0x1#32) ||| (if s.lutv then 0#32 else 0x4#32) →
    info ≠ 0#32 → exec .applyLut s = .next (s.failed .applyLut .invalidArgument info)

/-- R171, R231, R238: `DITHER` whose entry check finds a cause raises `InvalidArgument` and touches neither image nor
row buffer. That `POS` is (0, 0) after it is what R215 and R40 write at acceptance; that R239 does not take it back is
the model's reading (log 8). -/
def Obligations.DitherRaisesInvalidArgument : Prop :=
  ∀ s : State, s.busy = false →
    (s.bufv = false ∨ Config.hw.imgCap < 3 * s.width.toNat * s.height.toNat) →
    ∃ t, exec .dither s = .next t ∧
      t.visible = (s.failed .dither .invalidArgument (if s.bufv then 0x8#32 else 0x1#32)).visible ∧
      t.rowbuf = s.rowbuf

/-- R182, R95: `DITHER` with a method outside 0..3 completes: every pixel becomes its grid-nearest palette colour. An
image of zero pixels is no error and nothing is written (R171). -/
def Obligations.DitherPassthroughCompletes : Prop :=
  ∀ s : State, s.ready → s.bufv = true → s.bufferSize ≤ Config.hw.imgCap →
    s.method.toInt ∉ [0, 1, 2, 3] →
    ∃ t, exec .dither s = .next t ∧
      imageOf t = refPointwise (fun _ _ px => Config.hw.paletteRom (Config.hw.nearestRom (gridIndex px)))
        s.width.toNat s.height.toNat (imageOf s) ∧
      t.visible = ({ (s.completed .dither).scanned with image := t.image } : State).visible

/-- R200 to R205: `DITHER` with method 3 completes: every pixel becomes the grid-nearest palette colour of the pixel
adjusted by its own threshold. -/
def Obligations.DitherBayerCompletes : Prop :=
  ∀ s : State, s.ready → s.bufv = true → s.bufferSize ≤ Config.hw.imgCap → s.method = 3#32 →
    ∃ t, exec .dither s = .next t ∧
      imageOf t = refPointwise (fun x y px =>
          let off : Int :=
            (((Config.hw.bayerRom (BitVec.ofNat 4 (y % 16)) (BitVec.ofNat 4 (x % 16))).toNat : Int) - 128) / 8
          nearestRgb Config.hw
            ⟨clampByte (px.r.toNat + off), clampByte (px.g.toNat + off), clampByte (px.b.toNat + off)⟩)
        s.width.toNat s.height.toNat (imageOf s) ∧
      t.visible = ({ (s.completed .dither).scanned with image := t.image } : State).visible

/-- R172, R186, R45, R179 to R181: `DITHER` with methods 0, 1, 2 completes, and its image, computed through the row
buffer, is the fold of R172's pixel step over the raster order, applied to the image itself; the row buffer is empty
at the end. The error is `OLD - NEW` per channel (step 4), and each channel of a neighbour takes the share of its own
channel's error (step 5). -/
def Obligations.DitherErrorDiffusionCompletes : Prop :=
  (∀ old new : Pixel, pixelError old new =
    ⟨(old.r.toNat : Int) - new.r.toNat, (old.g.toNat : Int) - new.g.toNat, (old.b.toNat : Int) - new.b.toNat⟩) ∧
  (∀ (px : Pixel) (e : ChannelError) (ent : StencilEntry), diffusePixel Config.hw px e ent =
    ⟨diffuse px.r e.r ent.num ent.den, diffuse px.g e.g ent.num ent.den, diffuse px.b e.b ent.num ent.den⟩) ∧
  ∀ (s : State) (k : Fin 3), s.ready → s.tagsNone → s.bufv = true → s.bufferSize ≤ Config.hw.imgCap →
    s.method = BitVec.ofNat 32 k.val →
    ∃ t, exec .dither s = .next t ∧
      imageOf t = refDiffusion Config.hw (Config.hw.stencil k) s.width.toNat s.height.toNat (imageOf s) ∧
      t.tagsNone ∧
      t.visible = ({ (s.completed .dither).scanned with image := t.image } : State).visible

/-- R187: after `DITHER`, whatever the method, every pixel of the image is an entry of `PALETTE_ROM`. -/
def Obligations.DitheredPixelsArePaletteColours : Prop :=
  ∀ s : State, s.ready → s.tagsNone → s.bufv = true → s.bufferSize ≤ Config.hw.imgCap →
    ∃ t, exec .dither s = .next t ∧
      ∀ x y, x < s.width.toNat → y < s.height.toNat →
        ∃ q : Byte, ImageFn.pixel (imageOf t) s.width.toNat x y = Config.hw.paletteRom q

/-! ### The functions of the units -/

/-- R99, R150: the places of the three channels in the RGB332 byte, and the sum form. -/
def Obligations.Rgb332Fields : Prop :=
  ∀ px : Pixel,
    (trunc332 px).extractLsb' 5 3 = px.r.extractLsb' 5 3 ∧
    (trunc332 px).extractLsb' 2 3 = px.g.extractLsb' 5 3 ∧
    (trunc332 px).extractLsb' 0 2 = px.b.extractLsb' 6 2 ∧
    trunc332 px = (px.r &&& 0xE0#8) + ((px.g &&& 0xE0#8) >>> 3) + (px.b >>> 6)

/-- R151: `reduce4`, its thresholds, and that 15 is never produced. -/
def Obligations.Reduce4Thresholds : Prop :=
  ∀ v : Byte,
    (reduce4 v).toNat = v.toNat * 15 / 256 ∧ (reduce4 v).toNat ≤ 14 ∧
    ∀ k < 15, ((reduce4 v).toNat = k ↔
      [0, 18, 35, 52, 69, 86, 103, 120, 137, 154, 171, 188, 205, 222, 239, 256].getD k 0 ≤ v.toNat ∧
      v.toNat < [0, 18, 35, 52, 69, 86, 103, 120, 137, 154, 171, 188, 205, 222, 239, 256].getD (k + 1) 0)

/-- R152, R100: the grid index, its nibbles, and that no nibble is 15. -/
def Obligations.GridIndexNibbles : Prop :=
  ∀ px : Pixel,
    (gridIndex px).toNat = (reduce4 px.r).toNat * 256 + (reduce4 px.g).toNat * 16 + (reduce4 px.b).toNat ∧
    (gridIndex px).extractLsb' 8 4 ≠ 15#4 ∧ (gridIndex px).extractLsb' 4 4 ≠ 15#4 ∧
    (gridIndex px).extractLsb' 0 4 ≠ 15#4

/-- R158: the step bounds that hold for every decode whose result truncates to its argument. -/
def Obligations.DecodeStepBounds : Prop :=
  ∀ d : Byte → Pixel, (∀ b, trunc332 (d b) = b) → ∀ px : Pixel,
    ((d (trunc332 px)).r.toNat : Int) - px.r.toNat ≤ 31 ∧ (px.r.toNat : Int) - (d (trunc332 px)).r.toNat ≤ 31 ∧
    ((d (trunc332 px)).g.toNat : Int) - px.g.toNat ≤ 31 ∧ (px.g.toNat : Int) - (d (trunc332 px)).g.toNat ≤ 31 ∧
    ((d (trunc332 px)).b.toNat : Int) - px.b.toNat ≤ 63 ∧ (px.b.toNat : Int) - (d (trunc332 px)).b.toNat ≤ 63

/-- R174, R185: `DIFFUSE` is the exact rational sum, clamped to 0..255, its fraction dropped. -/
def Obligations.DiffuseIsTheExactSum : Prop :=
  ∀ (c : Byte) (e : Int) (num den : Nat), 0 < den →
    ((Config.hw.diffuse c e num den).toNat : Int) =
      ⌊max 0 (min 255 ((c.toNat : ℚ) + (e : ℚ) * ((num : ℚ) / (den : ℚ))))⌋

/-- R202, R203: `BAYER_OFFSET` rounds toward minus infinity and lies in -16..15, and the adjusted channel is the exact
sum `c + (t - 128) / 8`, clamped, its fraction dropped. -/
def Obligations.BayerOffsetIsTheFloor : Prop :=
  ∀ t c : Byte,
    Config.hw.bayerOffset t = ⌊((t.toNat : ℚ) - 128) / 8⌋ ∧ -16 ≤ Config.hw.bayerOffset t ∧
    Config.hw.bayerOffset t ≤ 15 ∧
    ((bayerChannel c (Config.hw.bayerOffset t)).toNat : Int) =
      ⌊max 0 (min 255 ((c.toNat : ℚ) + ((t.toNat : ℚ) - 128) / 8))⌋

/-- R176 to R178, R184: the entries `(dx, dy, num, den)` of the three stencils in their order, and the sums of their
weights, 1, 1 and 3/4. Offsets, Jarvis' numerators and Atkinson's equal split are the spec's own decision D19
(log 20). -/
def Obligations.StencilWeightSums : Prop :=
  Config.hw.stencil 0 = [⟨1, 0, 7, 16⟩, ⟨-1, 1, 3, 16⟩, ⟨0, 1, 5, 16⟩, ⟨1, 1, 1, 16⟩] ∧
  Config.hw.stencil 1 = [⟨1, 0, 7, 48⟩, ⟨2, 0, 5, 48⟩, ⟨-2, 1, 3, 48⟩, ⟨-1, 1, 5, 48⟩, ⟨0, 1, 7, 48⟩, ⟨1, 1, 5, 48⟩,
    ⟨2, 1, 3, 48⟩, ⟨-2, 2, 1, 48⟩, ⟨-1, 2, 3, 48⟩, ⟨0, 2, 5, 48⟩, ⟨1, 2, 3, 48⟩, ⟨2, 2, 1, 48⟩] ∧
  Config.hw.stencil 2 = [⟨1, 0, 1, 8⟩, ⟨2, 0, 1, 8⟩, ⟨-1, 1, 1, 8⟩, ⟨0, 1, 1, 8⟩, ⟨1, 1, 1, 8⟩, ⟨0, 2, 1, 8⟩] ∧
  ((Config.hw.stencil 0).map (fun e => (e.num : ℚ) / e.den)).sum = 1 ∧
  ((Config.hw.stencil 1).map (fun e => (e.num : ℚ) / e.den)).sum = 1 ∧
  ((Config.hw.stencil 2).map (fun e => (e.num : ℚ) / e.den)).sum = 3 / 4 ∧
  (Config.hw.stencil 0).length = 4 ∧ (Config.hw.stencil 1).length = 12 ∧ (Config.hw.stencil 2).length = 6

/-- R183: no error-diffusion write targets a decided pixel: the step at `(X, Y)` leaves every pixel that comes before
`(X, Y)` in raster order, seen through the row buffer, as it was. -/
def Obligations.ForwardRasterInvariant : Prop :=
  ∀ (s t : State) (x y : Nat), s.Inv → s.busy = true → s.diffusing → scanDone s = false →
    coreStep Config.hw s = .next t → x < s.wNat → y < s.hNat →
    (y < s.posY.toNat ∨ y = s.posY.toNat ∧ x < s.posX.toNat) →
    bufPixel Config.hw t x y = bufPixel Config.hw s x y

/-! ### The numerics record -/

/-- R123: both the hardware's `NUM` and the reference instance `NUM_REAL` have the properties P2 and P4; P1 and P3
hold by their types. -/
def Obligations.NumProperties : Prop :=
  ∀ n ∈ [(Config.hw.gammaEntry, Config.hw.cbEntry), (numRealGamma Config.hw.roundTies, numRealCb Config.hw.roundTies)],
    (∀ i, n.1 0x3F800000#32 i = i) ∧
    (∀ i, n.2 0x3F800000#32 0x00000000#32 0x3F800000#32 i = i) ∧
    (∀ g, gammaBad g = false → n.1 g 0#8 = 0#8 ∧ n.1 g 255#8 = 255#8)

/-- R120's example, R123 P2: `BUILD_LUT` with the reset parameters builds identity tables. -/
def Obligations.IdentityToneCurve : Prop :=
  ∀ s : State, s.ready → s.gamma = 0x3F800000#32 → s.contrast = 0x00000000#32 → s.lightness = 0x3F800000#32 →
    ∃ t, exec .buildLut s = .next t ∧ (∀ i, tableAt t.lutG i = i ∧ tableAt t.lutC i = i) ∧
      t.lutv = true ∧ t.err = 0#3 ∧ t.image = s.image

/-- R124, R125: `NUM_REAL` as the model computes it on integers is the formula of R124 on real numbers. -/
def Obligations.NumRealIsTheRealFormula : Prop :=
  ∀ (g c l : Word) (i : Byte), paramCheck g c l = 0#32 →
    ∀ vg factor : ℝ,
      vg = (if i = 0#8 then 0 else ((i.toNat : ℝ) / 255) ^ (1 / ((f32Val g : ℚ) : ℝ))) →
      factor = 259 * (((f32Val c : ℚ) : ℝ) + 255) / (255 * (259 - ((f32Val c : ℚ) : ℝ))) →
      ((numRealGamma Config.hw.roundTies g i).toNat : ℤ) = ⌊vg * 255 + 1 / 2⌋ ∧
      ((numRealCb Config.hw.roundTies g c l i).toNat : ℤ) =
        ⌊max 0 (min 1 (factor * (vg * ((f32Val l : ℚ) : ℝ) - 1 / 2) + 1 / 2)) * 255 + 1 / 2⌋

/-! ### The life cycle and whole-machine rules -/

/-- R215: a command always ends: issued by a host that waits, every command is over after its step, with `BUSY = 0`
and `DONE = 1`, and `irq` is up exactly when `IE` is set (R236). -/
def Obligations.EveryCommandEnds : Prop :=
  ∀ (i : Instr) (s : State), s.ready →
    ∃ t, exec i s = .next t ∧ t.busy = false ∧ t.done = true ∧ irq t = t.ie

/-- R215, R46: a host that does not wait sees the command accepted: `BUSY = 1`, the word in `OP`, the geometry sampled,
nothing else that can be seen changed; or its entry check failed and the command is over. -/
def Obligations.AcceptanceBeforeExecution : Prop :=
  ∀ (i : Instr) (s : State), s.busy = false → s.hostWaits = false →
    ∃ t, exec i s = .next t ∧
      ((t.busy = true ∧ t.op = encode i ∧ t.wl = s.width ∧ t.hl = s.height ∧
          t.visible = ({ s with
            busy := true, done := false, err := 0#3, errInfo := 0#32, posY := 0#16, posX := 0#16 } : State).visible) ∨
        (t.busy = false ∧ t.done = true ∧ t.err ≠ 0#3))

/-- R222: the core steps of a busy block. While the host's next act is not due, a step is one core step; with a host
that waits it is the rest of the command at once (log 1), which ends with `BUSY = 0` and `DONE = 1`. R186: one core
step and then the rest is the rest at once. -/
def Obligations.CoreStepThenRest : Prop :=
  (∀ (s : State) (k : Nat) (act : HostAct) (rest : List Pending), s.busy = true →
    s.host = ⟨some (k + 1), act⟩ :: rest →
    step s = coreStep Config.hw { s with host := ⟨some k, act⟩ :: rest }) ∧
  (∀ s : State, s.busy = true → s.hostWaits = true → step s = restOfCommand Config.hw s) ∧
  (∀ s : State, s.Inv → s.busy = true →
    ∃ t, restOfCommand Config.hw s = .next t ∧ t.busy = false ∧ t.done = true) ∧
  (∀ s t : State, s.Inv → s.busy = true → coreStep Config.hw s = .next t →
    restOfCommand Config.hw s = if t.busy then restOfCommand Config.hw t else .next t)

/-- R186, R215: a command issued by a host that does not wait agrees with the command taken as one atomic step. At its
acceptance, the rest at once gives the atomic command's state. And after `n` steps of the machine, as long as the block
was busy before each and the host's act was not due, the machine is where the atomic command ends if the command is
over, and else the rest at once leads there. -/
def Obligations.StepwiseAgreesWithAtomic : Prop :=
  (∀ (i : Instr) (s t : State), s.busy = false → s.hostWaits = false → exec i s = .next t → t.busy = true →
    restOfCommand Config.hw { t with host := [] } = exec i { s with host := [] }) ∧
  (∀ (i : Instr) (s t : State) (n k : Nat) (act : HostAct) (rest : List Pending), s.Inv → s.busy = false →
    s.host = ⟨some (n + k), act⟩ :: rest → exec i s = .next t →
    (∀ j < n, ∃ v, stepsOf j t = .next v ∧ v.busy = true) →
    ∃ u, stepsOf n t = .next u ∧ u.host = ⟨some k, act⟩ :: rest ∧
      exec i { s with host := [] } =
        if u.busy then restOfCommand Config.hw { u with host := [] } else .next { u with host := [] })

/-- R239: a command that ends in error has changed nothing that can be seen but `STATUS`, `ERRINFO` and, by its
acceptance, `POS` (log 8). -/
def Obligations.ErrorsArePrecise : Prop :=
  ∀ (i : Instr) (s t : State), s.busy = false → exec i s = .next t → t.err ≠ 0#3 →
    t.visible = ({ s with
      err := t.err, errInfo := t.errInfo, estk := true, done := true, busy := false
      posY := 0#16, posX := 0#16 } : State).visible

/-- R230, R237: which command ends with which code. -/
def Obligations.ErrorKindsOfEachCommand : Prop :=
  ∀ (i : Instr) (s t : State), s.busy = false → exec i s = .next t →
    t.err = 0#3 ∨ (i = .buildLut ∧ t.err = 2#3) ∨ ((i = .applyLut ∨ i = .dither) ∧ t.err = 1#3)

/-- R23: `ESTK` is sticky: no step clears it but a write to `STATUS`, `SRESET` and the reset pin. -/
def Obligations.StickyErrorBit : Prop :=
  ∀ s t : State, step s = .next t → s.estk = true → t.estk = false →
    (∃ a v rest, s.busy = false ∧ s.host = ⟨a, .write .window 0x08 .w32 v⟩ :: rest ∧ v.getLsbD 2 = true) ∨
    (∃ a rest, s.host = ⟨a, .resetPin⟩ :: rest) ∨
    (∃ a rest, s.busy = false ∧ s.host = ⟨a, .write .window 0x04 .w32 (encode .sreset)⟩ :: rest) ∨
    (s.busy = true ∧ s.op = encode .sreset)

/-- R39, R126: the tone tables and `LUTV` change only by `BUILD_LUT` with good parameters, issued at an idle block or
running, which sets `LUTV`, and by a reset, the pin's or `SRESET`'s, which clears it and lists no image byte (log 6). A
running `BUILD_LUT` has passed its check in every state that meets the invariant. -/
def Obligations.TablesChangeOnlyByBuildAndReset : Prop :=
  ∀ s t : State, step s = .next t →
    (t.lutG = s.lutG ∧ t.lutC = s.lutC ∧ t.lutv = s.lutv) ∨
    ((∃ a rest, s.busy = false ∧ s.host = ⟨a, .write .window 0x04 .w32 (encode .buildLut)⟩ :: rest ∧
          paramCheck s.gamma s.contrast s.lightness = 0#32) ∨
        (s.busy = true ∧ s.op = encode .buildLut ∧ (s.Inv → paramCheck s.gamma s.contrast s.lightness = 0#32))) ∧
      t.lutv = true ∧ t.lutG = tableOf (Config.hw.gammaEntry s.gamma) ∧
      t.lutC = tableOf (Config.hw.cbEntry s.gamma s.contrast s.lightness) ∧ t.bufv = s.bufv ∧ t.image = s.image ∨
    ((∃ a rest, s.host = ⟨a, .resetPin⟩ :: rest ∧ s.due a) ∨
        (∃ a rest, s.busy = false ∧ s.host = ⟨a, .write .window 0x04 .w32 (encode .sreset)⟩ :: rest) ∨
        (s.busy = true ∧ s.op = encode .sreset)) ∧
      t.lutv = false ∧ t.bufv = false ∧ t.image = [] ∧ t.epoch = s.epoch + 1

/-- R46, R170: nothing of the hidden state survives a command: two states that look the same give commands whose
results look the same. -/
def Obligations.HiddenStateDoesNotMatter : Prop :=
  ∀ (i : Instr) (s s' t : State), s.ready → s.tagsNone → s'.tagsNone → s.visible = s'.visible →
    exec i s = .next t → ∃ t', exec i s' = .next t' ∧ t.visible = t'.visible

/-- The invariant holds at reset. -/
def Obligations.ResetMeetsTheInvariant : Prop := State.reset.Inv

/-- R23, R40, R45, R46, R47, R102, R103: every step keeps the invariant. -/
def Obligations.StepKeepsTheInvariant : Prop :=
  ∀ s t : State, s.Inv → step s = .next t → t.Inv

/-- `93_implementation_defined.md` section 2: nothing in the block is undefined behaviour: from every state that meets
the invariant the step is a next state; no stop of the model is ever reached. -/
def Obligations.NoStepStops : Prop :=
  ∀ s : State, s.Inv → ∃ t, step s = .next t
end

