-- ==== Sys2Proof/Laws/State.lean ====
section
/-! SUPPORT. One lemma per field for every update of State that later proofs go through, and what each update is as
one record. -/

namespace Sys2Proof.Laws
open Sys2Proof.Machine

/-! ### `State.issue` -/

@[simp] theorem issue_busy (s : State) : s.issue.busy = s.busy := rfl
@[simp] theorem issue_done (s : State) : s.issue.done = false := rfl
@[simp] theorem issue_estk (s : State) : s.issue.estk = s.estk := rfl
@[simp] theorem issue_lutv (s : State) : s.issue.lutv = s.lutv := rfl
@[simp] theorem issue_err (s : State) : s.issue.err = 0#3 := rfl
@[simp] theorem issue_ie (s : State) : s.issue.ie = s.ie := rfl
@[simp] theorem issue_bufv (s : State) : s.issue.bufv = s.bufv := rfl
@[simp] theorem issue_gamma (s : State) : s.issue.gamma = s.gamma := rfl
@[simp] theorem issue_contrast (s : State) : s.issue.contrast = s.contrast := rfl
@[simp] theorem issue_lightness (s : State) : s.issue.lightness = s.lightness := rfl
@[simp] theorem issue_method (s : State) : s.issue.method = s.method := rfl
@[simp] theorem issue_width (s : State) : s.issue.width = s.width := rfl
@[simp] theorem issue_height (s : State) : s.issue.height = s.height := rfl
@[simp] theorem issue_pixIn (s : State) : s.issue.pixIn = s.pixIn := rfl
@[simp] theorem issue_pixOut (s : State) : s.issue.pixOut = s.pixOut := rfl
@[simp] theorem issue_idxOut (s : State) : s.issue.idxOut = s.idxOut := rfl
@[simp] theorem issue_errInfo (s : State) : s.issue.errInfo = 0#32 := rfl
@[simp] theorem issue_posY (s : State) : s.issue.posY = s.posY := rfl
@[simp] theorem issue_posX (s : State) : s.issue.posX = s.posX := rfl
@[simp] theorem issue_lutG (s : State) : s.issue.lutG = s.lutG := rfl
@[simp] theorem issue_lutC (s : State) : s.issue.lutC = s.lutC := rfl
@[simp] theorem issue_image (s : State) : s.issue.image = s.image := rfl
@[simp] theorem issue_rowbuf (s : State) : s.issue.rowbuf = s.rowbuf := rfl
@[simp] theorem issue_op (s : State) : s.issue.op = s.op := rfl
@[simp] theorem issue_m (s : State) : s.issue.m = s.m := rfl
@[simp] theorem issue_sSel (s : State) : s.issue.sSel = s.sSel := rfl
@[simp] theorem issue_kIdx (s : State) : s.issue.kIdx = s.kIdx := rfl
@[simp] theorem issue_errE (s : State) : s.issue.errE = s.errE := rfl
@[simp] theorem issue_old (s : State) : s.issue.old = s.old := rfl
@[simp] theorem issue_new (s : State) : s.issue.new = s.new := rfl
@[simp] theorem issue_iIdx (s : State) : s.issue.iIdx = s.iIdx := rfl
@[simp] theorem issue_wl (s : State) : s.issue.wl = s.wl := rfl
@[simp] theorem issue_hl (s : State) : s.issue.hl = s.hl := rfl
@[simp] theorem issue_host (s : State) : s.issue.host = s.host := rfl
@[simp] theorem issue_reads (s : State) : s.issue.reads = s.reads := rfl
@[simp] theorem issue_draws (s : State) : s.issue.draws = s.draws := rfl
@[simp] theorem issue_epoch (s : State) : s.issue.epoch = s.epoch := rfl

/-! ### `State.accept` -/

@[simp] theorem accept_busy (w : Word) (s : State) : (s.accept w).busy = true := rfl
@[simp] theorem accept_done (w : Word) (s : State) : (s.accept w).done = s.done := rfl
@[simp] theorem accept_estk (w : Word) (s : State) : (s.accept w).estk = s.estk := rfl
@[simp] theorem accept_lutv (w : Word) (s : State) : (s.accept w).lutv = s.lutv := rfl
@[simp] theorem accept_err (w : Word) (s : State) : (s.accept w).err = s.err := rfl
@[simp] theorem accept_ie (w : Word) (s : State) : (s.accept w).ie = s.ie := rfl
@[simp] theorem accept_bufv (w : Word) (s : State) : (s.accept w).bufv = s.bufv := rfl
@[simp] theorem accept_gamma (w : Word) (s : State) : (s.accept w).gamma = s.gamma := rfl
@[simp] theorem accept_contrast (w : Word) (s : State) : (s.accept w).contrast = s.contrast := rfl
@[simp] theorem accept_lightness (w : Word) (s : State) : (s.accept w).lightness = s.lightness := rfl
@[simp] theorem accept_method (w : Word) (s : State) : (s.accept w).method = s.method := rfl
@[simp] theorem accept_width (w : Word) (s : State) : (s.accept w).width = s.width := rfl
@[simp] theorem accept_height (w : Word) (s : State) : (s.accept w).height = s.height := rfl
@[simp] theorem accept_pixIn (w : Word) (s : State) : (s.accept w).pixIn = s.pixIn := rfl
@[simp] theorem accept_pixOut (w : Word) (s : State) : (s.accept w).pixOut = s.pixOut := rfl
@[simp] theorem accept_idxOut (w : Word) (s : State) : (s.accept w).idxOut = s.idxOut := rfl
@[simp] theorem accept_errInfo (w : Word) (s : State) : (s.accept w).errInfo = s.errInfo := rfl
@[simp] theorem accept_posY (w : Word) (s : State) : (s.accept w).posY = 0#16 := rfl
@[simp] theorem accept_posX (w : Word) (s : State) : (s.accept w).posX = 0#16 := rfl
@[simp] theorem accept_lutG (w : Word) (s : State) : (s.accept w).lutG = s.lutG := rfl
@[simp] theorem accept_lutC (w : Word) (s : State) : (s.accept w).lutC = s.lutC := rfl
@[simp] theorem accept_image (w : Word) (s : State) : (s.accept w).image = s.image := rfl
@[simp] theorem accept_rowbuf (w : Word) (s : State) : (s.accept w).rowbuf = s.rowbuf := rfl
@[simp] theorem accept_op (w : Word) (s : State) : (s.accept w).op = w := rfl
@[simp] theorem accept_m (w : Word) (s : State) : (s.accept w).m = s.m := rfl
@[simp] theorem accept_sSel (w : Word) (s : State) : (s.accept w).sSel = s.sSel := rfl
@[simp] theorem accept_kIdx (w : Word) (s : State) : (s.accept w).kIdx = s.kIdx := rfl
@[simp] theorem accept_errE (w : Word) (s : State) : (s.accept w).errE = s.errE := rfl
@[simp] theorem accept_old (w : Word) (s : State) : (s.accept w).old = s.old := rfl
@[simp] theorem accept_new (w : Word) (s : State) : (s.accept w).new = s.new := rfl
@[simp] theorem accept_iIdx (w : Word) (s : State) : (s.accept w).iIdx = s.iIdx := rfl
@[simp] theorem accept_wl (w : Word) (s : State) : (s.accept w).wl = s.width := rfl
@[simp] theorem accept_hl (w : Word) (s : State) : (s.accept w).hl = s.height := rfl
@[simp] theorem accept_host (w : Word) (s : State) : (s.accept w).host = s.host := rfl
@[simp] theorem accept_reads (w : Word) (s : State) : (s.accept w).reads = s.reads := rfl
@[simp] theorem accept_draws (w : Word) (s : State) : (s.accept w).draws = s.draws := rfl
@[simp] theorem accept_epoch (w : Word) (s : State) : (s.accept w).epoch = s.epoch := rfl

/-! ### `State.raise` -/

@[simp] theorem raise_busy (kind : ErrorKind) (info : Word) (s : State) : (s.raise kind info).busy = false := rfl
@[simp] theorem raise_done (kind : ErrorKind) (info : Word) (s : State) : (s.raise kind info).done = true := rfl
@[simp] theorem raise_estk (kind : ErrorKind) (info : Word) (s : State) : (s.raise kind info).estk = true := rfl
@[simp] theorem raise_lutv (kind : ErrorKind) (info : Word) (s : State) : (s.raise kind info).lutv = s.lutv := rfl
@[simp] theorem raise_err (kind : ErrorKind) (info : Word) (s : State) : (s.raise kind info).err = kind.code := rfl
@[simp] theorem raise_ie (kind : ErrorKind) (info : Word) (s : State) : (s.raise kind info).ie = s.ie := rfl
@[simp] theorem raise_bufv (kind : ErrorKind) (info : Word) (s : State) : (s.raise kind info).bufv = s.bufv := rfl
@[simp] theorem raise_gamma (kind : ErrorKind) (info : Word) (s : State) : (s.raise kind info).gamma = s.gamma := rfl
@[simp] theorem raise_contrast (kind : ErrorKind) (info : Word) (s : State) : (s.raise kind info).contrast = s.contrast := rfl
@[simp] theorem raise_lightness (kind : ErrorKind) (info : Word) (s : State) : (s.raise kind info).lightness = s.lightness := rfl
@[simp] theorem raise_method (kind : ErrorKind) (info : Word) (s : State) : (s.raise kind info).method = s.method := rfl
@[simp] theorem raise_width (kind : ErrorKind) (info : Word) (s : State) : (s.raise kind info).width = s.width := rfl
@[simp] theorem raise_height (kind : ErrorKind) (info : Word) (s : State) : (s.raise kind info).height = s.height := rfl
@[simp] theorem raise_pixIn (kind : ErrorKind) (info : Word) (s : State) : (s.raise kind info).pixIn = s.pixIn := rfl
@[simp] theorem raise_pixOut (kind : ErrorKind) (info : Word) (s : State) : (s.raise kind info).pixOut = s.pixOut := rfl
@[simp] theorem raise_idxOut (kind : ErrorKind) (info : Word) (s : State) : (s.raise kind info).idxOut = s.idxOut := rfl
@[simp] theorem raise_errInfo (kind : ErrorKind) (info : Word) (s : State) : (s.raise kind info).errInfo = info := rfl
@[simp] theorem raise_posY (kind : ErrorKind) (info : Word) (s : State) : (s.raise kind info).posY = s.posY := rfl
@[simp] theorem raise_posX (kind : ErrorKind) (info : Word) (s : State) : (s.raise kind info).posX = s.posX := rfl
@[simp] theorem raise_lutG (kind : ErrorKind) (info : Word) (s : State) : (s.raise kind info).lutG = s.lutG := rfl
@[simp] theorem raise_lutC (kind : ErrorKind) (info : Word) (s : State) : (s.raise kind info).lutC = s.lutC := rfl
@[simp] theorem raise_image (kind : ErrorKind) (info : Word) (s : State) : (s.raise kind info).image = s.image := rfl
@[simp] theorem raise_rowbuf (kind : ErrorKind) (info : Word) (s : State) : (s.raise kind info).rowbuf = s.rowbuf := rfl
@[simp] theorem raise_op (kind : ErrorKind) (info : Word) (s : State) : (s.raise kind info).op = s.op := rfl
@[simp] theorem raise_m (kind : ErrorKind) (info : Word) (s : State) : (s.raise kind info).m = s.m := rfl
@[simp] theorem raise_sSel (kind : ErrorKind) (info : Word) (s : State) : (s.raise kind info).sSel = s.sSel := rfl
@[simp] theorem raise_kIdx (kind : ErrorKind) (info : Word) (s : State) : (s.raise kind info).kIdx = s.kIdx := rfl
@[simp] theorem raise_errE (kind : ErrorKind) (info : Word) (s : State) : (s.raise kind info).errE = s.errE := rfl
@[simp] theorem raise_old (kind : ErrorKind) (info : Word) (s : State) : (s.raise kind info).old = s.old := rfl
@[simp] theorem raise_new (kind : ErrorKind) (info : Word) (s : State) : (s.raise kind info).new = s.new := rfl
@[simp] theorem raise_iIdx (kind : ErrorKind) (info : Word) (s : State) : (s.raise kind info).iIdx = s.iIdx := rfl
@[simp] theorem raise_wl (kind : ErrorKind) (info : Word) (s : State) : (s.raise kind info).wl = s.wl := rfl
@[simp] theorem raise_hl (kind : ErrorKind) (info : Word) (s : State) : (s.raise kind info).hl = s.hl := rfl
@[simp] theorem raise_host (kind : ErrorKind) (info : Word) (s : State) : (s.raise kind info).host = s.host := rfl
@[simp] theorem raise_reads (kind : ErrorKind) (info : Word) (s : State) : (s.raise kind info).reads = s.reads := rfl
@[simp] theorem raise_draws (kind : ErrorKind) (info : Word) (s : State) : (s.raise kind info).draws = s.draws := rfl
@[simp] theorem raise_epoch (kind : ErrorKind) (info : Word) (s : State) : (s.raise kind info).epoch = s.epoch := rfl

/-! ### `State.finish` -/

@[simp] theorem finish_busy (s : State) : s.finish.busy = false := rfl
@[simp] theorem finish_done (s : State) : s.finish.done = true := rfl
@[simp] theorem finish_estk (s : State) : s.finish.estk = s.estk := rfl
@[simp] theorem finish_lutv (s : State) : s.finish.lutv = s.lutv := rfl
@[simp] theorem finish_err (s : State) : s.finish.err = s.err := rfl
@[simp] theorem finish_ie (s : State) : s.finish.ie = s.ie := rfl
@[simp] theorem finish_bufv (s : State) : s.finish.bufv = s.bufv := rfl
@[simp] theorem finish_gamma (s : State) : s.finish.gamma = s.gamma := rfl
@[simp] theorem finish_contrast (s : State) : s.finish.contrast = s.contrast := rfl
@[simp] theorem finish_lightness (s : State) : s.finish.lightness = s.lightness := rfl
@[simp] theorem finish_method (s : State) : s.finish.method = s.method := rfl
@[simp] theorem finish_width (s : State) : s.finish.width = s.width := rfl
@[simp] theorem finish_height (s : State) : s.finish.height = s.height := rfl
@[simp] theorem finish_pixIn (s : State) : s.finish.pixIn = s.pixIn := rfl
@[simp] theorem finish_pixOut (s : State) : s.finish.pixOut = s.pixOut := rfl
@[simp] theorem finish_idxOut (s : State) : s.finish.idxOut = s.idxOut := rfl
@[simp] theorem finish_errInfo (s : State) : s.finish.errInfo = s.errInfo := rfl
@[simp] theorem finish_posY (s : State) : s.finish.posY = s.posY := rfl
@[simp] theorem finish_posX (s : State) : s.finish.posX = s.posX := rfl
@[simp] theorem finish_lutG (s : State) : s.finish.lutG = s.lutG := rfl
@[simp] theorem finish_lutC (s : State) : s.finish.lutC = s.lutC := rfl
@[simp] theorem finish_image (s : State) : s.finish.image = s.image := rfl
@[simp] theorem finish_rowbuf (s : State) : s.finish.rowbuf = s.rowbuf := rfl
@[simp] theorem finish_op (s : State) : s.finish.op = s.op := rfl
@[simp] theorem finish_m (s : State) : s.finish.m = s.m := rfl
@[simp] theorem finish_sSel (s : State) : s.finish.sSel = s.sSel := rfl
@[simp] theorem finish_kIdx (s : State) : s.finish.kIdx = s.kIdx := rfl
@[simp] theorem finish_errE (s : State) : s.finish.errE = s.errE := rfl
@[simp] theorem finish_old (s : State) : s.finish.old = s.old := rfl
@[simp] theorem finish_new (s : State) : s.finish.new = s.new := rfl
@[simp] theorem finish_iIdx (s : State) : s.finish.iIdx = s.iIdx := rfl
@[simp] theorem finish_wl (s : State) : s.finish.wl = s.wl := rfl
@[simp] theorem finish_hl (s : State) : s.finish.hl = s.hl := rfl
@[simp] theorem finish_host (s : State) : s.finish.host = s.host := rfl
@[simp] theorem finish_reads (s : State) : s.finish.reads = s.reads := rfl
@[simp] theorem finish_draws (s : State) : s.finish.draws = s.draws := rfl
@[simp] theorem finish_epoch (s : State) : s.finish.epoch = s.epoch := rfl

/-! ### `setImgByte` -/

@[simp] theorem setImgByte_busy (s : State) (a : Nat) (b : Byte) : (setImgByte s a b).busy = s.busy := rfl
@[simp] theorem setImgByte_done (s : State) (a : Nat) (b : Byte) : (setImgByte s a b).done = s.done := rfl
@[simp] theorem setImgByte_estk (s : State) (a : Nat) (b : Byte) : (setImgByte s a b).estk = s.estk := rfl
@[simp] theorem setImgByte_lutv (s : State) (a : Nat) (b : Byte) : (setImgByte s a b).lutv = s.lutv := rfl
@[simp] theorem setImgByte_err (s : State) (a : Nat) (b : Byte) : (setImgByte s a b).err = s.err := rfl
@[simp] theorem setImgByte_ie (s : State) (a : Nat) (b : Byte) : (setImgByte s a b).ie = s.ie := rfl
@[simp] theorem setImgByte_bufv (s : State) (a : Nat) (b : Byte) : (setImgByte s a b).bufv = s.bufv := rfl
@[simp] theorem setImgByte_gamma (s : State) (a : Nat) (b : Byte) : (setImgByte s a b).gamma = s.gamma := rfl
@[simp] theorem setImgByte_contrast (s : State) (a : Nat) (b : Byte) : (setImgByte s a b).contrast = s.contrast := rfl
@[simp] theorem setImgByte_lightness (s : State) (a : Nat) (b : Byte) : (setImgByte s a b).lightness = s.lightness := rfl
@[simp] theorem setImgByte_method (s : State) (a : Nat) (b : Byte) : (setImgByte s a b).method = s.method := rfl
@[simp] theorem setImgByte_width (s : State) (a : Nat) (b : Byte) : (setImgByte s a b).width = s.width := rfl
@[simp] theorem setImgByte_height (s : State) (a : Nat) (b : Byte) : (setImgByte s a b).height = s.height := rfl
@[simp] theorem setImgByte_pixIn (s : State) (a : Nat) (b : Byte) : (setImgByte s a b).pixIn = s.pixIn := rfl
@[simp] theorem setImgByte_pixOut (s : State) (a : Nat) (b : Byte) : (setImgByte s a b).pixOut = s.pixOut := rfl
@[simp] theorem setImgByte_idxOut (s : State) (a : Nat) (b : Byte) : (setImgByte s a b).idxOut = s.idxOut := rfl
@[simp] theorem setImgByte_errInfo (s : State) (a : Nat) (b : Byte) : (setImgByte s a b).errInfo = s.errInfo := rfl
@[simp] theorem setImgByte_posY (s : State) (a : Nat) (b : Byte) : (setImgByte s a b).posY = s.posY := rfl
@[simp] theorem setImgByte_posX (s : State) (a : Nat) (b : Byte) : (setImgByte s a b).posX = s.posX := rfl
@[simp] theorem setImgByte_lutG (s : State) (a : Nat) (b : Byte) : (setImgByte s a b).lutG = s.lutG := rfl
@[simp] theorem setImgByte_lutC (s : State) (a : Nat) (b : Byte) : (setImgByte s a b).lutC = s.lutC := rfl
@[simp] theorem setImgByte_image (s : State) (a : Nat) (b : Byte) : (setImgByte s a b).image = Memory.set s.image a b := rfl
@[simp] theorem setImgByte_rowbuf (s : State) (a : Nat) (b : Byte) : (setImgByte s a b).rowbuf = s.rowbuf := rfl
@[simp] theorem setImgByte_op (s : State) (a : Nat) (b : Byte) : (setImgByte s a b).op = s.op := rfl
@[simp] theorem setImgByte_m (s : State) (a : Nat) (b : Byte) : (setImgByte s a b).m = s.m := rfl
@[simp] theorem setImgByte_sSel (s : State) (a : Nat) (b : Byte) : (setImgByte s a b).sSel = s.sSel := rfl
@[simp] theorem setImgByte_kIdx (s : State) (a : Nat) (b : Byte) : (setImgByte s a b).kIdx = s.kIdx := rfl
@[simp] theorem setImgByte_errE (s : State) (a : Nat) (b : Byte) : (setImgByte s a b).errE = s.errE := rfl
@[simp] theorem setImgByte_old (s : State) (a : Nat) (b : Byte) : (setImgByte s a b).old = s.old := rfl
@[simp] theorem setImgByte_new (s : State) (a : Nat) (b : Byte) : (setImgByte s a b).new = s.new := rfl
@[simp] theorem setImgByte_iIdx (s : State) (a : Nat) (b : Byte) : (setImgByte s a b).iIdx = s.iIdx := rfl
@[simp] theorem setImgByte_wl (s : State) (a : Nat) (b : Byte) : (setImgByte s a b).wl = s.wl := rfl
@[simp] theorem setImgByte_hl (s : State) (a : Nat) (b : Byte) : (setImgByte s a b).hl = s.hl := rfl
@[simp] theorem setImgByte_host (s : State) (a : Nat) (b : Byte) : (setImgByte s a b).host = s.host := rfl
@[simp] theorem setImgByte_reads (s : State) (a : Nat) (b : Byte) : (setImgByte s a b).reads = s.reads := rfl
@[simp] theorem setImgByte_draws (s : State) (a : Nat) (b : Byte) : (setImgByte s a b).draws = s.draws := rfl
@[simp] theorem setImgByte_epoch (s : State) (a : Nat) (b : Byte) : (setImgByte s a b).epoch = s.epoch := rfl

/-! ### `State.setSlot` -/

@[simp] theorem setSlot_busy (s : State) (j : Fin 3) (v : RowSlot) : (s.setSlot j v).busy = s.busy := rfl
@[simp] theorem setSlot_done (s : State) (j : Fin 3) (v : RowSlot) : (s.setSlot j v).done = s.done := rfl
@[simp] theorem setSlot_estk (s : State) (j : Fin 3) (v : RowSlot) : (s.setSlot j v).estk = s.estk := rfl
@[simp] theorem setSlot_lutv (s : State) (j : Fin 3) (v : RowSlot) : (s.setSlot j v).lutv = s.lutv := rfl
@[simp] theorem setSlot_err (s : State) (j : Fin 3) (v : RowSlot) : (s.setSlot j v).err = s.err := rfl
@[simp] theorem setSlot_ie (s : State) (j : Fin 3) (v : RowSlot) : (s.setSlot j v).ie = s.ie := rfl
@[simp] theorem setSlot_bufv (s : State) (j : Fin 3) (v : RowSlot) : (s.setSlot j v).bufv = s.bufv := rfl
@[simp] theorem setSlot_gamma (s : State) (j : Fin 3) (v : RowSlot) : (s.setSlot j v).gamma = s.gamma := rfl
@[simp] theorem setSlot_contrast (s : State) (j : Fin 3) (v : RowSlot) : (s.setSlot j v).contrast = s.contrast := rfl
@[simp] theorem setSlot_lightness (s : State) (j : Fin 3) (v : RowSlot) : (s.setSlot j v).lightness = s.lightness := rfl
@[simp] theorem setSlot_method (s : State) (j : Fin 3) (v : RowSlot) : (s.setSlot j v).method = s.method := rfl
@[simp] theorem setSlot_width (s : State) (j : Fin 3) (v : RowSlot) : (s.setSlot j v).width = s.width := rfl
@[simp] theorem setSlot_height (s : State) (j : Fin 3) (v : RowSlot) : (s.setSlot j v).height = s.height := rfl
@[simp] theorem setSlot_pixIn (s : State) (j : Fin 3) (v : RowSlot) : (s.setSlot j v).pixIn = s.pixIn := rfl
@[simp] theorem setSlot_pixOut (s : State) (j : Fin 3) (v : RowSlot) : (s.setSlot j v).pixOut = s.pixOut := rfl
@[simp] theorem setSlot_idxOut (s : State) (j : Fin 3) (v : RowSlot) : (s.setSlot j v).idxOut = s.idxOut := rfl
@[simp] theorem setSlot_errInfo (s : State) (j : Fin 3) (v : RowSlot) : (s.setSlot j v).errInfo = s.errInfo := rfl
@[simp] theorem setSlot_posY (s : State) (j : Fin 3) (v : RowSlot) : (s.setSlot j v).posY = s.posY := rfl
@[simp] theorem setSlot_posX (s : State) (j : Fin 3) (v : RowSlot) : (s.setSlot j v).posX = s.posX := rfl
@[simp] theorem setSlot_lutG (s : State) (j : Fin 3) (v : RowSlot) : (s.setSlot j v).lutG = s.lutG := rfl
@[simp] theorem setSlot_lutC (s : State) (j : Fin 3) (v : RowSlot) : (s.setSlot j v).lutC = s.lutC := rfl
@[simp] theorem setSlot_image (s : State) (j : Fin 3) (v : RowSlot) : (s.setSlot j v).image = s.image := rfl
@[simp] theorem setSlot_rowbuf (s : State) (j : Fin 3) (v : RowSlot) : (s.setSlot j v).rowbuf = s.rowbuf.set j.val v j.isLt := rfl
@[simp] theorem setSlot_op (s : State) (j : Fin 3) (v : RowSlot) : (s.setSlot j v).op = s.op := rfl
@[simp] theorem setSlot_m (s : State) (j : Fin 3) (v : RowSlot) : (s.setSlot j v).m = s.m := rfl
@[simp] theorem setSlot_sSel (s : State) (j : Fin 3) (v : RowSlot) : (s.setSlot j v).sSel = s.sSel := rfl
@[simp] theorem setSlot_kIdx (s : State) (j : Fin 3) (v : RowSlot) : (s.setSlot j v).kIdx = s.kIdx := rfl
@[simp] theorem setSlot_errE (s : State) (j : Fin 3) (v : RowSlot) : (s.setSlot j v).errE = s.errE := rfl
@[simp] theorem setSlot_old (s : State) (j : Fin 3) (v : RowSlot) : (s.setSlot j v).old = s.old := rfl
@[simp] theorem setSlot_new (s : State) (j : Fin 3) (v : RowSlot) : (s.setSlot j v).new = s.new := rfl
@[simp] theorem setSlot_iIdx (s : State) (j : Fin 3) (v : RowSlot) : (s.setSlot j v).iIdx = s.iIdx := rfl
@[simp] theorem setSlot_wl (s : State) (j : Fin 3) (v : RowSlot) : (s.setSlot j v).wl = s.wl := rfl
@[simp] theorem setSlot_hl (s : State) (j : Fin 3) (v : RowSlot) : (s.setSlot j v).hl = s.hl := rfl
@[simp] theorem setSlot_host (s : State) (j : Fin 3) (v : RowSlot) : (s.setSlot j v).host = s.host := rfl
@[simp] theorem setSlot_reads (s : State) (j : Fin 3) (v : RowSlot) : (s.setSlot j v).reads = s.reads := rfl
@[simp] theorem setSlot_draws (s : State) (j : Fin 3) (v : RowSlot) : (s.setSlot j v).draws = s.draws := rfl
@[simp] theorem setSlot_epoch (s : State) (j : Fin 3) (v : RowSlot) : (s.setSlot j v).epoch = s.epoch := rfl

/-! ### `latchMethod` -/

@[simp] theorem latchMethod_busy (s : State) : (latchMethod s).busy = s.busy := rfl
@[simp] theorem latchMethod_done (s : State) : (latchMethod s).done = s.done := rfl
@[simp] theorem latchMethod_estk (s : State) : (latchMethod s).estk = s.estk := rfl
@[simp] theorem latchMethod_lutv (s : State) : (latchMethod s).lutv = s.lutv := rfl
@[simp] theorem latchMethod_err (s : State) : (latchMethod s).err = s.err := rfl
@[simp] theorem latchMethod_ie (s : State) : (latchMethod s).ie = s.ie := rfl
@[simp] theorem latchMethod_bufv (s : State) : (latchMethod s).bufv = s.bufv := rfl
@[simp] theorem latchMethod_gamma (s : State) : (latchMethod s).gamma = s.gamma := rfl
@[simp] theorem latchMethod_contrast (s : State) : (latchMethod s).contrast = s.contrast := rfl
@[simp] theorem latchMethod_lightness (s : State) : (latchMethod s).lightness = s.lightness := rfl
@[simp] theorem latchMethod_method (s : State) : (latchMethod s).method = s.method := rfl
@[simp] theorem latchMethod_width (s : State) : (latchMethod s).width = s.width := rfl
@[simp] theorem latchMethod_height (s : State) : (latchMethod s).height = s.height := rfl
@[simp] theorem latchMethod_pixIn (s : State) : (latchMethod s).pixIn = s.pixIn := rfl
@[simp] theorem latchMethod_pixOut (s : State) : (latchMethod s).pixOut = s.pixOut := rfl
@[simp] theorem latchMethod_idxOut (s : State) : (latchMethod s).idxOut = s.idxOut := rfl
@[simp] theorem latchMethod_errInfo (s : State) : (latchMethod s).errInfo = s.errInfo := rfl
@[simp] theorem latchMethod_posY (s : State) : (latchMethod s).posY = s.posY := rfl
@[simp] theorem latchMethod_posX (s : State) : (latchMethod s).posX = s.posX := rfl
@[simp] theorem latchMethod_lutG (s : State) : (latchMethod s).lutG = s.lutG := rfl
@[simp] theorem latchMethod_lutC (s : State) : (latchMethod s).lutC = s.lutC := rfl
@[simp] theorem latchMethod_image (s : State) : (latchMethod s).image = s.image := rfl
@[simp] theorem latchMethod_rowbuf (s : State) : (latchMethod s).rowbuf = s.rowbuf := rfl
@[simp] theorem latchMethod_op (s : State) : (latchMethod s).op = s.op := rfl
@[simp] theorem latchMethod_m (s : State) : (latchMethod s).m = s.method := rfl
@[simp] theorem latchMethod_kIdx (s : State) : (latchMethod s).kIdx = s.kIdx := rfl
@[simp] theorem latchMethod_errE (s : State) : (latchMethod s).errE = s.errE := rfl
@[simp] theorem latchMethod_old (s : State) : (latchMethod s).old = s.old := rfl
@[simp] theorem latchMethod_new (s : State) : (latchMethod s).new = s.new := rfl
@[simp] theorem latchMethod_iIdx (s : State) : (latchMethod s).iIdx = s.iIdx := rfl
@[simp] theorem latchMethod_wl (s : State) : (latchMethod s).wl = s.wl := rfl
@[simp] theorem latchMethod_hl (s : State) : (latchMethod s).hl = s.hl := rfl
@[simp] theorem latchMethod_host (s : State) : (latchMethod s).host = s.host := rfl
@[simp] theorem latchMethod_reads (s : State) : (latchMethod s).reads = s.reads := rfl
@[simp] theorem latchMethod_draws (s : State) : (latchMethod s).draws = s.draws := rfl
@[simp] theorem latchMethod_epoch (s : State) : (latchMethod s).epoch = s.epoch := rfl

/-! ### `setImgPixel` and `advance` -/

@[simp] theorem setImgPixel_busy (s : State) (x y : Nat) (px : Pixel) : (setImgPixel s x y px).busy = s.busy := rfl
@[simp] theorem setImgPixel_done (s : State) (x y : Nat) (px : Pixel) : (setImgPixel s x y px).done = s.done := rfl
@[simp] theorem setImgPixel_estk (s : State) (x y : Nat) (px : Pixel) : (setImgPixel s x y px).estk = s.estk := rfl
@[simp] theorem setImgPixel_lutv (s : State) (x y : Nat) (px : Pixel) : (setImgPixel s x y px).lutv = s.lutv := rfl
@[simp] theorem setImgPixel_err (s : State) (x y : Nat) (px : Pixel) : (setImgPixel s x y px).err = s.err := rfl
@[simp] theorem setImgPixel_ie (s : State) (x y : Nat) (px : Pixel) : (setImgPixel s x y px).ie = s.ie := rfl
@[simp] theorem setImgPixel_bufv (s : State) (x y : Nat) (px : Pixel) : (setImgPixel s x y px).bufv = s.bufv := rfl
@[simp] theorem setImgPixel_gamma (s : State) (x y : Nat) (px : Pixel) : (setImgPixel s x y px).gamma = s.gamma := rfl
@[simp] theorem setImgPixel_contrast (s : State) (x y : Nat) (px : Pixel) : (setImgPixel s x y px).contrast = s.contrast := rfl
@[simp] theorem setImgPixel_lightness (s : State) (x y : Nat) (px : Pixel) : (setImgPixel s x y px).lightness = s.lightness := rfl
@[simp] theorem setImgPixel_method (s : State) (x y : Nat) (px : Pixel) : (setImgPixel s x y px).method = s.method := rfl
@[simp] theorem setImgPixel_width (s : State) (x y : Nat) (px : Pixel) : (setImgPixel s x y px).width = s.width := rfl
@[simp] theorem setImgPixel_height (s : State) (x y : Nat) (px : Pixel) : (setImgPixel s x y px).height = s.height := rfl
@[simp] theorem setImgPixel_pixIn (s : State) (x y : Nat) (px : Pixel) : (setImgPixel s x y px).pixIn = s.pixIn := rfl
@[simp] theorem setImgPixel_pixOut (s : State) (x y : Nat) (px : Pixel) : (setImgPixel s x y px).pixOut = s.pixOut := rfl
@[simp] theorem setImgPixel_idxOut (s : State) (x y : Nat) (px : Pixel) : (setImgPixel s x y px).idxOut = s.idxOut := rfl
@[simp] theorem setImgPixel_errInfo (s : State) (x y : Nat) (px : Pixel) : (setImgPixel s x y px).errInfo = s.errInfo := rfl
@[simp] theorem setImgPixel_posY (s : State) (x y : Nat) (px : Pixel) : (setImgPixel s x y px).posY = s.posY := rfl
@[simp] theorem setImgPixel_posX (s : State) (x y : Nat) (px : Pixel) : (setImgPixel s x y px).posX = s.posX := rfl
@[simp] theorem setImgPixel_lutG (s : State) (x y : Nat) (px : Pixel) : (setImgPixel s x y px).lutG = s.lutG := rfl
@[simp] theorem setImgPixel_lutC (s : State) (x y : Nat) (px : Pixel) : (setImgPixel s x y px).lutC = s.lutC := rfl
@[simp] theorem setImgPixel_rowbuf (s : State) (x y : Nat) (px : Pixel) : (setImgPixel s x y px).rowbuf = s.rowbuf := rfl
@[simp] theorem setImgPixel_op (s : State) (x y : Nat) (px : Pixel) : (setImgPixel s x y px).op = s.op := rfl
@[simp] theorem setImgPixel_m (s : State) (x y : Nat) (px : Pixel) : (setImgPixel s x y px).m = s.m := rfl
@[simp] theorem setImgPixel_sSel (s : State) (x y : Nat) (px : Pixel) : (setImgPixel s x y px).sSel = s.sSel := rfl
@[simp] theorem setImgPixel_kIdx (s : State) (x y : Nat) (px : Pixel) : (setImgPixel s x y px).kIdx = s.kIdx := rfl
@[simp] theorem setImgPixel_errE (s : State) (x y : Nat) (px : Pixel) : (setImgPixel s x y px).errE = s.errE := rfl
@[simp] theorem setImgPixel_old (s : State) (x y : Nat) (px : Pixel) : (setImgPixel s x y px).old = s.old := rfl
@[simp] theorem setImgPixel_new (s : State) (x y : Nat) (px : Pixel) : (setImgPixel s x y px).new = s.new := rfl
@[simp] theorem setImgPixel_iIdx (s : State) (x y : Nat) (px : Pixel) : (setImgPixel s x y px).iIdx = s.iIdx := rfl
@[simp] theorem setImgPixel_wl (s : State) (x y : Nat) (px : Pixel) : (setImgPixel s x y px).wl = s.wl := rfl
@[simp] theorem setImgPixel_hl (s : State) (x y : Nat) (px : Pixel) : (setImgPixel s x y px).hl = s.hl := rfl
@[simp] theorem setImgPixel_host (s : State) (x y : Nat) (px : Pixel) : (setImgPixel s x y px).host = s.host := rfl
@[simp] theorem setImgPixel_reads (s : State) (x y : Nat) (px : Pixel) : (setImgPixel s x y px).reads = s.reads := rfl
@[simp] theorem setImgPixel_draws (s : State) (x y : Nat) (px : Pixel) : (setImgPixel s x y px).draws = s.draws := rfl
@[simp] theorem setImgPixel_epoch (s : State) (x y : Nat) (px : Pixel) : (setImgPixel s x y px).epoch = s.epoch := rfl

@[simp] theorem advance_busy (s : State) : (advance s).busy = s.busy := by unfold advance; split <;> rfl
@[simp] theorem advance_done (s : State) : (advance s).done = s.done := by unfold advance; split <;> rfl
@[simp] theorem advance_estk (s : State) : (advance s).estk = s.estk := by unfold advance; split <;> rfl
@[simp] theorem advance_lutv (s : State) : (advance s).lutv = s.lutv := by unfold advance; split <;> rfl
@[simp] theorem advance_err (s : State) : (advance s).err = s.err := by unfold advance; split <;> rfl
@[simp] theorem advance_ie (s : State) : (advance s).ie = s.ie := by unfold advance; split <;> rfl
@[simp] theorem advance_bufv (s : State) : (advance s).bufv = s.bufv := by unfold advance; split <;> rfl
@[simp] theorem advance_gamma (s : State) : (advance s).gamma = s.gamma := by unfold advance; split <;> rfl
@[simp] theorem advance_contrast (s : State) : (advance s).contrast = s.contrast := by unfold advance; split <;> rfl
@[simp] theorem advance_lightness (s : State) : (advance s).lightness = s.lightness := by unfold advance; split <;> rfl
@[simp] theorem advance_method (s : State) : (advance s).method = s.method := by unfold advance; split <;> rfl
@[simp] theorem advance_width (s : State) : (advance s).width = s.width := by unfold advance; split <;> rfl
@[simp] theorem advance_height (s : State) : (advance s).height = s.height := by unfold advance; split <;> rfl
@[simp] theorem advance_pixIn (s : State) : (advance s).pixIn = s.pixIn := by unfold advance; split <;> rfl
@[simp] theorem advance_pixOut (s : State) : (advance s).pixOut = s.pixOut := by unfold advance; split <;> rfl
@[simp] theorem advance_idxOut (s : State) : (advance s).idxOut = s.idxOut := by unfold advance; split <;> rfl
@[simp] theorem advance_errInfo (s : State) : (advance s).errInfo = s.errInfo := by unfold advance; split <;> rfl
@[simp] theorem advance_lutG (s : State) : (advance s).lutG = s.lutG := by unfold advance; split <;> rfl
@[simp] theorem advance_lutC (s : State) : (advance s).lutC = s.lutC := by unfold advance; split <;> rfl
@[simp] theorem advance_image (s : State) : (advance s).image = s.image := by unfold advance; split <;> rfl
@[simp] theorem advance_rowbuf (s : State) : (advance s).rowbuf = s.rowbuf := by unfold advance; split <;> rfl
@[simp] theorem advance_op (s : State) : (advance s).op = s.op := by unfold advance; split <;> rfl
@[simp] theorem advance_m (s : State) : (advance s).m = s.m := by unfold advance; split <;> rfl
@[simp] theorem advance_sSel (s : State) : (advance s).sSel = s.sSel := by unfold advance; split <;> rfl
@[simp] theorem advance_kIdx (s : State) : (advance s).kIdx = s.kIdx := by unfold advance; split <;> rfl
@[simp] theorem advance_errE (s : State) : (advance s).errE = s.errE := by unfold advance; split <;> rfl
@[simp] theorem advance_old (s : State) : (advance s).old = s.old := by unfold advance; split <;> rfl
@[simp] theorem advance_new (s : State) : (advance s).new = s.new := by unfold advance; split <;> rfl
@[simp] theorem advance_iIdx (s : State) : (advance s).iIdx = s.iIdx := by unfold advance; split <;> rfl
@[simp] theorem advance_wl (s : State) : (advance s).wl = s.wl := by unfold advance; split <;> rfl
@[simp] theorem advance_hl (s : State) : (advance s).hl = s.hl := by unfold advance; split <;> rfl
@[simp] theorem advance_host (s : State) : (advance s).host = s.host := by unfold advance; split <;> rfl
@[simp] theorem advance_reads (s : State) : (advance s).reads = s.reads := by unfold advance; split <;> rfl
@[simp] theorem advance_draws (s : State) : (advance s).draws = s.draws := by unfold advance; split <;> rfl
@[simp] theorem advance_epoch (s : State) : (advance s).epoch = s.epoch := by unfold advance; split <;> rfl

/-- The advance of the scan position within a row (R40). -/
theorem advance_inRow {s : State} (h : s.posX.toNat + 1 < s.wNat) :
    advance s = { s with posX := s.posX + 1#16 } := by simp [advance, h]

/-- The advance of the scan position at the end of a row (R40). -/
theorem advance_nextRow {s : State} (h : ¬s.posX.toNat + 1 < s.wNat) :
    advance s = { s with posY := s.posY + 1#16, posX := 0#16 } := by simp [advance, h]

end Sys2Proof.Laws
end

