-- ==== Sys2Proof/Laws/Memory.lean ====
section
/-! SUPPORT. The laws of the image memory: read after write, the canonical form, and equality of memories. -/

namespace Sys2Proof.Laws
open Sys2Proof.Machine

/-- A read after a write to the same address gives the value written. -/
@[simp] theorem Memory_get?_set_same (m : Memory) (a : Nat) (b : Byte) :
    Memory.get? (Memory.set m a b) a = some b := by
  induction m with
  | nil => simp [Memory.set, Memory.get?]
  | cons c rest ih =>
    obtain ⟨k, v⟩ := c
    simp only [Memory.set]
    split
    · simp [Memory.get?]
    · split
      · simp [Memory.get?]
      · simp [Memory.get?, *]

/-- A write leaves every other address alone. -/
theorem Memory_get?_set_other (m : Memory) {a k : Nat} (b : Byte) (h : k ≠ a) :
    Memory.get? (Memory.set m a b) k = Memory.get? m k := by
  induction m with
  | nil => simp [Memory.set, Memory.get?, h]
  | cons c rest ih =>
    obtain ⟨k', v⟩ := c
    simp only [Memory.set]
    split
    · simp [Memory.get?, h]
    · split
      · subst_vars; simp [Memory.get?, h]
      · simp only [Memory.get?, ih]

/-- Reading after a write, both cases. -/
theorem Memory_get?_set (m : Memory) (a k : Nat) (b : Byte) :
    Memory.get? (Memory.set m a b) k = if k = a then some b else Memory.get? m k := by
  split
  · subst_vars; simp
  · exact Memory_get?_set_other m b ‹_›

/-- The canonical form says that the addresses rise strictly from left to right. -/
theorem Memory_wf_iff (m : Memory) : Memory.wf m = true ↔ m.Pairwise (fun c d => c.1 < d.1) := by
  induction m with
  | nil => simp [Memory.wf]
  | cons c rest ih =>
    cases rest with
    | nil => simp [Memory.wf]
    | cons d tail =>
      obtain ⟨a, u⟩ := c
      obtain ⟨b, v⟩ := d
      simp only [Memory.wf, Bool.and_eq_true, decide_eq_true_eq, ih]
      rw [List.pairwise_cons (a := (a, u))]
      constructor
      · rintro ⟨hab, hp⟩
        refine ⟨?_, hp⟩
        intro e he
        rcases List.mem_cons.mp he with rfl | he
        · exact hab
        · have := (List.pairwise_cons.mp hp).1 e he
          simp only at this ⊢
          omega
      · rintro ⟨h1, hp⟩
        exact ⟨h1 (b, v) (by simp), hp⟩

/-- The addresses listed after a write are the old ones and the one written. -/
theorem Memory_mem_set {m : Memory} {a : Nat} {b : Byte} {c : Host.Cell} (h : c ∈ Memory.set m a b) :
    c = (a, b) ∨ c ∈ m := by
  induction m with
  | nil => simp [Memory.set] at h; exact .inl h
  | cons d rest ih =>
    obtain ⟨k, v⟩ := d
    simp only [Memory.set] at h
    split at h
    · simpa using h
    · split at h
      · rcases List.mem_cons.mp h with h | h
        · exact .inl h
        · exact .inr (List.mem_cons_of_mem _ h)
      · rcases List.mem_cons.mp h with h | h
        · exact .inr (by simp [h])
        · rcases ih h with h | h
          · exact .inl h
          · exact .inr (List.mem_cons_of_mem _ h)

/-- A write keeps the canonical form. -/
theorem Memory_wf_set {m : Memory} (a : Nat) (b : Byte) (h : Memory.wf m = true) :
    Memory.wf (Memory.set m a b) = true := by
  rw [Memory_wf_iff] at h ⊢
  induction m with
  | nil => simp [Memory.set]
  | cons c rest ih =>
    obtain ⟨k, v⟩ := c
    obtain ⟨h1, h2⟩ := List.pairwise_cons.mp h
    simp only [Memory.set]
    split
    · refine List.pairwise_cons.mpr ⟨?_, h⟩
      intro e he
      rcases List.mem_cons.mp he with rfl | he
      · assumption
      · have := h1 e he
        simp only at this ⊢
        omega
    · split
      · subst_vars
        exact List.pairwise_cons.mpr ⟨h1, h2⟩
      · refine List.pairwise_cons.mpr ⟨?_, ih h2⟩
        intro e he
        rcases Memory_mem_set he with rfl | he
        · simp only; omega
        · exact h1 e he

/-- A write below a bound keeps every address below it. -/
theorem Memory_set_below {m : Memory} {a n : Nat} (b : Byte) (ha : a < n) (h : ∀ c ∈ m, c.1 < n) :
    ∀ c ∈ Memory.set m a b, c.1 < n := by
  intro c hc
  rcases Memory_mem_set hc with rfl | hc
  · exact ha
  · exact h c hc

/-- In a canonical memory a listed cell is what its address reads as. -/
theorem Memory_get?_of_mem {m : Memory} (h : Memory.wf m = true) {c : Host.Cell} (hc : c ∈ m) :
    Memory.get? m c.1 = some c.2 := by
  rw [Memory_wf_iff] at h
  induction m with
  | nil => simp at hc
  | cons d rest ih =>
    obtain ⟨h1, h2⟩ := List.pairwise_cons.mp h
    rcases List.mem_cons.mp hc with rfl | hc
    · simp [Memory.get?]
    · have := h1 c hc
      have hne : ¬c.1 = d.1 := by omega
      simp [Memory.get?, hne, ih h2 hc]

/-- What reads as some value is listed. -/
theorem Memory_mem_of_get? {m : Memory} {a : Nat} {b : Byte} (h : Memory.get? m a = some b) : (a, b) ∈ m := by
  induction m with
  | nil => simp [Memory.get?] at h
  | cons d rest ih =>
    obtain ⟨k, v⟩ := d
    simp only [Memory.get?] at h
    split at h
    · simp_all
    · exact List.mem_cons_of_mem _ (ih h)

/-- Canonical memories with the same contents are the same list. -/
theorem Memory_ext {m n : Memory} (hm : Memory.wf m = true) (hn : Memory.wf n = true)
    (h : ∀ a, Memory.get? m a = Memory.get? n a) : m = n := by
  have key : ∀ {m n : Memory}, Memory.wf m = true → Memory.wf n = true →
      (∀ a, Memory.get? m a = Memory.get? n a) → ∀ c, c ∈ m → c ∈ n := fun hm _ h c hc => by
    have := Memory_get?_of_mem hm hc
    rw [h] at this
    exact Memory_mem_of_get? this
  have hm' := (Memory_wf_iff m).mp hm
  have hn' := (Memory_wf_iff n).mp hn
  have irr : ∀ c d : Host.Cell, c.1 < d.1 → d.1 < c.1 → c = d := by intro c d h1 h2; omega
  exact List.Perm.eq_of_pairwise (fun c d _ _ => irr c d) hm' hn'
    ((List.perm_ext_iff_of_nodup (hm'.imp (fun h e => by simp [e] at h)) (hn'.imp (fun h e => by simp [e] at h))).mpr
      (fun c => ⟨key hm hn h c, key hn hm (fun a => (h a).symm) c⟩))

/-! ### Reading the image of a state -/

/-- Reading an image byte after writing one. -/
theorem imgByte_setImgByte (p : Params) (s : State) (a k : Nat) (b : Byte) :
    imgByte p (setImgByte s a b) k = if k = a then b else imgByte p s k := by
  simp only [imgByte, setImgByte_image, Memory_get?_set, setImgByte_epoch]
  split <;> rfl

/-- Reading an image byte after writing a pixel. -/
theorem imgByte_setImgPixel (p : Params) (s : State) (x y k : Nat) (px : Pixel) :
    imgByte p (setImgPixel s x y px) k =
      ImageFn.put (imgByte p s) s.wNat x y px k := by
  simp only [setImgPixel, imgByte_setImgByte, ImageFn.put]
  split
  · rw [if_neg (by omega), if_neg (by omega)]
  · split
    · rw [if_neg (by omega)]
    · rfl

/-- An image byte depends on the image and the epoch alone. -/
theorem imgByte_congr (p : Params) {s t : State} (h1 : t.image = s.image) (h2 : t.epoch = s.epoch) :
    imgByte p t = imgByte p s := by
  funext a
  simp [imgByte, h1, h2]

/-- Writing a pixel keeps the canonical form. -/
theorem setImgPixel_wf {s : State} (x y : Nat) (px : Pixel) (h : Memory.wf s.image = true) :
    Memory.wf (setImgPixel s x y px).image = true :=
  Memory_wf_set _ _ (Memory_wf_set _ _ (Memory_wf_set _ _ h))

end Sys2Proof.Laws
end

