-- ==== Sys2Proof/Laws/Pixels.lean ====
section
/-! SUPPORT. Pixel addressing (R63) and the raster order (R40): distinct pixels have distinct bytes, and the pixel of
index `k` in raster order is `(k mod W, k / W)`. -/

namespace Sys2Proof.Laws
open Sys2Proof.Machine

/-- The index of a pixel in raster order determines the pixel. -/
theorem pixelIndex_inj {w x y x' y' : Nat} (hx : x < w) (hx' : x' < w) (h : y * w + x = y' * w + x') :
    x = x' ∧ y = y' := by
  have hy : y = y' := by
    have h1 : (y * w + x) / w = y := by
      rw [Nat.mul_comm, Nat.mul_add_div (by omega), Nat.div_eq_of_lt hx, Nat.add_zero]
    have h2 : (y' * w + x') / w = y' := by
      rw [Nat.mul_comm, Nat.mul_add_div (by omega), Nat.div_eq_of_lt hx', Nat.add_zero]
    rw [← h1, ← h2, h]
  subst hy
  exact ⟨by omega, rfl⟩

/-- A pixel of the image has an index below `W * H`. -/
theorem pixelIndex_lt {w h x y : Nat} (hx : x < w) (hy : y < h) : y * w + x < w * h := by
  calc y * w + x < y * w + w := by omega
    _ = (y + 1) * w := by ring
    _ ≤ h * w := Nat.mul_le_mul_right w hy
    _ = w * h := Nat.mul_comm _ _

/-- The pixel of an index. -/
theorem pixelIndex_div_mod {w x y : Nat} (hx : x < w) : (y * w + x) % w = x ∧ (y * w + x) / w = y := by
  constructor
  · rw [Nat.mul_comm, Nat.mul_add_mod, Nat.mod_eq_of_lt hx]
  · rw [Nat.mul_comm, Nat.mul_add_div (by omega), Nat.div_eq_of_lt hx, Nat.add_zero]

/-- The first byte of the pixel of index `k` is byte `3 k`. -/
theorem pixelAddr_index (w k : Nat) : pixelAddr w (k % w) (k / w) = 3 * k := by
  rw [pixelAddr, Nat.mul_comm (k / w) w, Nat.div_add_mod]

/-- The bytes of a pixel of the image lie below `3 * W * H`. -/
theorem pixelAddr_lt {w h x y : Nat} (hx : x < w) (hy : y < h) : pixelAddr w x y + 2 < 3 * w * h := by
  have := pixelIndex_lt hx hy
  have e : 3 * w * h = 3 * (w * h) := by ring
  simp only [pixelAddr]
  omega

/-- Reading a pixel after writing one. -/
theorem ImageFn_pixel_put (f : ImageFn) {w x y x' y' : Nat} (px : Pixel) (hx : x < w) (hx' : x' < w) :
    ImageFn.pixel (ImageFn.put f w x y px) w x' y' =
      if x' = x ∧ y' = y then px else ImageFn.pixel f w x' y' := by
  split
  · rename_i h
    obtain ⟨rfl, rfl⟩ := h
    simp [ImageFn.pixel, ImageFn.put]
  · rename_i h
    have hne : y' * w + x' ≠ y * w + x := fun e => h (pixelIndex_inj hx' hx e)
    have ha : pixelAddr w x' y' = 3 * (y' * w + x') := rfl
    have hb : pixelAddr w x y = 3 * (y * w + x) := rfl
    simp only [ImageFn.pixel, ImageFn.put]
    congr 1 <;>
    · rw [if_neg (by omega), if_neg (by omega), if_neg (by omega)]

/-- Writing a pixel of the image leaves the bytes at and above `3 * W * H`. -/
theorem ImageFn_put_above (f : ImageFn) {w h x y a : Nat} (px : Pixel) (hx : x < w) (hy : y < h)
    (ha : 3 * w * h ≤ a) : ImageFn.put f w x y px a = f a := by
  have := pixelAddr_lt hx hy
  simp only [ImageFn.put]
  rw [if_neg (by omega), if_neg (by omega), if_neg (by omega)]

/-- An image function is determined by its pixels and its bytes above the image. -/
theorem ImageFn_ext {f g : ImageFn} {w h : Nat}
    (hp : ∀ x y, x < w → y < h → ImageFn.pixel f w x y = ImageFn.pixel g w x y)
    (ha : ∀ a, 3 * w * h ≤ a → f a = g a) : f = g := by
  funext a
  by_cases hlt : 3 * w * h ≤ a
  · exact ha a hlt
  · have e : 3 * w * h = 3 * (w * h) := by ring
    have hk : a / 3 < w * h := by omega
    have hw : 0 < w := by
      rcases Nat.eq_zero_or_pos w with rfl | h0
      · simp at hk
      · exact h0
    have hx : a / 3 % w < w := Nat.mod_lt _ hw
    have hy : a / 3 / w < h := Nat.div_lt_of_lt_mul hk
    have := hp _ _ hx hy
    simp only [ImageFn.pixel, pixelAddr_index, Pixel.mk.injEq] at this
    obtain ⟨h0, h1, h2⟩ := this
    have : a = 3 * (a / 3) ∨ a = 3 * (a / 3) + 1 ∨ a = 3 * (a / 3) + 2 := by omega
    rcases this with e | e | e <;> rw [e] <;> assumption

/-- The pixel of a state, as a pixel of its image function. -/
theorem imgPixel_eq (p : Params) (s : State) (x y : Nat) :
    imgPixel p s x y = ImageFn.pixel (imgByte p s) s.wNat x y := rfl

/-! ### The raster order -/

/-- The raster order lists the pixels by their index. -/
theorem rasterOrder_eq (w h : Nat) : rasterOrder w h = (List.range (w * h)).map (fun k => (k % w, k / w)) := by
  induction h with
  | zero => simp [rasterOrder]
  | succ h ih =>
    have hs : rasterOrder w (h + 1) = rasterOrder w h ++ (List.range w).map (fun x => (x, h)) := by
      simp [rasterOrder, List.range_succ, List.flatMap_append]
    rw [hs, ih, Nat.mul_succ, List.range_add, List.map_append, List.map_map]
    congr 1
    apply List.map_congr_left
    intro x hx
    have hx := List.mem_range.mp hx
    have := pixelIndex_div_mod (y := h) hx
    simp only [Function.comp, Nat.mul_comm w h, this]

/-- What is left of the raster order from index `k` on. -/
theorem rasterOrder_drop {w h k : Nat} (hk : k < w * h) :
    (rasterOrder w h).drop k = (k % w, k / w) :: (rasterOrder w h).drop (k + 1) := by
  have hl : k < (rasterOrder w h).length := by simp [rasterOrder_eq, hk]
  rw [List.drop_eq_getElem_cons hl]
  simp [rasterOrder_eq]

/-- Nothing is left of the raster order after the last pixel. -/
theorem rasterOrder_drop_all {w h : Nat} : (rasterOrder w h).drop (w * h) = [] := by
  simp [rasterOrder_eq]

end Sys2Proof.Laws
end

