-- ==== Sys2Proof/Laws/RowBuffer.lean ====
section
/-! SUPPORT. The row buffer is a write-back window (R45): loading, storing and flushing rows do not change the pixels
seen through it, and a write through it changes one pixel. -/

namespace Sys2Proof.Laws
open Sys2Proof.Machine

variable {p : Params} {s : State}

/-- Reading a slot after replacing one. -/
theorem slot_setSlot (s : State) (j k : Fin 3) (v : RowSlot) :
    (s.setSlot j v).slot k = if k = j then v else s.slot k := by
  simp only [State.slot, setSlot_rowbuf, Vector.getElem_set]
  by_cases h : k = j
  · subst h; simp
  · rw [if_neg (fun e => h (Fin.ext e.symm)), if_neg h]

/-- The slots are the row buffer's. -/
theorem slot_congr {t : State} (h : t.rowbuf = s.rowbuf) (j : Fin 3) : t.slot j = s.slot j := by
  obtain ⟨⟩ := t
  simp only at h
  subst h
  rfl

/-- Two rows that share a slot within a window of three are the same row. -/
theorem slotOf_inj {r q y : Nat} (h : slotOf r = slotOf q) (hr : y ≤ r ∧ r ≤ y + 2) (hq : y ≤ q ∧ q ≤ y + 2) :
    r = q := by
  have := congrArg Fin.val h
  simp only [slotOf, Fin.val_ofNat] at this
  omega

/-- Every held row is a row of the image, in its own slot, with one pixel per column. -/
def heldOk (s : State) : Prop :=
  ∀ j r, (s.slot j).tag = some r → slotOf r = j ∧ r < s.hNat ∧ (s.slot j).px.length = s.wNat

/-- A state's row buffer and image together hold the image function `f`. -/
structure Buffers (p : Params) (s : State) (f : ImageFn) : Prop where
  held : heldOk s
  pixel : ∀ x y, x < s.wNat → y < s.hNat → bufPixel p s x y = ImageFn.pixel f s.wNat x y
  above : ∀ a, 3 * s.wNat * s.hNat ≤ a → imgByte p s a = f a

/-- `t` differs from `s` only in the image, the row buffer and the stencil state. -/
def onlyBuffers (s t : State) : Prop :=
  t = { s with image := t.image, rowbuf := t.rowbuf, kIdx := t.kIdx, errE := t.errE, old := t.old, new := t.new }

theorem onlyBuffers_refl (s : State) : onlyBuffers s s := rfl

theorem onlyBuffers_trans {s t u : State} (h1 : onlyBuffers s t) (h2 : onlyBuffers t u) : onlyBuffers s u := by
  unfold onlyBuffers at *
  rw [h1] at h2
  exact h2

theorem onlyBuffers_setSlot (s : State) (j : Fin 3) (v : RowSlot) : onlyBuffers s (s.setSlot j v) := rfl

theorem onlyBuffers_setImgPixel (s : State) (x y : Nat) (px : Pixel) : onlyBuffers s (setImgPixel s x y px) := rfl

/-- The sampled geometry is not the row buffer's. -/
theorem onlyBuffers_geometry {s t : State} (h : onlyBuffers s t) :
    t.wNat = s.wNat ∧ t.hNat = s.hNat ∧ t.epoch = s.epoch ∧ t.posX = s.posX ∧ t.posY = s.posY ∧ t.busy = s.busy ∧
      t.sSel = s.sSel := by
  unfold onlyBuffers at h
  rw [h]
  exact ⟨rfl, rfl, rfl, rfl, rfl, rfl, rfl⟩

/-- The pixel seen depends on the slot of its row and on the image pixel. -/
theorem bufPixel_slot_congr {t : State} {x y : Nat} (h1 : t.slot (slotOf y) = s.slot (slotOf y))
    (h2 : imgPixel p t x y = imgPixel p s x y) : bufPixel p t x y = bufPixel p s x y := by
  have hh : t.holdsRow y = s.holdsRow y := by unfold State.holdsRow; rw [h1]
  unfold bufPixel
  rw [hh, h1, h2]

/-- The pixels seen depend on image, row buffer, geometry and epoch alone. -/
theorem bufPixel_congr {t : State} (h1 : t.image = s.image) (h2 : t.rowbuf = s.rowbuf) (h3 : t.wl = s.wl)
    (h4 : t.epoch = s.epoch) (x y : Nat) : bufPixel p t x y = bufPixel p s x y := by
  have hs : t.slot (slotOf y) = s.slot (slotOf y) := by simp [State.slot, h2]
  have hp : imgPixel p t x y = imgPixel p s x y := by
    simp [imgPixel_eq, imgByte_congr p h1 h4, State.wNat, h3]
  exact bufPixel_slot_congr hs hp

/-- `Buffers` depends on image, row buffer, geometry and epoch alone. -/
theorem Buffers.congr {t : State} {f : ImageFn} (h : Buffers p s f) (h1 : t.image = s.image) (h2 : t.rowbuf = s.rowbuf)
    (h3 : t.wl = s.wl) (h4 : t.hl = s.hl) (h5 : t.epoch = s.epoch) : Buffers p t f := by
  have hw : t.wNat = s.wNat := by simp [State.wNat, h3]
  have hh : t.hNat = s.hNat := by simp [State.hNat, h4]
  refine ⟨?_, ?_, ?_⟩
  · intro j r hj
    simp only [State.slot, h2, hw, hh] at *
    exact h.held j r hj
  · intro x y hx hy
    rw [bufPixel_congr h1 h2 h3 h5, hw]
    exact h.pixel x y (hw ▸ hx) (hh ▸ hy)
  · intro a ha
    rw [imgByte_congr p h1 h5]
    exact h.above a (by rwa [hw, hh] at ha)

/-! ### Storing a row -/

theorem onlyBuffers_storeRow (r : Nat) (l : List Pixel) (x0 : Nat) (s : State) :
    onlyBuffers s (storeRow r x0 l s) ∧ (storeRow r x0 l s).rowbuf = s.rowbuf := by
  induction l generalizing x0 s with
  | nil => exact ⟨rfl, rfl⟩
  | cons px rest ih =>
    obtain ⟨h1, h2⟩ := ih (x0 + 1) (setImgPixel s x0 r px)
    exact ⟨onlyBuffers_trans (onlyBuffers_setImgPixel ..) h1, h2⟩

/-- The pixels of the image after a row is stored. -/
theorem imgPixel_storeRow (r : Nat) (l : List Pixel) (x0 : Nat) (s : State) (hl : x0 + l.length ≤ s.wNat)
    {x y : Nat} (hx : x < s.wNat) :
    imgPixel p (storeRow r x0 l s) x y =
      if y = r ∧ x0 ≤ x then (l[x - x0]?).getD (imgPixel p s x y) else imgPixel p s x y := by
  induction l generalizing x0 s with
  | nil => simp [storeRow]
  | cons px rest ih =>
    simp only [List.length_cons] at hl
    have hw : (setImgPixel s x0 r px).wNat = s.wNat := rfl
    have hx0 : x0 < s.wNat := by omega
    have hp : imgPixel p (setImgPixel s x0 r px) x y = if x = x0 ∧ y = r then px else imgPixel p s x y := by
      rw [imgPixel_eq, funext (fun a => imgByte_setImgPixel p s x0 r a px), hw, ImageFn_pixel_put _ _ hx0 hx]
      rfl
    rw [storeRow, ih (x0 + 1) _ (by rw [hw]; omega) (by rw [hw]; exact hx), hp]
    by_cases hr : y = r ∧ x0 ≤ x
    · rw [if_pos hr]
      by_cases he : x = x0
      · subst he
        rw [if_neg (by omega), if_pos ⟨rfl, hr.1⟩]
        simp
      · rw [if_pos (by omega), if_neg (by tauto)]
        obtain ⟨k, hk⟩ : ∃ k, x - x0 = k + 1 := ⟨x - x0 - 1, by omega⟩
        rw [hk, List.getElem?_cons_succ, show x - (x0 + 1) = k by omega]
    · rw [if_neg hr, if_neg (by omega), if_neg (by rintro ⟨rfl, rfl⟩; exact hr ⟨rfl, Nat.le_refl _⟩)]

/-- Storing a row of the image leaves the bytes above the image. -/
theorem imgByte_storeRow (r : Nat) (l : List Pixel) (x0 : Nat) (s : State) (hl : x0 + l.length ≤ s.wNat)
    (hr : r < s.hNat) {a : Nat} (ha : 3 * s.wNat * s.hNat ≤ a) :
    imgByte p (storeRow r x0 l s) a = imgByte p s a := by
  induction l generalizing x0 s with
  | nil => rfl
  | cons px rest ih =>
    simp only [List.length_cons] at hl
    rw [storeRow, ih (x0 + 1) (setImgPixel s x0 r px) (by show x0 + 1 + _ ≤ s.wNat; omega) hr ha,
      imgByte_setImgPixel, ImageFn_put_above _ _ (by omega) hr ha]

/-- Storing a row keeps the canonical form and the bound of the image memory. -/
theorem image_storeRow (r : Nat) (l : List Pixel) (x0 : Nat) (s : State) (hl : x0 + l.length ≤ s.wNat)
    (hr : r < s.hNat) :
    (Memory.wf s.image = true → Memory.wf (storeRow r x0 l s).image = true) ∧
    ∀ b, 3 * s.wNat * s.hNat ≤ b → (∀ c ∈ s.image, c.1 < b) → ∀ c ∈ (storeRow r x0 l s).image, c.1 < b := by
  induction l generalizing x0 s with
  | nil => exact ⟨id, fun _ _ h => h⟩
  | cons px rest ih =>
    simp only [List.length_cons] at hl
    obtain ⟨h1, h2⟩ := ih (x0 + 1) (setImgPixel s x0 r px) (by show x0 + 1 + _ ≤ s.wNat; omega) hr
    refine ⟨fun h => h1 (setImgPixel_wf _ _ _ h), fun b hb hc => h2 b hb ?_⟩
    have := pixelAddr_lt (w := s.wNat) (x := x0) (by omega) hr
    exact Memory_set_below _ (by omega) (Memory_set_below _ (by omega) (Memory_set_below _ (by omega) hc))

/-! ### Flushing a slot -/

/-- What flushing a slot does to the tags. -/
theorem tag_flushSlot (j k : Fin 3) (s : State) :
    ((flushSlot j s).slot k).tag = if k = j then none else (s.slot k).tag := by
  unfold flushSlot
  split
  · rename_i h
    split
    · subst_vars; exact h
    · rfl
  · rename_i r h
    rw [slot_setSlot]
    split
    · rfl
    · simp only [State.slot, (onlyBuffers_storeRow r _ 0 s).2]

theorem onlyBuffers_flushSlot (j : Fin 3) (s : State) : onlyBuffers s (flushSlot j s) := by
  unfold flushSlot
  split
  · rfl
  · exact onlyBuffers_trans (onlyBuffers_storeRow _ _ 0 s).1 (onlyBuffers_setSlot ..)

/-- Flushing a slot does not change the pixels seen. -/
theorem bufPixel_flushSlot (hh : heldOk s) (j : Fin 3) {x y : Nat} (hx : x < s.wNat) :
    bufPixel p (flushSlot j s) x y = bufPixel p s x y := by
  unfold flushSlot
  split
  · rfl
  · rename_i r hr
    obtain ⟨hslot, -, hlen⟩ := hh j r hr
    have hrb := (onlyBuffers_storeRow r (s.slot j).px 0 s).2
    have hpx := imgPixel_storeRow (p := p) r (s.slot j).px 0 s (by omega) (y := y) hx
    have hset : ∀ v, imgPixel p (((storeRow r 0 (s.slot j).px s)).setSlot j v) x y =
        imgPixel p (storeRow r 0 (s.slot j).px s) x y := fun _ => rfl
    by_cases hj : slotOf y = j
    · simp only [bufPixel, State.holdsRow, slot_setSlot, hset, hpx]
      by_cases hy : y = r
      · subst hy
        simp [hj, hr]
      · simp [hj, hr, hy, Ne.symm hy]
    · have hy : y ≠ r := fun e => hj (e ▸ hslot)
      refine bufPixel_slot_congr ?_ ?_
      · rw [slot_setSlot, if_neg hj]
        exact slot_congr hrb _
      · rw [hset, hpx, if_neg (by tauto)]

/-- Flushing a slot keeps the held rows well formed. -/
theorem heldOk_flushSlot (hh : heldOk s) (j : Fin 3) : heldOk (flushSlot j s) := by
  intro k r hk
  obtain ⟨hw, hhn, -⟩ := onlyBuffers_geometry (onlyBuffers_flushSlot j s)
  rw [hw, hhn]
  have ht := tag_flushSlot j k s
  rw [hk] at ht
  by_cases e : k = j
  · simp [e] at ht
  · rw [if_neg e] at ht
    have hs : (flushSlot j s).slot k = s.slot k := by
      unfold flushSlot
      split
      · rfl
      · rw [slot_setSlot, if_neg e]
        simp only [State.slot, (onlyBuffers_storeRow _ _ 0 s).2]
    rw [hs]
    exact hh k r ht.symm

theorem Buffers.flushSlot {f : ImageFn} (h : Buffers p s f) (j : Fin 3) : Buffers p (flushSlot j s) f := by
  obtain ⟨hw, hhn, -⟩ := onlyBuffers_geometry (onlyBuffers_flushSlot j s)
  refine ⟨heldOk_flushSlot h.held j, ?_, ?_⟩
  · intro x y hx hy
    rw [bufPixel_flushSlot h.held j (hw ▸ hx), hw]
    exact h.pixel x y (hw ▸ hx) (hhn ▸ hy)
  · intro a ha
    rw [hw, hhn] at ha
    rw [← h.above a ha]
    unfold Machine.flushSlot
    split
    · rfl
    · rename_i r hr
      obtain ⟨-, hrh, hlen⟩ := h.held j r hr
      exact imgByte_storeRow r _ 0 s (by omega) hrh ha

/-- Flushing a slot keeps the canonical form and the bound of the image memory. -/
theorem image_flushSlot (hh : heldOk s) (j : Fin 3) :
    (Memory.wf s.image = true → Memory.wf (flushSlot j s).image = true) ∧
    ∀ b, 3 * s.wNat * s.hNat ≤ b → (∀ c ∈ s.image, c.1 < b) → ∀ c ∈ (flushSlot j s).image, c.1 < b := by
  unfold flushSlot
  split
  · exact ⟨id, fun _ _ h => h⟩
  · rename_i r hr
    obtain ⟨-, hrh, hlen⟩ := hh j r hr
    exact image_storeRow r _ 0 s (by omega) hrh

/-! ### Flushing everything -/

theorem tag_flushAll (s : State) (j : Fin 3) : ((flushAll s).slot j).tag = none := by
  unfold flushAll
  rw [tag_flushSlot, tag_flushSlot, tag_flushSlot]
  fin_cases j <;> simp

theorem onlyBuffers_flushAll (s : State) : onlyBuffers s (flushAll s) :=
  onlyBuffers_trans (onlyBuffers_flushSlot 0 s)
    (onlyBuffers_trans (onlyBuffers_flushSlot 1 _) (onlyBuffers_flushSlot 2 _))

theorem Buffers.flushAll {f : ImageFn} (h : Buffers p s f) : Buffers p (flushAll s) f :=
  ((h.flushSlot 0).flushSlot 1).flushSlot 2

theorem image_flushAll (hh : heldOk s) :
    (Memory.wf s.image = true → Memory.wf (flushAll s).image = true) ∧
    ∀ b, 3 * s.wNat * s.hNat ≤ b → (∀ c ∈ s.image, c.1 < b) → ∀ c ∈ (flushAll s).image, c.1 < b := by
  have h0 := image_flushSlot hh 0
  have h1 := image_flushSlot (heldOk_flushSlot hh 0) 1
  have h2 := image_flushSlot (heldOk_flushSlot (heldOk_flushSlot hh 0) 1) 2
  obtain ⟨w0, e0, -⟩ := onlyBuffers_geometry (onlyBuffers_flushSlot 0 s)
  obtain ⟨w1, e1, -⟩ := onlyBuffers_geometry (onlyBuffers_flushSlot 1 (flushSlot 0 s))
  refine ⟨fun h => h2.1 (h1.1 (h0.1 h)), fun b hb h => ?_⟩
  refine h2.2 b (by rw [w1, e1, w0, e0]; exact hb) (h1.2 b (by rw [w0, e0]; exact hb) (h0.2 b hb h))

/-- With no row held, what is seen is the image itself. -/
theorem Buffers.image_eq {f : ImageFn} (h : Buffers p s f) (ht : s.tagsNone) : imgByte p s = f := by
  refine ImageFn_ext (w := s.wNat) (h := s.hNat) ?_ h.above
  intro x y hx hy
  rw [← h.pixel x y hx hy]
  have : ¬(s.slot (slotOf y)).tag = some y := by rw [ht]; simp
  simp [bufPixel, State.holdsRow, this, imgPixel_eq]

/-- With no row held, the buffers hold the image. -/
theorem Buffers.of_tagsNone (p : Params) {s : State} (ht : s.tagsNone) : Buffers p s (imgByte p s) := by
  refine ⟨?_, ?_, fun _ _ => rfl⟩
  · intro j r hj
    rw [ht] at hj
    simp at hj
  · intro x y hx hy
    have : ¬(s.slot (slotOf y)).tag = some y := by rw [ht]; simp
    simp [bufPixel, State.holdsRow, this, imgPixel_eq]

/-! ### Loading rows -/

/-- What loading a row does to the tags. -/
theorem tag_loadRow (p : Params) (r : Nat) (k : Fin 3) (s : State) :
    ((loadRow p r s).slot k).tag = if k = slotOf r ∧ r < s.hNat then some r else (s.slot k).tag := by
  unfold loadRow
  split
  · rename_i h
    split
    · rename_i h'
      obtain ⟨rfl, hr⟩ := h'
      rcases h with h | h
      · omega
      · simpa [State.holdsRow] using h
    · rfl
  · rename_i h
    simp only [not_or, not_le] at h
    rw [slot_setSlot]
    by_cases e : k = slotOf r
    · rw [if_pos e, if_pos ⟨e, h.1⟩]
    · rw [if_neg e, if_neg (by tauto), tag_flushSlot, if_neg e]

theorem onlyBuffers_loadRow (p : Params) (r : Nat) (s : State) : onlyBuffers s (loadRow p r s) := by
  unfold loadRow
  split
  · rfl
  · exact onlyBuffers_trans (onlyBuffers_flushSlot ..) (onlyBuffers_setSlot ..)

/-- Every sampled width fits in a row of the row buffer (R7). -/
theorem wNat_fits (p : Params) (s : State) : min s.wNat p.rowbufW = s.wNat := by
  have h1 := s.wl.isLt
  have h2 := p.rowbufFits
  unfold State.wNat
  omega

theorem Buffers.loadRow {f : ImageFn} (h : Buffers p s f) (r : Nat) : Buffers p (loadRow p r s) f := by
  unfold Machine.loadRow
  split
  · exact h
  · rename_i hc
    simp only [not_or, not_le] at hc
    set t := Machine.flushSlot (slotOf r) s with ht
    dsimp only
    rw [wNat_fits]
    have hB : Buffers p t f := h.flushSlot (slotOf r)
    have htag : (t.slot (slotOf r)).tag = none := by rw [ht, tag_flushSlot, if_pos rfl]
    have hhn : t.hNat = s.hNat := (onlyBuffers_geometry (onlyBuffers_flushSlot (slotOf r) s)).2.1
    refine ⟨?_, ?_, hB.above⟩
    · intro j q hj
      rw [slot_setSlot] at hj ⊢
      by_cases e : j = slotOf r
      · rw [if_pos e] at hj ⊢
        simp only [Option.some.injEq] at hj
        subst hj
        exact ⟨e.symm, by rw [← hhn] at hc; exact hc.1, by simp; rfl⟩
      · rw [if_neg e] at hj ⊢
        exact hB.held j q hj
    · intro x y hx hy
      have hx : x < t.wNat := hx
      have hB' := hB.pixel x y hx hy
      rw [show ImageFn.pixel f (t.setSlot _ _).wNat x y = ImageFn.pixel f t.wNat x y from rfl, ← hB']
      have hset : ∀ v, imgPixel p (t.setSlot (slotOf r) v) x y = imgPixel p t x y := fun _ => rfl
      by_cases e : slotOf y = slotOf r
      · simp only [bufPixel, State.holdsRow, slot_setSlot, hset]
        by_cases hyr : y = r
        · subst hyr
          simp [htag, hx]
        · simp [e, htag, Ne.symm hyr]
      · exact bufPixel_slot_congr (by rw [slot_setSlot, if_neg e]) rfl

/-- Loading a row keeps the canonical form and the bound of the image memory. -/
theorem image_loadRow (hh : heldOk s) (p : Params) (r : Nat) :
    (Memory.wf s.image = true → Memory.wf (loadRow p r s).image = true) ∧
    ∀ b, 3 * s.wNat * s.hNat ≤ b → (∀ c ∈ s.image, c.1 < b) → ∀ c ∈ (loadRow p r s).image, c.1 < b := by
  unfold loadRow
  split
  · exact ⟨id, fun _ _ h => h⟩
  · exact image_flushSlot hh (slotOf r)

/-! ### Loading the rows of a pixel step -/

theorem onlyBuffers_loadRows (p : Params) (y reach : Nat) (s : State) : onlyBuffers s (loadRows p y reach s) := by
  induction reach with
  | zero => exact onlyBuffers_loadRow p y s
  | succ n ih => exact onlyBuffers_trans ih (onlyBuffers_loadRow ..)

theorem Buffers.loadRows {f : ImageFn} (h : Buffers p s f) (y reach : Nat) : Buffers p (loadRows p y reach s) f := by
  induction reach with
  | zero => exact h.loadRow y
  | succ n ih => exact ih.loadRow _

/-- After loading, the tags are old ones, or rows of the window that exist. -/
theorem tag_loadRows (p : Params) (y reach : Nat) (k : Fin 3) (s : State) {q : Nat}
    (h : ((loadRows p y reach s).slot k).tag = some q) :
    (s.slot k).tag = some q ∨ (y ≤ q ∧ q ≤ y + reach ∧ q < s.hNat) := by
  induction reach with
  | zero =>
    rw [loadRows, tag_loadRow] at h
    split at h
    · simp only [Option.some.injEq] at h
      omega
    · exact .inl h
  | succ n ih =>
    rw [loadRows, tag_loadRow] at h
    split at h
    · rename_i hc
      have e := (onlyBuffers_geometry (onlyBuffers_loadRows p y n s)).2.1
      simp only [Option.some.injEq] at h
      omega
    · rcases ih h with h | h
      · exact .inl h
      · exact .inr (by omega)

theorem image_loadRows {f : ImageFn} (h : Buffers p s f) (y reach : Nat) :
    (Memory.wf s.image = true → Memory.wf (loadRows p y reach s).image = true) ∧
    ∀ b, 3 * s.wNat * s.hNat ≤ b → (∀ c ∈ s.image, c.1 < b) → ∀ c ∈ (loadRows p y reach s).image, c.1 < b := by
  induction reach with
  | zero => exact image_loadRow h.held p y
  | succ n ih =>
    obtain ⟨hw, hhn, -⟩ := onlyBuffers_geometry (onlyBuffers_loadRows p y n s)
    have := image_loadRow (h.loadRows y n).held p (y + (n + 1))
    exact ⟨fun e => this.1 (ih.1 e), fun b hb e => this.2 b (by rw [hw, hhn]; exact hb) (ih.2 b hb e)⟩

/-! ### Writing a pixel through the buffer -/

theorem onlyBuffers_setBufPixel (s : State) (x y : Nat) (px : Pixel) : onlyBuffers s (setBufPixel s x y px) := by
  unfold setBufPixel
  split <;> rfl

/-- A write through the buffer keeps the tags. -/
theorem tag_setBufPixel (s : State) (x y : Nat) (px : Pixel) (k : Fin 3) :
    ((setBufPixel s x y px).slot k).tag = (s.slot k).tag := by
  unfold setBufPixel
  split
  · rename_i h
    rw [slot_setSlot]
    split
    · subst_vars
      simpa [State.holdsRow, eq_comm] using h
    · rfl
  · rfl

/-- A write through the buffer changes exactly one pixel. -/
theorem bufPixel_setBufPixel (hh : heldOk s) {x y x' y' : Nat} (px : Pixel) (hx : x < s.wNat) (hx' : x' < s.wNat) :
    bufPixel p (setBufPixel s x y px) x' y' = if x' = x ∧ y' = y then px else bufPixel p s x' y' := by
  unfold setBufPixel
  split
  · rename_i h
    have h : (s.slot (slotOf y)).tag = some y := by simpa [State.holdsRow] using h
    have hlen := (hh _ _ h).2.2
    have hset : ∀ v, imgPixel p (s.setSlot (slotOf y) v) x' y' = imgPixel p s x' y' := fun _ => rfl
    by_cases e : slotOf y' = slotOf y
    · simp only [bufPixel, State.holdsRow, slot_setSlot, hset]
      by_cases hy : y' = y
      · subst hy
        by_cases hxx : x' = x
        · subst hxx
          simp [hlen, hx]
        · simp [h, hxx, Ne.symm hxx]
      · simp [e, h, hy, Ne.symm hy]
    · have hy : y' ≠ y := fun e' => e (e' ▸ rfl)
      rw [if_neg (show ¬(x' = x ∧ y' = y) by tauto)]
      exact bufPixel_slot_congr (by rw [slot_setSlot, if_neg e]) rfl
  · rename_i h
    have hp : imgPixel p (setImgPixel s x y px) x' y' = if x' = x ∧ y' = y then px else imgPixel p s x' y' := by
      rw [imgPixel_eq, funext (fun a => imgByte_setImgPixel p s x y a px), setImgPixel_wNat,
        ImageFn_pixel_put _ _ hx hx']
      rfl
    have hr : ∀ z, (setImgPixel s x y px).holdsRow z = s.holdsRow z := fun _ => rfl
    have hsl : ∀ j, (setImgPixel s x y px).slot j = s.slot j := fun _ => rfl
    simp only [bufPixel, hr, hsl, hp]
    by_cases e : x' = x ∧ y' = y
    · obtain ⟨rfl, rfl⟩ := e
      simp [h]
    · simp only [if_neg e]
where
  setImgPixel_wNat {s : State} {x y : Nat} {px : Pixel} : (setImgPixel s x y px).wNat = s.wNat := rfl

theorem Buffers.setBufPixel {f : ImageFn} (h : Buffers p s f) {x y : Nat} (px : Pixel) (hx : x < s.wNat)
    (hy : y < s.hNat) : Buffers p (setBufPixel s x y px) (ImageFn.put f s.wNat x y px) := by
  obtain ⟨hw, hhn, -⟩ := onlyBuffers_geometry (onlyBuffers_setBufPixel s x y px)
  refine ⟨?_, ?_, ?_⟩
  · intro j r hj
    rw [tag_setBufPixel] at hj
    obtain ⟨h1, h2, h3⟩ := h.held j r hj
    refine ⟨h1, by rw [hhn]; exact h2, ?_⟩
    rw [hw, ← h3]
    unfold Machine.setBufPixel
    split
    · rw [slot_setSlot]
      split
      · rename_i e
        simp [← e]
      · rfl
    · rfl
  · intro x' y' hx' hy'
    rw [hw] at hx' ⊢
    rw [hhn] at hy'
    rw [bufPixel_setBufPixel h.held px hx hx', ImageFn_pixel_put _ _ hx hx', h.pixel x' y' hx' hy']
  · intro a ha
    rw [hw, hhn] at ha
    rw [ImageFn_put_above _ _ hx hy ha, ← h.above a ha]
    unfold Machine.setBufPixel
    split
    · rfl
    · rw [imgByte_setImgPixel, ImageFn_put_above _ _ hx hy ha]

/-- A write through the buffer keeps the canonical form and the bound of the image memory. -/
theorem image_setBufPixel (s : State) {x y : Nat} (px : Pixel) (hx : x < s.wNat) (hy : y < s.hNat) :
    (Memory.wf s.image = true → Memory.wf (setBufPixel s x y px).image = true) ∧
    ∀ b, 3 * s.wNat * s.hNat ≤ b → (∀ c ∈ s.image, c.1 < b) → ∀ c ∈ (setBufPixel s x y px).image, c.1 < b := by
  unfold setBufPixel
  split
  · exact ⟨id, fun _ _ h => h⟩
  · refine ⟨fun h => setImgPixel_wf _ _ _ h, fun b hb hc => ?_⟩
    have := pixelAddr_lt hx hy
    exact Memory_set_below _ (by omega) (Memory_set_below _ (by omega) (Memory_set_below _ (by omega) hc))

end Sys2Proof.Laws
end

