-- ==== Sys2Proof/Laws/Ops.lean ====
section
/-! SUPPORT. What running a command can do: the core steps to the end, and the life cycle of R215. -/

namespace Sys2Proof.Laws
open Sys2Proof.Machine

variable {f g : State → Result}

/-- An idle block takes no core step. -/
@[simp] theorem runToEnd_idle (f : State → Result) (n : Nat) {s : State} (h : s.busy = false) :
    runToEnd f n s = .next s := by
  cases n <;> simp [runToEnd, h]

/-- A busy block takes one core step and goes on. -/
theorem runToEnd_busy {n : Nat} {s t : State} (h : s.busy = true) (hs : f s = .next t) :
    runToEnd f (n + 1) s = runToEnd f n t := by
  simp [runToEnd, h, hs]

/-- The last core step of a command. -/
theorem runToEnd_last {n : Nat} {s t : State} (h : s.busy = true) (hs : f s = .next t) (ht : t.busy = false) :
    runToEnd f (n + 1) s = .next t := by
  rw [runToEnd_busy h hs, runToEnd_idle f n ht]

/-- More steps than a command takes change nothing. -/
theorem runToEnd_mono {n m : Nat} {s t : State} (h : runToEnd f n s = .next t) (ht : t.busy = false)
    (hnm : n ≤ m) : runToEnd f m s = .next t := by
  induction n generalizing m s with
  | zero =>
    simp only [runToEnd, Host.Outcome.next.injEq] at h
    subst h
    exact runToEnd_idle f m ht
  | succ n ih =>
    obtain ⟨m, rfl⟩ : ∃ k, m = k + 1 := ⟨m - 1, by omega⟩
    cases hb : s.busy with
    | false =>
      rw [runToEnd_idle f _ hb] at h ⊢
      exact h
    | true =>
      simp only [runToEnd, hb, if_true] at h ⊢
      cases hf : f s with
      | next u =>
        rw [hf] at h
        exact ih h (by omega)
      | fault r => simp [hf] at h
      | refused r => simp [hf] at h

/-- Two core steps that agree along the states of a run give the same run. -/
theorem runToEnd_congr (P : State → Prop) (hfg : ∀ s, P s → s.busy = true → f s = g s)
    (hP : ∀ s t, P s → s.busy = true → g s = .next t → t.busy = true → P t) (n : Nat) {s : State} (hs : P s) :
    runToEnd f n s = runToEnd g n s := by
  induction n generalizing s with
  | zero => rfl
  | succ n ih =>
    cases hb : s.busy with
    | false => rw [runToEnd_idle f _ hb, runToEnd_idle g _ hb]
    | true =>
      simp only [runToEnd, hb, if_true, hfg s hs hb]
      cases hg : g s with
      | next t =>
        cases hbt : t.busy with
        | true => exact ih (hP s t hs hb hg hbt)
        | false => simp [runToEnd_idle f n hbt, runToEnd_idle g n hbt]
      | fault r => rfl
      | refused r => rfl

/-! ### The life cycle -/

variable {w : Word} {kind : ErrorKind} {latch : State → State} {check : State → Word} {s : State}

/-- The state a command is accepted in (R215). -/
def accepted (w : Word) (latch : State → State) (s : State) : State := latch ((s.issue).accept w)

/-- A busy block ignores the command (R219). -/
theorem runCommand_busy (h : s.busy = true) : runCommand w kind latch check f s = .next s := by
  simp [runCommand, h]

/-- A failed entry check ends the command (R215, R238). -/
theorem runCommand_failed (h : s.busy = false) (hc : check (accepted w latch s) ≠ 0#32) :
    runCommand w kind latch check f s =
      .next ((accepted w latch s).raise kind (check (accepted w latch s))) := by
  simp only [accepted] at hc
  simp [runCommand, h, hc, accepted]

/-- With a host that waits the whole command runs (R186, R222). -/
theorem runCommand_whole (h : s.busy = false) (hc : check (accepted w latch s) = 0#32)
    (hw : (accepted w latch s).hostWaits = true) :
    runCommand w kind latch check f s =
      runToEnd f (coreBound (accepted w latch s)) (accepted w latch s) := by
  simp only [accepted] at hc hw
  simp [runCommand, h, hc, hw, accepted]

/-- With a host that does not wait the command is accepted (R215; log 1). -/
theorem runCommand_accepted (h : s.busy = false) (hc : check (accepted w latch s) = 0#32)
    (hw : (accepted w latch s).hostWaits = false) :
    runCommand w kind latch check f s = .next (accepted w latch s) := by
  simp only [accepted] at hc hw
  simp [runCommand, h, hc, hw, accepted]

/-- Everything the life cycle can do (R215, R219). -/
theorem runCommand_cases (w : Word) (kind : ErrorKind) (latch : State → State) (check : State → Word)
    (f : State → Result) (s : State) :
    (s.busy = true ∧ runCommand w kind latch check f s = .next s) ∨
    (s.busy = false ∧ check (accepted w latch s) ≠ 0#32 ∧ runCommand w kind latch check f s =
      .next ((accepted w latch s).raise kind (check (accepted w latch s)))) ∨
    (s.busy = false ∧ check (accepted w latch s) = 0#32 ∧ (accepted w latch s).hostWaits = true ∧
      runCommand w kind latch check f s =
        runToEnd f (coreBound (accepted w latch s)) (accepted w latch s)) ∨
    (s.busy = false ∧ check (accepted w latch s) = 0#32 ∧ (accepted w latch s).hostWaits = false ∧
      runCommand w kind latch check f s = .next (accepted w latch s)) := by
  by_cases hb : s.busy = true
  · exact .inl ⟨hb, runCommand_busy hb⟩
  · have hb : s.busy = false := by simpa using hb
    by_cases hc : check (accepted w latch s) = 0#32
    · by_cases hw : (accepted w latch s).hostWaits = true
      · exact .inr (.inr (.inl ⟨hb, hc, hw, runCommand_whole hb hc hw⟩))
      · have hw : (accepted w latch s).hostWaits = false := by simpa using hw
        exact .inr (.inr (.inr ⟨hb, hc, hw, runCommand_accepted hb hc hw⟩))
    · exact .inr (.inl ⟨hb, hc, runCommand_failed hb hc⟩)

/-- A command of one core step, run whole (`NOP`, `BUILD_LUT`, `MAP332`, `MAPNN`, `SRESET`). -/
theorem runCommand_oneStep {t : State} (h : s.busy = false) (hc : check (accepted w latch s) = 0#32)
    (hw : (accepted w latch s).hostWaits = true) (hb : (accepted w latch s).busy = true)
    (hs : f (accepted w latch s) = .next t) (ht : t.busy = false) :
    runCommand w kind latch check f s = .next t := by
  rw [runCommand_whole h hc hw]
  exact runToEnd_last hb hs ht

/-- Whether the host waits depends on its pending acts alone. -/
theorem hostWaits_congr {s t : State} (h : t.host = s.host) : t.hostWaits = s.hostWaits := by
  simp [State.hostWaits, h]

end Sys2Proof.Laws
end

