-- ==== Sys2Proof/Laws/Scan.lean ====
section
/-! SUPPORT. The scan of a command whose pixels are independent (R127, R182, R200): what its run to the end leaves. -/

namespace Sys2Proof.Laws
open Sys2Proof.Machine

/-- A counter of 16 bits that is below another one does not wrap when it counts up (R40). -/
theorem toNat_succ16 {a : BitVec 16} {n : Nat} (h : a.toNat + 1 ≤ n) (hn : n ≤ 65535) :
    (a + 1#16).toNat = a.toNat + 1 := by
  rw [BitVec.toNat_add]
  simp
  omega

/-- The index of the scan position in raster order. -/
def scanIndex (s : State) : Nat := s.posY.toNat * s.wNat + s.posX.toNat

/-- The scan position is a pixel of the image, or the end of the scan (R40). -/
def scanOk (s : State) : Prop :=
  (s.posX.toNat < s.wNat ∧ s.posY.toNat < s.hNat) ∨ (0 < s.wNat ∧ s.posX = 0#16 ∧ s.posY.toNat = s.hNat)

/-- The scan is over exactly when every pixel has been visited. -/
theorem scanDone_iff {s : State} (h : scanOk s) : scanDone s = true ↔ s.hNat ≤ s.posY.toNat := by
  rcases h with ⟨hx, hy⟩ | ⟨hw, hx, hy⟩
  · have : s.wNat * s.hNat ≠ 0 := Nat.mul_ne_zero (by omega) (by omega)
    simp [scanDone, this]
  · simp [scanDone, hy]

/-- The index of a pixel to come is below `W * H`. -/
theorem scanIndex_lt {s : State} (h : scanOk s) (hd : scanDone s = false) :
    s.posX.toNat < s.wNat ∧ s.posY.toNat < s.hNat ∧ scanIndex s < s.wNat * s.hNat := by
  have hn : ¬s.hNat ≤ s.posY.toNat := fun e => by simp [(scanDone_iff h).mpr e] at hd
  rcases h with ⟨hx, hy⟩ | ⟨_, _, hy⟩
  · exact ⟨hx, hy, pixelIndex_lt hx hy⟩
  · omega

/-- The index at the end of the scan is `W * H`. -/
theorem scanIndex_done {s : State} (h : scanOk s) (hd : scanDone s = true) :
    scanIndex s = s.wNat * s.hNat ∧ s.posX = 0#16 ∧ s.posY = s.hl := by
  have hn := (scanDone_iff h).mp hd
  rcases h with ⟨_, hy⟩ | ⟨_, hx, hy⟩
  · omega
  · refine ⟨?_, hx, BitVec.eq_of_toNat_eq hy⟩
    simp [scanIndex, hx, hy, Nat.mul_comm]

/-- The advance goes to the next pixel in raster order (R40). -/
theorem scanIndex_advance {s : State} (h : scanOk s) (hd : scanDone s = false) :
    scanOk (advance s) ∧ scanIndex (advance s) = scanIndex s + 1 := by
  obtain ⟨hx, hy, -⟩ := scanIndex_lt h hd
  have hwb : s.wNat ≤ 65535 := by have := s.wl.isLt; simp only [State.wNat]; omega
  have hhb : s.hNat ≤ 65535 := by have := s.hl.isLt; simp only [State.hNat]; omega
  by_cases hr : s.posX.toNat + 1 < s.wNat
  · have e := toNat_succ16 (a := s.posX) (n := s.wNat) (by omega) hwb
    rw [advance_inRow hr]
    constructor
    · left
      simp only [State.wNat, State.hNat] at *
      omega
    · simp only [scanIndex, State.wNat] at *
      omega
  · have e := toNat_succ16 (a := s.posY) (n := s.hNat) (by omega) hhb
    rw [advance_nextRow hr]
    have hxw : s.posX.toNat + 1 = s.wNat := by omega
    constructor
    · by_cases hl : s.posY.toNat + 1 < s.hNat
      · left
        simp only [State.wNat, State.hNat] at *
        simp
        omega
      · right
        simp only [State.wNat, State.hNat] at *
        simp
        omega
    · have hm : (s.posY.toNat + 1) * s.wNat = s.posY.toNat * s.wNat + s.wNat := by ring
      simp only [scanIndex, State.wNat] at *
      rw [e, hm]
      simp
      omega

/-- A state at another scan position, with another image. -/
def scanAt (s : State) (img : Memory) (y x : BitVec 16) : State := { s with image := img, posY := y, posX := x }

/-- The byte of a pixelwise method at a byte of the image (R129, R182, R205). -/
theorem refPointwise_byte (g : Nat → Nat → Pixel → Pixel) {w h : Nat} (f : ImageFn) {k : Nat} (hk : k < w * h) :
    (refPointwise g w h f (3 * k) = (g (k % w) (k / w) (ImageFn.pixel f w (k % w) (k / w))).r) ∧
    (refPointwise g w h f (3 * k + 1) = (g (k % w) (k / w) (ImageFn.pixel f w (k % w) (k / w))).g) ∧
    (refPointwise g w h f (3 * k + 2) = (g (k % w) (k / w) (ImageFn.pixel f w (k % w) (k / w))).b) := by
  have e : 3 * w * h = 3 * (w * h) := by ring
  have h0 : 3 * k / 3 = k := by omega
  have h1 : (3 * k + 1) / 3 = k := by omega
  have h2 : (3 * k + 2) / 3 = k := by omega
  have m1 : (3 * k + 1) % 3 = 1 := by omega
  have m2 : (3 * k + 2) % 3 = 2 := by omega
  refine ⟨?_, ?_, ?_⟩ <;> simp only [refPointwise, e, h0, h1, h2, m1, m2] <;> rw [if_pos (by omega)] <;> simp

/-- The pixels of a pixelwise method. -/
theorem refPointwise_pixel (g : Nat → Nat → Pixel → Pixel) {w h x y : Nat} (f : ImageFn) (hx : x < w) (hy : y < h) :
    ImageFn.pixel (refPointwise g w h f) w x y = g x y (ImageFn.pixel f w x y) := by
  obtain ⟨h1, h2⟩ := pixelIndex_div_mod (y := y) hx
  obtain ⟨e0, e1, e2⟩ := refPointwise_byte g f (pixelIndex_lt hx hy)
  rw [h1, h2] at e0 e1 e2
  have hp : ImageFn.pixel (refPointwise g w h f) w x y =
      ⟨refPointwise g w h f (3 * (y * w + x)), refPointwise g w h f (3 * (y * w + x) + 1),
       refPointwise g w h f (3 * (y * w + x) + 2)⟩ := rfl
  rw [hp, e0, e1, e2]

/-- The bytes above the image are left alone. -/
theorem refPointwise_above (g : Nat → Nat → Pixel → Pixel) {w h a : Nat} (f : ImageFn) (ha : 3 * w * h ≤ a) :
    refPointwise g w h f a = f a := by
  simp only [refPointwise]
  rw [if_neg (by omega)]

/-- The run of a pixelwise command from any scan position: the pixels from there on are replaced, those before and
the bytes above the image are not, and the scan ends at `(H, 0)`. -/
theorem runToEnd_pointwise {p : Params} {g : Nat → Nat → Pixel → Pixel} {core : State → Result} {s : State}
    (hcore : ∀ img y x, core (scanAt s img y x) = pointwiseStep p g (scanAt s img y x)) (hb : s.busy = true) :
    ∀ (r n : Nat) (img : Memory) (y x : BitVec 16),
      scanOk (scanAt s img y x) → scanIndex (scanAt s img y x) + r = s.wNat * s.hNat → r + 1 ≤ n →
      ∃ img', runToEnd core n (scanAt s img y x) = .next (scanAt s img' s.hl 0#16).finish ∧
        (Memory.wf img = true → Memory.wf img' = true) ∧
        (∀ b, 3 * s.wNat * s.hNat ≤ b → (∀ c ∈ img, c.1 < b) → ∀ c ∈ img', c.1 < b) ∧
        (∀ x' y', x' < s.wNat → y' < s.hNat →
          imgPixel p (scanAt s img' y x) x' y' =
            if scanIndex (scanAt s img y x) ≤ y' * s.wNat + x' then g x' y' (imgPixel p (scanAt s img y x) x' y')
            else imgPixel p (scanAt s img y x) x' y') ∧
        (∀ a, 3 * s.wNat * s.hNat ≤ a → imgByte p (scanAt s img' y x) a = imgByte p (scanAt s img y x) a) := by
  intro r
  induction r with
  | zero =>
    intro n img y x hok hr hn
    obtain ⟨n, rfl⟩ : ∃ k, n = k + 1 := ⟨n - 1, by omega⟩
    have hd : scanDone (scanAt s img y x) = true := by
      by_contra hd
      have h1 := (scanIndex_lt hok (by simpa using hd)).2.2
      have h2 : (scanAt s img y x).wNat * (scanAt s img y x).hNat = s.wNat * s.hNat := rfl
      omega
    obtain ⟨-, hx1, hy1⟩ := scanIndex_done hok hd
    obtain rfl : x = 0#16 := hx1
    obtain rfl : y = s.hl := hy1
    refine ⟨img, ?_, id, fun _ _ h => h, ?_, fun _ _ => rfl⟩
    · exact runToEnd_last hb (by rw [hcore]; simp [pointwiseStep, hd]) rfl
    · intro x' y' hx' hy'
      have h1 := pixelIndex_lt hx' hy'
      rw [if_neg (by omega)]
  | succ r ih =>
    intro n img y x hok hr hn
    obtain ⟨n, rfl⟩ : ∃ k, n = k + 1 := ⟨n - 1, by omega⟩
    have hd : scanDone (scanAt s img y x) = false := by
      by_contra hd
      have h1 := (scanIndex_done hok (by simpa using hd)).1
      have h2 : (scanAt s img y x).wNat * (scanAt s img y x).hNat = s.wNat * s.hNat := rfl
      omega
    obtain ⟨hx, hy, -⟩ := scanIndex_lt hok hd
    have hx : x.toNat < s.wNat := hx
    have hy : y.toNat < s.hNat := hy
    -- the state after the pixel step
    set px := g x.toNat y.toNat (imgPixel p (scanAt s img y x) x.toNat y.toNat) with hpx
    set u := setImgPixel (scanAt s img y x) x.toNat y.toNat px with hu
    have hstep : core (scanAt s img y x) = .next (advance u) := by
      rw [hcore]
      simp only [pointwiseStep, hd, Bool.false_eq_true, if_false]
      rfl
    obtain ⟨hok', hidx⟩ := scanIndex_advance (s := u) hok hd
    have hav : advance u = scanAt s u.image (advance u).posY (advance u).posX := by
      by_cases hr : u.posX.toNat + 1 < u.wNat
      · rw [advance_inRow hr]; rfl
      · rw [advance_nextRow hr]; rfl
    obtain ⟨img', hrun, hwf, hbelow, hpix, habove⟩ :=
      ih n u.image (advance u).posY (advance u).posX (hav ▸ hok')
        (by
          rw [← hav, hidx]
          have : scanIndex u = scanIndex (scanAt s img y x) := rfl
          omega) (by omega)
    rw [← hav] at hpix habove
    rw [hidx] at hpix
    have hui : scanIndex u = scanIndex (scanAt s img y x) := rfl
    have hidxE : scanIndex (scanAt s img y x) = y.toNat * s.wNat + x.toNat := rfl
    have hbyte : ∀ a, imgByte p (advance u) a = ImageFn.put (imgByte p (scanAt s img y x)) s.wNat x.toNat y.toNat px a := by
      intro a
      rw [show imgByte p (advance u) a = imgByte p u a from congrFun (imgByte_congr p (by simp) (by simp)) a, hu,
        imgByte_setImgPixel]
      rfl
    have hpixu : ∀ x' y', x' < s.wNat → imgPixel p (advance u) x' y' =
        if x' = x.toNat ∧ y' = y.toNat then px else imgPixel p (scanAt s img y x) x' y' := by
      intro x' y' hx'
      rw [imgPixel_eq, show (advance u).wNat = s.wNat by simp [State.wNat]; rfl, funext hbyte,
        ImageFn_pixel_put _ _ hx hx']
      rfl
    refine ⟨img', ?_, ?_, ?_, ?_, ?_⟩
    · rw [runToEnd_busy (by exact hb) hstep, hav]
      exact hrun
    · exact fun h => hwf (setImgPixel_wf _ _ _ h)
    · intro b hb3 hc
      have hlt := pixelAddr_lt hx hy
      have e : (scanAt s img y x).wNat = s.wNat := rfl
      refine hbelow b hb3 ?_
      rw [hu]
      refine Memory_set_below _ ?_ (Memory_set_below _ ?_ (Memory_set_below _ ?_ hc)) <;> rw [e] <;> omega
    · intro x' y' hx' hy'
      have hl : imgPixel p (scanAt s img' y x) x' y' = imgPixel p (scanAt s img' (advance u).posY (advance u).posX) x' y' := rfl
      rw [hl, hpix x' y' hx' hy', hpixu x' y' hx']
      by_cases he : x' = x.toNat ∧ y' = y.toNat
      · obtain ⟨rfl, rfl⟩ := he
        rw [if_neg (by omega), if_pos ⟨rfl, rfl⟩, if_pos (by omega)]
      · rw [if_neg he]
        have hne : y' * s.wNat + x' ≠ y.toNat * s.wNat + x.toNat := fun e => he (pixelIndex_inj hx' hx e)
        by_cases hle : scanIndex u + 1 ≤ y' * s.wNat + x'
        · rw [if_pos hle, if_pos (by omega)]
        · rw [if_neg hle, if_neg (by omega)]
    · intro a ha
      have hl : imgByte p (scanAt s img' y x) a = imgByte p (scanAt s img' (advance u).posY (advance u).posX) a := rfl
      rw [hl, habove a ha, hbyte, ImageFn_put_above _ _ hx hy ha]

/-- The run of a pixelwise command from its acceptance. -/
theorem runToEnd_pointwise_whole {p : Params} {g : Nat → Nat → Pixel → Pixel} {core : State → Result} {s : State}
    (hcore : ∀ img y x, core (scanAt s img y x) = pointwiseStep p g (scanAt s img y x)) (hb : s.busy = true)
    (hx : s.posX = 0#16) (hy : s.posY = 0#16) :
    ∃ img', runToEnd core (coreBound s) s =
        .next (scanAt s img' (if s.wNat * s.hNat = 0 then 0#16 else s.hl) 0#16).finish ∧
      (Memory.wf s.image = true → Memory.wf img' = true) ∧
      (∀ b, 3 * s.wNat * s.hNat ≤ b → (∀ c ∈ s.image, c.1 < b) → ∀ c ∈ img', c.1 < b) ∧
      ∀ y' x', imgByte p (scanAt s img' y' x') = refPointwise g s.wNat s.hNat (imgByte p s) := by
  have hs : scanAt s s.image 0#16 0#16 = s := by
    have h1 : scanAt s s.image s.posY s.posX = s := rfl
    rwa [hx, hy] at h1
  by_cases h0 : s.wNat * s.hNat = 0
  · refine ⟨s.image, ?_, id, fun _ _ h => h, ?_⟩
    · rw [if_pos h0, hs, coreBound, h0]
      refine runToEnd_last hb ?_ rfl
      rw [← hs, hcore, hs]
      simp [pointwiseStep, scanDone, h0]
    · intro y' x'
      funext a
      rw [refPointwise_above _ _ (by rw [Nat.mul_assoc, h0]; omega)]
      rfl
  · have hw : 0 < s.wNat := Nat.pos_of_ne_zero fun e => h0 (by simp [e])
    have hh : 0 < s.hNat := Nat.pos_of_ne_zero fun e => h0 (by simp [e])
    have hi : scanIndex s = 0 := by simp [scanIndex, hx, hy]
    have hok : scanOk s := .inl (by simp [hx, hy, hw, hh])
    obtain ⟨img', hrun, hwf, hbelow, hpix, habove⟩ := runToEnd_pointwise hcore hb (s.wNat * s.hNat) (coreBound s) s.image 0#16 0#16
      (hs ▸ hok) (by rw [hs, hi]; omega) (by simp only [coreBound]; omega)
    refine ⟨img', ?_, hwf, hbelow, ?_⟩
    · rw [if_neg h0]
      rwa [hs] at hrun
    · rw [hs] at hpix habove
      intro y' x'
      have hl : imgByte p (scanAt s img' y' x') = imgByte p (scanAt s img' 0#16 0#16) := rfl
      rw [hl]
      refine ImageFn_ext (w := s.wNat) (h := s.hNat) ?_ ?_
      · intro x'' y'' hx'' hy''
        rw [refPointwise_pixel _ _ hx'' hy'']
        have := hpix x'' y'' hx'' hy''
        rw [hi, if_pos (Nat.zero_le _)] at this
        exact this
      · intro a ha
        rw [habove a ha, refPointwise_above _ _ ha]

end Sys2Proof.Laws
end

