-- ==== Sys2Proof/Laws/Diffusion.lean ====
section
/-! SUPPORT. Error diffusion through the row buffer is the fold of R172 on the image (R45, R172, R186). -/

namespace Sys2Proof.Laws
open Sys2Proof.Machine

variable {p : Params} {s t u : State} {f g : ImageFn}

/-- The image memory of `t` is canonical and bounded as that of `s` is. -/
def memKept (s t : State) : Prop :=
  (Memory.wf s.image = true → Memory.wf t.image = true) ∧
  ∀ b, 3 * s.wNat * s.hNat ≤ b → (∀ c ∈ s.image, c.1 < b) → ∀ c ∈ t.image, c.1 < b

theorem memKept_refl (s : State) : memKept s s := ⟨id, fun _ _ h => h⟩

theorem memKept_trans (hw : t.wNat = s.wNat) (hh : t.hNat = s.hNat) (h1 : memKept s t) (h2 : memKept t u) :
    memKept s u :=
  ⟨fun h => h2.1 (h1.1 h), fun b hb h => h2.2 b (by rw [hw, hh]; exact hb) (h1.2 b hb h)⟩

/-- A part of a pixel step: from buffers that hold one image function to buffers that hold another, nothing else
changed, the tags kept. -/
structure BufStep (p : Params) (s t : State) (g : ImageFn) : Prop where
  buf : Buffers p t g
  only : onlyBuffers s t
  tags : ∀ k, (t.slot k).tag = (s.slot k).tag
  mem : memKept s t

theorem BufStep.trans (h1 : BufStep p s t f) (h2 : BufStep p t u g) : BufStep p s u g := by
  obtain ⟨hw, hh, -⟩ := onlyBuffers_geometry h1.only
  exact ⟨h2.buf, onlyBuffers_trans h1.only h2.only, fun k => (h2.tags k).trans (h1.tags k),
    memKept_trans hw hh h1.mem h2.mem⟩

theorem BufStep.setBufPixel (h : Buffers p s f) {x y : Nat} (px : Pixel) (hx : x < s.wNat) (hy : y < s.hNat) :
    BufStep p s (setBufPixel s x y px) (ImageFn.put f s.wNat x y px) :=
  ⟨h.setBufPixel px hx hy, onlyBuffers_setBufPixel s x y px, tag_setBufPixel s x y px, image_setBufPixel s px hx hy⟩

/-- A change of the stencil state alone. -/
theorem BufStep.stencil (h : Buffers p s f) (h1 : t.image = s.image) (h2 : t.rowbuf = s.rowbuf)
    (h3 : onlyBuffers s t) : BufStep p s t f := by
  have e := h3
  unfold onlyBuffers at e
  refine ⟨h.congr h1 h2 (by rw [e]) (by rw [e]) (by rw [e]), h3, fun k => by rw [slot_congr h2], ?_⟩
  unfold memKept
  rw [h1]
  exact ⟨id, fun _ _ h => h⟩

theorem inside_iff (w h : Nat) (tx ty : Int) :
    inside w h tx ty = true ↔ 0 ≤ tx ∧ tx < w ∧ 0 ≤ ty ∧ ty < h := by
  simp [inside, and_assoc]

/-- One stencil entry. -/
theorem BufStep.spreadEntry (h : Buffers p s f) (x y : Nat) (ent : StencilEntry) :
    BufStep p s (spreadEntry p x y ent s)
      (if 0 ≤ (x : Int) + ent.dx ∧ (x : Int) + ent.dx < s.wNat ∧ 0 ≤ (y : Int) + (ent.dy : Int) ∧
          (y : Int) + (ent.dy : Int) < s.hNat then
        ImageFn.put f s.wNat ((x : Int) + ent.dx).toNat ((y : Int) + (ent.dy : Int)).toNat
          (diffusePixel p (ImageFn.pixel f s.wNat ((x : Int) + ent.dx).toNat ((y : Int) + (ent.dy : Int)).toNat)
            s.errE ent)
      else f) := by
  unfold Machine.spreadEntry
  by_cases hi : 0 ≤ (x : Int) + ent.dx ∧ (x : Int) + ent.dx < s.wNat ∧ 0 ≤ (y : Int) + (ent.dy : Int) ∧
      (y : Int) + (ent.dy : Int) < s.hNat
  · have hx : ((x : Int) + ent.dx).toNat < s.wNat := by omega
    have hy : ((y : Int) + (ent.dy : Int)).toNat < s.hNat := by omega
    rw [if_pos hi]
    simp only [(inside_iff _ _ _ _).mpr hi, if_true]
    rw [h.pixel _ _ hx hy]
    exact BufStep.setBufPixel h _ hx hy
  · rw [if_neg hi]
    simp only [Bool.eq_false_iff.mpr (fun e => hi ((inside_iff _ _ _ _).mp e)), Bool.false_eq_true, if_false]
    exact BufStep.stencil h rfl rfl rfl

theorem errE_spreadEntry (p : Params) (x y : Nat) (ent : StencilEntry) (s : State) :
    (spreadEntry p x y ent s).errE = s.errE ∧ (spreadEntry p x y ent s).old = s.old ∧
      (spreadEntry p x y ent s).new = s.new := by
  simp only [spreadEntry, setBufPixel]
  split
  · split <;> exact ⟨rfl, rfl, rfl⟩
  · exact ⟨rfl, rfl, rfl⟩

/-- Step 5 of R172. -/
theorem BufStep.spreadError (x y : Nat) (st : List StencilEntry) (k : Nat) {s : State} {f : ImageFn}
    (h : Buffers p s f) :
    BufStep p s (spreadError p x y k st s) (refSpread p s.wNat s.hNat x y s.errE st f) := by
  induction st generalizing k s f with
  | nil => exact BufStep.stencil h rfl rfl rfl
  | cons ent rest ih =>
    have h1 : BufStep p s { s with kIdx := Fin.ofNat 12 k } f := BufStep.stencil h rfl rfl rfl
    have h2 := BufStep.spreadEntry h1.buf x y ent
    have h3 := ih (k + 1) h2.buf
    obtain ⟨hw, hh, -⟩ := onlyBuffers_geometry h2.only
    rw [hw, hh, (errE_spreadEntry p x y ent _).1] at h3
    exact h1.trans (h2.trans h3)

/-- The pixel step of R172 through the row buffer. -/
theorem BufStep.diffusionPixel (h : Buffers p s f) (hx : s.posX.toNat < s.wNat) (hy : s.posY.toNat < s.hNat) :
    BufStep p s (diffusionPixel p s)
      (refDiffusionPixel p (p.stencil s.sSel) s.wNat s.hNat f (s.posX.toNat, s.posY.toNat)) := by
  have hold := h.pixel _ _ hx hy
  simp only [Machine.diffusionPixel, refDiffusionPixel, hold]
  set old := ImageFn.pixel f s.wNat s.posX.toNat s.posY.toNat
  set new := nearestRgb p old
  have h1 : BufStep p s { s with old := old, new := new } f := BufStep.stencil h rfl rfl rfl
  have h2 : BufStep p _ _ _ := BufStep.setBufPixel h1.buf (x := s.posX.toNat) (y := s.posY.toNat) new hx hy
  set t := Machine.setBufPixel { s with old := old, new := new } s.posX.toNat s.posY.toNat new with ht
  have h3 : BufStep p t { t with errE := pixelError old new } _ := BufStep.stencil h2.buf rfl rfl rfl
  have h4 := BufStep.spreadError s.posX.toNat s.posY.toNat (p.stencil t.sSel) 0 h3.buf
  obtain ⟨hw, hh, -, -, -, -, hs⟩ := onlyBuffers_geometry h2.only
  have h5 := h1.trans (h2.trans (h3.trans h4))
  have hw' : ({ t with errE := pixelError old new } : State).wNat = s.wNat := hw
  have hh' : ({ t with errE := pixelError old new } : State).hNat = s.hNat := hh
  have hs' : t.sSel = s.sSel := hs
  rw [hw', hh', hs'] at h5
  rw [hs']
  exact h5

/-! ### The core step -/

/-- `t` differs from `s` only in the image, the row buffer, the stencil state and the scan position. -/
def onlyScan (s t : State) : Prop :=
  t = { s with
    image := t.image, rowbuf := t.rowbuf, kIdx := t.kIdx, errE := t.errE, old := t.old, new := t.new
    posX := t.posX, posY := t.posY }

theorem onlyScan_of_onlyBuffers (h : onlyBuffers s t) : onlyScan s t := by
  unfold onlyBuffers at h
  unfold onlyScan
  rw [h]

theorem onlyScan_advance (s : State) : onlyScan s (advance s) := by
  unfold onlyScan advance
  split <;> rfl

theorem onlyScan_trans (h1 : onlyScan s t) (h2 : onlyScan t u) : onlyScan s u := by
  unfold onlyScan at *
  rw [h1] at h2
  exact h2

theorem onlyScan_geometry (h : onlyScan s t) :
    t.wNat = s.wNat ∧ t.hNat = s.hNat ∧ t.busy = s.busy ∧ t.sSel = s.sSel ∧ t.hl = s.hl := by
  unfold onlyScan at h
  rw [h]
  exact ⟨rfl, rfl, rfl, rfl, rfl⟩

/-- A pixel step of error diffusion: what is seen moves by R172's pixel step, the scan position advances, the rows
held stay in the window (R45). -/
theorem diffusionStep_pixel (h : Buffers p s f) (hr : s.rowsOk) (hok : scanOk s) (hd : scanDone s = false) :
    ∃ t, diffusionStep p s = .next t ∧
      Buffers p t (refDiffusionPixel p (p.stencil s.sSel) s.wNat s.hNat f (s.posX.toNat, s.posY.toNat)) ∧
      t.rowsOk ∧ scanOk t ∧ scanIndex t = scanIndex s + 1 ∧ onlyScan s t ∧ memKept s t := by
  obtain ⟨hx, hy, -⟩ := scanIndex_lt hok hd
  set y := s.posY.toNat with hydef
  -- the rows are loaded
  set a := loadRows p y (stencilReach s.sSel) s with ha
  have hBa : Buffers p a f := h.loadRows y _
  have hOa : onlyBuffers s a := onlyBuffers_loadRows p y _ s
  obtain ⟨hwa, hha, hea, hpxa, hpya, hba, hsa⟩ := onlyBuffers_geometry hOa
  have hreach : stencilReach s.sSel ≤ 2 := by
    generalize s.sSel = k
    fin_cases k <;> simp [stencilReach]
  -- the pixel step
  have hS := BufStep.diffusionPixel hBa (by rw [hpxa, hwa]; exact hx) (by rw [hpya, hha]; exact hy)
  set b := diffusionPixel p a with hb
  rw [hwa, hha, hpxa, hpya, hsa] at hS
  obtain ⟨hwb, hhb, heb, hpxb, hpyb, hbb, hsb⟩ := onlyBuffers_geometry hS.only
  -- the advance
  set c := advance b with hc
  have hBc : Buffers p c _ := hS.buf.congr (t := c) (by simp [hc]) (by simp [hc]) (by simp [hc]) (by simp [hc])
    (by simp [hc])
  have hokb : scanOk b := by
    unfold scanOk
    rw [hpxb, hpyb, hwb, hhb, hpxa, hpya, hwa, hha]
    exact .inl ⟨hx, hy⟩
  have hdb : scanDone b = false := by
    have e : scanDone b = scanDone s := by
      simp only [scanDone, hwb, hhb, hwa, hha, hpyb, hpya]
    rw [e, hd]
  obtain ⟨hokc, hidx⟩ := scanIndex_advance hokb hdb
  have hib : scanIndex b = scanIndex s := by
    simp only [scanIndex, hpxb, hpyb, hwb, hpxa, hpya, hwa]
  have hwc : c.wNat = s.wNat := by simp only [hc, State.wNat, advance_wl]; exact hwb.trans hwa
  have hhc : c.hNat = s.hNat := by simp only [hc, State.hNat, advance_hl]; exact hhb.trans hha
  -- the rows held before the scan leaves the row
  have hrows : ∀ j q, (c.slot j).tag = some q →
      slotOf q = j ∧ y ≤ q ∧ q ≤ y + 2 ∧ q < c.hNat ∧ (c.slot j).px.length = c.wNat := by
    intro j q hq
    obtain ⟨h1, h2, h3⟩ := hBc.held j q hq
    have hq' : (a.slot j).tag = some q := by
      rw [← hS.tags j, ← hq]
      exact congrArg RowSlot.tag (slot_congr (by simp [hc]) j).symm
    rcases tag_loadRows p y _ j s hq' with hq' | hq'
    · obtain ⟨-, h5, h6, -⟩ := hr j q hq'
      exact ⟨h1, h5, h6, h2, h3⟩
    · exact ⟨h1, hq'.1, by omega, h2, h3⟩
  have honly : onlyScan s c := onlyScan_trans (onlyScan_of_onlyBuffers (onlyBuffers_trans hOa hS.only)) (onlyScan_advance b)
  have hmem : memKept s c := by
    have h1 := memKept_trans hwa hha (image_loadRows h y (stencilReach s.sSel)) hS.mem
    simpa only [memKept, hc, advance_image] using h1
  have hstep : diffusionStep p s = .next (leaveRow y c) := by
    simp only [diffusionStep, hd, Bool.false_eq_true, if_false]
    rfl
  refine ⟨leaveRow y c, hstep, ?_⟩
  by_cases hrow : b.posX.toNat + 1 < b.wNat
  · -- the scan stays in the row
    have hpyc : c.posY = s.posY := by rw [hc, advance_inRow hrow]; exact hpyb.trans hpya
    have hl : leaveRow y c = c := by simp [leaveRow, hpyc, hydef]
    rw [hl]
    refine ⟨hBc, ?_, hokc, by rw [hidx, hib], honly, hmem⟩
    intro j q hq
    obtain ⟨h1, h2, h3, h4, h5⟩ := hrows j q hq
    rw [hpyc]
    exact ⟨h1, h2, h3, h4, h5⟩
  · -- the scan leaves the row
    have hpyc : c.posY.toNat = y + 1 := by
      rw [hc, advance_nextRow hrow]
      show (b.posY + 1#16).toNat = y + 1
      rw [hpyb, hpya]
      have := s.hl.isLt
      exact toNat_succ16 (n := s.hNat) (by omega) (by simp only [State.hNat]; omega)
    have hl : leaveRow y c = flushSlot (slotOf y) c := by simp [leaveRow, hpyc]
    rw [hl]
    have hOf := onlyBuffers_flushSlot (slotOf y) c
    obtain ⟨hwf, hhf, -, hpxf, hpyf, -⟩ := onlyBuffers_geometry hOf
    have hBf := hBc.flushSlot (slotOf y)
    refine ⟨hBf, ?_, ?_, ?_, onlyScan_trans honly (onlyScan_of_onlyBuffers hOf), ?_⟩
    · intro j q hq
      have ht := tag_flushSlot (slotOf y) j c
      rw [hq] at ht
      by_cases ej : j = slotOf y
      · simp [ej] at ht
      · rw [if_neg ej] at ht
        obtain ⟨h1, h2, h3, h4, h5⟩ := hrows j q ht.symm
        obtain ⟨h6, h7, h8⟩ := hBf.held j q hq
        have hne : q ≠ y := fun e => ej (by rw [← h1, e])
        rw [hpyf, hpyc]
        exact ⟨h6, by omega, by omega, h7, h8⟩
    · unfold scanOk at hokc ⊢
      rw [hpxf, hpyf, hwf, hhf]
      exact hokc
    · have e : scanIndex (flushSlot (slotOf y) c) = scanIndex c := by
        unfold scanIndex
        rw [hpxf, hpyf, hwf]
      rw [e, hidx, hib]
    · exact memKept_trans hwc hhc hmem (image_flushSlot hBc.held (slotOf y))

/-- The last core step of error diffusion: the write-back and the end (R45, R187). -/
theorem diffusionStep_end (h : Buffers p s f) (hd : scanDone s = true) :
    ∃ t, diffusionStep p s = .next t.finish ∧ imgByte p t = f ∧ t.tagsNone ∧ onlyBuffers s t ∧ memKept s t := by
  refine ⟨flushAll s, by simp [diffusionStep, hd], ?_, tag_flushAll s, onlyBuffers_flushAll s, image_flushAll h.held⟩
  exact h.flushAll.image_eq (tag_flushAll s)

/-- The run of error diffusion from any scan position. -/
theorem runToEnd_diffusion :
    ∀ (r n : Nat) (s : State) (f : ImageFn), s.busy = true → Buffers p s f → s.rowsOk → scanOk s →
      scanIndex s + r = s.wNat * s.hNat → r + 1 ≤ n →
      ∃ t, runToEnd (diffusionStep p) n s = .next t.finish ∧
        imgByte p t = ((rasterOrder s.wNat s.hNat).drop (scanIndex s)).foldl
          (refDiffusionPixel p (p.stencil s.sSel) s.wNat s.hNat) f ∧
        t.tagsNone ∧ onlyScan s t ∧ memKept s t ∧ t.posX = 0#16 ∧ t.posY = s.hl := by
  intro r
  induction r with
  | zero =>
    intro n s f hb hB hr hok hi hn
    obtain ⟨n, rfl⟩ : ∃ k, n = k + 1 := ⟨n - 1, by omega⟩
    have hd : scanDone s = true := by
      by_contra hd
      have := (scanIndex_lt hok (by simpa using hd)).2.2
      omega
    obtain ⟨hidx, hx, hy⟩ := scanIndex_done hok hd
    obtain ⟨t, hstep, him, ht, hO, hm⟩ := diffusionStep_end hB hd
    obtain ⟨-, -, -, hpx, hpy, -⟩ := onlyBuffers_geometry hO
    refine ⟨t, runToEnd_last hb hstep rfl, ?_, ht, onlyScan_of_onlyBuffers hO, hm, by rw [hpx, hx], by rw [hpy, hy]⟩
    rw [hidx, rasterOrder_drop_all, List.foldl_nil, him]
  | succ r ih =>
    intro n s f hb hB hr hok hi hn
    obtain ⟨n, rfl⟩ : ∃ k, n = k + 1 := ⟨n - 1, by omega⟩
    have hd : scanDone s = false := by
      by_contra hd
      have := (scanIndex_done hok (by simpa using hd)).1
      omega
    obtain ⟨t, hstep, hBt, hrt, hokt, hit, hO, hm⟩ := diffusionStep_pixel hB hr hok hd
    obtain ⟨hw, hh, hbt, hs, hhl⟩ := onlyScan_geometry hO
    obtain ⟨u, hrun, him, htu, hOu, hmu, hx, hy⟩ :=
      ih n t _ (by rw [hbt, hb]) hBt hrt hokt (by rw [hit, hw, hh]; omega) (by omega)
    have hlt := (scanIndex_lt hok hd).2.2
    have hxlt := (scanIndex_lt hok hd).1
    refine ⟨u, by rw [runToEnd_busy hb hstep, hrun], ?_, htu, onlyScan_trans hO hOu,
      memKept_trans hw hh hm hmu, hx, by rw [hy, hhl]⟩
    rw [him, hw, hh, hs, hit, rasterOrder_drop hlt, List.foldl_cons]
    obtain ⟨e1, e2⟩ := pixelIndex_div_mod (y := s.posY.toNat) hxlt
    simp only [scanIndex, e1, e2]

/-- The run of error diffusion from its acceptance. -/
theorem runToEnd_diffusion_whole (hb : s.busy = true) (ht : s.tagsNone) (hx : s.posX = 0#16) (hy : s.posY = 0#16) :
    ∃ t, runToEnd (diffusionStep p) (coreBound s) s = .next t.finish ∧
      imgByte p t = refDiffusion p (p.stencil s.sSel) s.wNat s.hNat (imgByte p s) ∧
      t.tagsNone ∧ onlyScan s t ∧ memKept s t ∧ t.posX = 0#16 ∧
      t.posY = if s.wNat * s.hNat = 0 then 0#16 else s.hl := by
  have hB := Buffers.of_tagsNone p ht
  have hr : s.rowsOk := by
    intro j q hq
    rw [ht] at hq
    simp at hq
  by_cases h0 : s.wNat * s.hNat = 0
  · have hd : scanDone s = true := by simp [scanDone, h0]
    obtain ⟨t, hstep, him, htt, hO, hm⟩ := diffusionStep_end hB hd
    obtain ⟨-, -, -, hpx, hpy, -⟩ := onlyBuffers_geometry hO
    refine ⟨t, ?_, ?_, htt, onlyScan_of_onlyBuffers hO, hm, by rw [hpx, hx], by rw [hpy, hy, if_pos h0]⟩
    · rw [coreBound, h0]
      exact runToEnd_last hb hstep rfl
    · have : rasterOrder s.wNat s.hNat = [] := by rw [rasterOrder_eq, h0]; rfl
      rw [him, refDiffusion, this, List.foldl_nil]
  · have hw : 0 < s.wNat := Nat.pos_of_ne_zero fun e => h0 (by simp [e])
    have hh : 0 < s.hNat := Nat.pos_of_ne_zero fun e => h0 (by simp [e])
    have hi : scanIndex s = 0 := by simp [scanIndex, hx, hy]
    have hok : scanOk s := .inl (by simp [hx, hy, hw, hh])
    obtain ⟨t, hrun, him, htt, hO, hm, hpx, hpy⟩ :=
      runToEnd_diffusion (p := p) (s.wNat * s.hNat) (coreBound s) s _ hb hB hr hok (by omega)
        (by simp only [coreBound]; omega)
    refine ⟨t, hrun, ?_, htt, hO, hm, hpx, by rw [hpy, if_neg h0]⟩
    rw [him, hi, List.drop_zero]
    rfl

end Sys2Proof.Laws
end

