-- ==== Sys2Proof/Laws/Words.lean ====
section
/-! SUPPORT. Words, their bytes and their fields: putting together and taking apart (R65, R98). -/

namespace Sys2Proof.Laws
open Sys2Proof.Machine

/-- Zeros in front of a value are its zero extension. -/
theorem zero_append {m n : Nat} (x : BitVec n) : (0#m ++ x) = (x.setWidth (m + n)) := by
  apply BitVec.eq_of_getLsbD_eq
  intro i hi
  simp only [BitVec.getLsbD_append, BitVec.getLsbD_setWidth]
  split
  · simp [hi]
  · rename_i h
    simp [BitVec.getLsbD_of_ge x i (by omega)]

/-- The four bytes of a word put together are the word (R65). -/
theorem wordOfBytes_byteOfWord (w : Word) :
    wordOfBytes (byteOfWord w 0) (byteOfWord w 1) (byteOfWord w 2) (byteOfWord w 3) = w := by
  apply BitVec.eq_of_getLsbD_eq
  intro i hi
  simp only [wordOfBytes, byteOfWord, BitVec.getLsbD_append, BitVec.getLsbD_extractLsb']
  split
  · simp_all
  · split
    · have : 8 + (i - 8) = i := by omega
      simp_all
    · split
      · have : 16 + (i - 8 - 8) = i := by omega
        simp_all
      · have : 24 + (i - 8 - 8 - 8) = i := by omega
        have : i - 8 - 8 - 8 < 8 := by omega
        simp_all

/-- The bytes of a word put together are those put in (R65). -/
theorem byteOfWord_wordOfBytes (b0 b1 b2 b3 : Byte) :
    byteOfWord (wordOfBytes b0 b1 b2 b3) 0 = b0 ∧ byteOfWord (wordOfBytes b0 b1 b2 b3) 1 = b1 ∧
    byteOfWord (wordOfBytes b0 b1 b2 b3) 2 = b2 ∧ byteOfWord (wordOfBytes b0 b1 b2 b3) 3 = b3 := by
  have e1 : ∀ i, 8 + i - 8 = i := by omega
  have e2 : ∀ i, 16 + i - 8 - 8 = i := by omega
  have e3 : ∀ i, 24 + i - 8 - 8 - 8 = i := by omega
  refine ⟨?_, ?_, ?_, ?_⟩ <;>
  · apply BitVec.eq_of_getLsbD_eq
    intro i hi
    simp only [wordOfBytes, byteOfWord, BitVec.getLsbD_append, BitVec.getLsbD_extractLsb']
    repeat (first | rw [if_pos (by omega)] | rw [if_neg (by omega)])
    simp [hi, e1, e2, e3]

end Sys2Proof.Laws
end

