-- ==== Sys2Proof/Laws/Step.lean ====
section
/-! SUPPORT. What a step does: the host's next act on the state without it, or the rest of the running command. -/

namespace Sys2Proof.Laws
open Sys2Proof.Machine

/-- A due act acts on the state without it, busy or idle (R222; log 1). -/
theorem step_facing {s : State} {after : Option Nat} (h : s.due after) (act : HostAct) :
    step (s.facing after act) = hostAct Config.hw exec act s := by
  unfold step stepWith
  rcases h with h | rfl
  · rw [if_neg (by simp [State.facing, h])]; rfl
  · by_cases h : (s.facing (some 0) act).busy = true
    · rw [if_pos h]; rfl
    · rw [if_neg h]; rfl

/-- The next act of a host of an idle block. -/
theorem step_idle {s : State} {q : Pending} {rest : List Pending} (h : s.busy = false) (hq : s.host = q :: rest) :
    step s = hostAct Config.hw exec q.act { s with host := rest } := by
  unfold step stepWith
  rw [if_neg (by simp [h]), hq]

/-- An idle block without pending acts. -/
theorem step_idle_none {s : State} (h : s.busy = false) (hq : s.host = []) : step s = .next s := by
  unfold step stepWith
  rw [if_neg (by simp [h]), hq]

/-- The act of a host of a busy block that does not wait any longer. -/
theorem step_busy_act {s : State} {act : HostAct} {rest : List Pending} (h : s.busy = true)
    (hq : s.host = ⟨some 0, act⟩ :: rest) : step s = hostAct Config.hw exec act { s with host := rest } := by
  unfold step stepWith
  rw [if_pos h, hq]

/-- A core step of a busy block whose host does not wait. -/
theorem step_busy_core {s : State} {k : Nat} {act : HostAct} {rest : List Pending} (h : s.busy = true)
    (hq : s.host = ⟨some (k + 1), act⟩ :: rest) :
    step s = coreStep Config.hw { s with host := ⟨some k, act⟩ :: rest } := by
  unfold step stepWith
  rw [if_pos h, hq]

/-- A busy block whose host waits. -/
theorem step_rest {s : State} (h : s.busy = true) (hw : s.hostWaits = true) :
    step s = restOfCommand Config.hw s := by
  unfold step stepWith
  unfold State.hostWaits at hw
  rw [if_pos h]
  split <;> simp_all

/-- Everything a step can do (R222; log 1). -/
theorem step_cases (s : State) :
    (s.busy = false ∧ s.host = [] ∧ step s = .next s) ∨
    (∃ q rest, s.busy = false ∧ s.host = q :: rest ∧
      step s = hostAct Config.hw exec q.act { s with host := rest }) ∨
    (∃ act rest, s.busy = true ∧ s.host = ⟨some 0, act⟩ :: rest ∧
      step s = hostAct Config.hw exec act { s with host := rest }) ∨
    (∃ k act rest, s.busy = true ∧ s.host = ⟨some (k + 1), act⟩ :: rest ∧
      step s = coreStep Config.hw { s with host := ⟨some k, act⟩ :: rest }) ∨
    (s.busy = true ∧ s.hostWaits = true ∧ step s = restOfCommand Config.hw s) := by
  by_cases hb : s.busy = true
  · right; right
    by_cases hw : s.hostWaits = true
    · exact .inr (.inr ⟨hb, hw, step_rest hb hw⟩)
    · unfold State.hostWaits at hw
      split at hw
      · rename_i k act rest hq
        cases k with
        | zero => exact .inl ⟨act, rest, hb, hq, step_busy_act hb hq⟩
        | succ k => exact .inr (.inl ⟨k, act, rest, hb, hq, step_busy_core hb hq⟩)
      · simp at hw
  · have hb : s.busy = false := by simpa using hb
    match hq : s.host with
    | [] => exact .inl ⟨hb, rfl, step_idle_none hb hq⟩
    | q :: rest => exact .inr (.inl ⟨q, rest, hb, rfl, step_idle hb hq⟩)

/-! ### Encoding -/

/-- Decoding inverts encoding, word by word (R91). -/
@[simp] theorem decode_encode (i : Instr) : decode (encode i) = .ok i := by cases i <;> rfl

/-- A word that decodes is the command's word (R91). -/
theorem encode_of_decode {w : Word} {i : Instr} (h : decode w = .ok i) : w = encode i := by
  unfold decode at h
  split at h
  · rename_i hz
    have hn : w.toNat = (w.extractLsb' 0 8).toNat := by
      have e := congrArg BitVec.toNat hz
      simp [BitVec.extractLsb'_toNat, Nat.shiftRight_eq_div_pow] at e ⊢
      omega
    revert h hn
    generalize (w.extractLsb' 0 8).toNat = n
    intro h hn
    apply BitVec.eq_of_toNat_eq
    rw [hn]
    match n, h with
    | 0, h => cases h; rfl
    | 1, h => cases h; rfl
    | 2, h => cases h; rfl
    | 3, h => cases h; rfl
    | 4, h => cases h; rfl
    | 5, h => cases h; rfl
    | 6, h => cases h; rfl
    | _ + 7, h => simp [decodeOpcode] at h
  · cases h

/-- Two commands with one word are the same command. -/
theorem encode_inj {i j : Instr} (h : encode i = encode j) : i = j := by
  cases i <;> cases j <;> first | rfl | exact absurd h (by decide)

/-- The core step of a state that latched a command (R222). -/
theorem coreStep_of_op {p : Params} {s : State} {i : Instr} (h : s.op = encode i) :
    coreStep p s = commandStep p i s := by
  simp [coreStep, h]

end Sys2Proof.Laws
end

