-- ==== Sys2Proof/Laws/Commands.lean ====
section
/-! SUPPORT. What each command can do: the meanings as one life cycle (R215), their core steps, and their runs. -/

namespace Sys2Proof.Laws
open Sys2Proof.Machine

variable {p : Params} {s t : State} {i : Instr}

/-! ### Every meaning is the life cycle of R215 -/

/-- What a command samples at acceptance besides the geometry (R46). -/
def latchOf : Instr → State → State
  | .dither => latchMethod
  | _ => id

/-- The entry check of a command (R121, R128, R171). -/
def checkOf (p : Params) : Instr → State → Word
  | .buildLut => fun t => paramCheck t.gamma t.contrast t.lightness
  | .applyLut => applyCheck p
  | .dither => ditherCheck p
  | _ => fun _ => 0#32

/-- The kind a failed entry check raises (R231, R232). -/
def kindOf : Instr → ErrorKind
  | .buildLut => .invalidParameter
  | _ => .invalidArgument

theorem exec_eq_runCommand (i : Instr) (s : State) :
    exec i s = runCommand (encode i) (kindOf i) (latchOf i) (checkOf Config.hw i) (commandStep Config.hw i) s := by
  cases i <;> rfl

/-- The state a command is accepted in. -/
def acceptedBy (i : Instr) (s : State) : State := accepted (encode i) (latchOf i) s

/-- Acceptance writes the life cycle's fields and, for `DITHER`, the sampled method and stencil (R215, R46). -/
theorem acceptedBy_eq (i : Instr) (s : State) : acceptedBy i s =
    { s with
      op := encode i, wl := s.width, hl := s.height, busy := true, done := false, err := 0#3, errInfo := 0#32
      posY := 0#16, posX := 0#16, m := (acceptedBy i s).m, sSel := (acceptedBy i s).sSel } := by
  cases i <;> rfl

@[simp] theorem acceptedBy_busy : (acceptedBy i s).busy = true := by rw [acceptedBy_eq]
@[simp] theorem acceptedBy_op : (acceptedBy i s).op = encode i := by rw [acceptedBy_eq]
@[simp] theorem acceptedBy_posX : (acceptedBy i s).posX = 0#16 := by rw [acceptedBy_eq]
@[simp] theorem acceptedBy_posY : (acceptedBy i s).posY = 0#16 := by rw [acceptedBy_eq]
@[simp] theorem acceptedBy_wl : (acceptedBy i s).wl = s.width := by rw [acceptedBy_eq]
@[simp] theorem acceptedBy_hl : (acceptedBy i s).hl = s.height := by rw [acceptedBy_eq]
@[simp] theorem acceptedBy_host : (acceptedBy i s).host = s.host := by rw [acceptedBy_eq]
@[simp] theorem acceptedBy_rowbuf : (acceptedBy i s).rowbuf = s.rowbuf := by rw [acceptedBy_eq]
@[simp] theorem acceptedBy_image : (acceptedBy i s).image = s.image := by rw [acceptedBy_eq]
@[simp] theorem acceptedBy_epoch : (acceptedBy i s).epoch = s.epoch := by rw [acceptedBy_eq]
@[simp] theorem acceptedBy_bufv : (acceptedBy i s).bufv = s.bufv := by rw [acceptedBy_eq]
@[simp] theorem acceptedBy_lutv : (acceptedBy i s).lutv = s.lutv := by rw [acceptedBy_eq]
@[simp] theorem acceptedBy_hostWaits : (acceptedBy i s).hostWaits = s.hostWaits := hostWaits_congr (by simp)
@[simp] theorem acceptedBy_wNat : (acceptedBy i s).wNat = s.width.toNat := by simp [State.wNat]
@[simp] theorem acceptedBy_hNat : (acceptedBy i s).hNat = s.height.toNat := by simp [State.hNat]

/-- Everything a meaning can do: ignored while busy, a failed entry check, accepted by a host that does not wait, or
run whole (R215, R219, R222). -/
theorem exec_cases (i : Instr) (s : State) :
    (s.busy = true ∧ exec i s = .next s) ∨
    (s.busy = false ∧ checkOf Config.hw i (acceptedBy i s) ≠ 0#32 ∧
      exec i s = .next ((acceptedBy i s).raise (kindOf i) (checkOf Config.hw i (acceptedBy i s)))) ∨
    (s.busy = false ∧ checkOf Config.hw i (acceptedBy i s) = 0#32 ∧ s.hostWaits = true ∧
      exec i s = runToEnd (commandStep Config.hw i) (coreBound (acceptedBy i s)) (acceptedBy i s)) ∨
    (s.busy = false ∧ checkOf Config.hw i (acceptedBy i s) = 0#32 ∧ s.hostWaits = false ∧
      exec i s = .next (acceptedBy i s)) := by
  rw [exec_eq_runCommand, ← acceptedBy_hostWaits (i := i) (s := s)]
  exact runCommand_cases (encode i) (kindOf i) (latchOf i) (checkOf Config.hw i) (commandStep Config.hw i) s

/-- A failed entry check. -/
theorem exec_failed (h : s.busy = false) (hc : checkOf Config.hw i (acceptedBy i s) ≠ 0#32) :
    exec i s = .next ((acceptedBy i s).raise (kindOf i) (checkOf Config.hw i (acceptedBy i s))) := by
  rw [exec_eq_runCommand]
  exact runCommand_failed h hc

/-- A command of a host that waits. -/
theorem exec_whole (h : s.ready) (hc : checkOf Config.hw i (acceptedBy i s) = 0#32) :
    exec i s = runToEnd (commandStep Config.hw i) (coreBound (acceptedBy i s)) (acceptedBy i s) := by
  rw [exec_eq_runCommand]
  refine runCommand_whole h.1 hc ?_
  show (acceptedBy i s).hostWaits = true
  rw [acceptedBy_hostWaits]
  exact h.2

/-- A command whose only core step ends it. -/
theorem exec_oneStep (h : s.ready) (hc : checkOf Config.hw i (acceptedBy i s) = 0#32)
    (hs : commandStep Config.hw i (acceptedBy i s) = .next t) (ht : t.busy = false) : exec i s = .next t := by
  rw [exec_whole h hc]
  exact runToEnd_last acceptedBy_busy hs ht

/-! ### The scan position and the frame of error diffusion, whatever the row buffer holds -/

theorem onlyBuffers_spreadEntry (p : Params) (x y : Nat) (ent : StencilEntry) (s : State) :
    onlyBuffers s (spreadEntry p x y ent s) := by
  simp only [spreadEntry]
  split
  · exact onlyBuffers_setBufPixel ..
  · rfl

theorem onlyBuffers_spreadError (p : Params) (x y : Nat) (st : List StencilEntry) (k : Nat) (s : State) :
    onlyBuffers s (spreadError p x y k st s) := by
  induction st generalizing k s with
  | nil => rfl
  | cons ent rest ih =>
    exact onlyBuffers_trans (t := { s with kIdx := Fin.ofNat 12 k }) rfl
      (onlyBuffers_trans (onlyBuffers_spreadEntry p x y ent _) (ih (k + 1) _))

theorem onlyBuffers_diffusionPixel (p : Params) (s : State) : onlyBuffers s (diffusionPixel p s) := by
  simp only [diffusionPixel]
  set old := bufPixel p s s.posX.toNat s.posY.toNat
  set new := nearestRgb p old
  set a : State := { s with old := old, new := new } with ha
  set b := setBufPixel a s.posX.toNat s.posY.toNat new with hb
  have h1 : onlyBuffers s a := rfl
  have h2 : onlyBuffers a b := onlyBuffers_setBufPixel ..
  have h3 : onlyBuffers b { b with errE := pixelError old new } := rfl
  exact onlyBuffers_trans h1 (onlyBuffers_trans h2 (onlyBuffers_trans h3 (onlyBuffers_spreadError ..)))

/-- The advance depends on the scan position and the width alone. -/
theorem advance_congr (hx : t.posX = s.posX) (hy : t.posY = s.posY) (hw : t.wNat = s.wNat) :
    (advance t).posX = (advance s).posX ∧ (advance t).posY = (advance s).posY := by
  by_cases h : s.posX.toNat + 1 < s.wNat
  · rw [advance_inRow h, advance_inRow (by rw [hx, hw]; exact h)]
    exact ⟨by rw [hx], hy⟩
  · rw [advance_nextRow h, advance_nextRow (by rw [hx, hw]; exact h)]
    exact ⟨rfl, by rw [hy]⟩

/-- A pixel step of a scanning command: the frame, and the advance of the scan position (R40). -/
def scanStep (s t : State) : Prop := onlyScan s t ∧ t.posX = (advance s).posX ∧ t.posY = (advance s).posY

theorem scanStep_diffusion (hd : scanDone s = false) : ∃ t, diffusionStep p s = .next t ∧ scanStep s t := by
  have h1 := onlyBuffers_loadRows p s.posY.toNat (stencilReach s.sSel) s
  have h2 := onlyBuffers_diffusionPixel p (loadRows p s.posY.toNat (stencilReach s.sSel) s)
  have h3 := onlyBuffers_trans h1 h2
  obtain ⟨hw, -, -, hx, hy, -⟩ := onlyBuffers_geometry h3
  have hs : diffusionStep p s =
      .next (leaveRow s.posY.toNat (advance (diffusionPixel p (loadRows p s.posY.toNat (stencilReach s.sSel) s)))) := by
    unfold diffusionStep
    rw [if_neg (by simp [hd])]
  refine ⟨_, hs, ?_⟩
  set b := diffusionPixel p (loadRows p s.posY.toNat (stencilReach s.sSel) s)
  obtain ⟨ax, ay⟩ := advance_congr (t := b) hx hy hw
  have h4 := onlyScan_trans (onlyScan_of_onlyBuffers h3) (onlyScan_advance b)
  unfold leaveRow
  split
  · exact ⟨h4, ax, ay⟩
  · have h5 := onlyBuffers_flushSlot (slotOf s.posY.toNat) (advance b)
    obtain ⟨-, -, -, fx, fy, -⟩ := onlyBuffers_geometry h5
    exact ⟨onlyScan_trans h4 (onlyScan_of_onlyBuffers h5), by rw [fx, ax], by rw [fy, ay]⟩

theorem scanStep_pointwise (g : Nat → Nat → Pixel → Pixel) (hd : scanDone s = false) :
    ∃ t, pointwiseStep p g s = .next t ∧ scanStep s t := by
  have hs : pointwiseStep p g s = .next (advance (setImgPixel s s.posX.toNat s.posY.toNat
      (g s.posX.toNat s.posY.toNat (imgPixel p s s.posX.toNat s.posY.toNat)))) := by
    unfold pointwiseStep
    rw [if_neg (by simp [hd])]
  refine ⟨_, hs, ?_⟩
  set b := setImgPixel s s.posX.toNat s.posY.toNat (g s.posX.toNat s.posY.toNat (imgPixel p s s.posX.toNat s.posY.toNat))
  obtain ⟨ax, ay⟩ := advance_congr (s := s) (t := b) rfl rfl rfl
  exact ⟨onlyScan_trans (t := b) rfl (onlyScan_advance b), ax, ay⟩

/-- `APPLY_LUT` with built tables is a pixelwise method (R127, R129). -/
theorem applyLutStep_eq (h : s.lutv = true) :
    applyLutStep p s = pointwiseStep p (fun _ _ => tonePixel s) s := by
  simp [applyLutStep, pointwiseStep, h]

/-- A core step of a scanning command is a pixel step, or the end of the scan. -/
theorem commandStep_scan (hi : i = .dither ∨ (i = .applyLut ∧ s.lutv = true)) :
    (scanDone s = false ∧ ∃ t, commandStep p i s = .next t ∧ scanStep s t) ∨
    (scanDone s = true ∧ ∃ t, commandStep p i s = .next t.finish ∧ onlyBuffers s t) := by
  have hpw : ∀ g, (scanDone s = false ∧ ∃ t, pointwiseStep p g s = .next t ∧ scanStep s t) ∨
      (scanDone s = true ∧ ∃ t, pointwiseStep p g s = .next t.finish ∧ onlyBuffers s t) := by
    intro g
    by_cases hd : scanDone s = true
    · exact .inr ⟨hd, s, by simp [pointwiseStep, hd], rfl⟩
    · have hd : scanDone s = false := by simpa using hd
      exact .inl ⟨hd, scanStep_pointwise g hd⟩
  rcases hi with rfl | ⟨rfl, hl⟩
  · simp only [commandStep, ditherStep]
    split
    · by_cases hd : scanDone s = true
      · exact .inr ⟨hd, flushAll s, by simp [diffusionStep, hd], onlyBuffers_flushAll s⟩
      · have hd : scanDone s = false := by simpa using hd
        exact .inl ⟨hd, scanStep_diffusion hd⟩
    · split <;> exact hpw _
  · simp only [commandStep, applyLutStep_eq hl]
    exact hpw _

/-! ### Runs of scanning commands end -/

/-- The scan position is a pixel, the end of the scan, or that of an image without pixels (R40). -/
def scanReady (s : State) : Prop := scanOk s ∨ s.wNat * s.hNat = 0

/-- The pixels still to visit. -/
def scanLeft (s : State) : Nat := s.wNat * s.hNat - scanIndex s

theorem scanDone_congr (hw : t.wNat = s.wNat) (hh : t.hNat = s.hNat) (hy : t.posY = s.posY) :
    scanDone t = scanDone s := by
  simp only [scanDone, hw, hh, hy]

/-- Every run of a scanning command ends, `BUSY` falls, and nothing but the image, the row buffer, the stencil state
and the scan position moves (R215). -/
theorem runToEnd_scan {f : State → Result}
    (hf : ∀ u : State, u.lutv = s.lutv → u.m = s.m →
      (scanDone u = false ∧ ∃ t, f u = .next t ∧ scanStep u t) ∨
      (scanDone u = true ∧ ∃ t, f u = .next t.finish ∧ onlyBuffers u t)) :
    ∀ (r n : Nat) (u : State), onlyScan s u → s.busy = true → scanReady u → scanLeft u ≤ r → r + 1 ≤ n →
      ∃ t, runToEnd f n u = .next t.finish ∧ onlyScan s t ∧
        t.posX = (if s.wNat * s.hNat = 0 then u.posX else 0#16) ∧
        t.posY = (if s.wNat * s.hNat = 0 then u.posY else s.hl) := by
  intro r
  induction r with
  | zero =>
    intro n u hu hb hr hl hn
    obtain ⟨n, rfl⟩ : ∃ k, n = k + 1 := ⟨n - 1, by omega⟩
    obtain ⟨hw, hh, hbu, -, hhl⟩ := onlyScan_geometry hu
    have hkeep : u.lutv = s.lutv ∧ u.m = s.m := by
      unfold onlyScan at hu; rw [hu]; exact ⟨rfl, rfl⟩
    rcases hf u hkeep.1 hkeep.2 with ⟨hd, t, ht, hst⟩ | ⟨hd, t, ht, hO⟩
    · exfalso
      rcases hr with hr | hr
      · have := (scanIndex_lt hr hd).2.2
        simp only [scanLeft] at hl
        omega
      · simp [scanDone, hr] at hd
    · obtain ⟨-, -, -, hx, hy, -⟩ := onlyBuffers_geometry hO
      refine ⟨t, runToEnd_last (by rw [hbu, hb]) ht rfl, onlyScan_trans hu (onlyScan_of_onlyBuffers hO), ?_, ?_⟩
      · split
        · exact hx
        · rename_i h0
          rcases hr with hr | hr
          · rw [hx, (scanIndex_done hr hd).2.1]
          · exact absurd (by rw [← hw, ← hh]; exact hr) h0
      · split
        · exact hy
        · rename_i h0
          rcases hr with hr | hr
          · rw [hy, (scanIndex_done hr hd).2.2, hhl]
          · exact absurd (by rw [← hw, ← hh]; exact hr) h0
  | succ r ih =>
    intro n u hu hb hr hl hn
    obtain ⟨n, rfl⟩ : ∃ k, n = k + 1 := ⟨n - 1, by omega⟩
    obtain ⟨hw, hh, hbu, -, hhl⟩ := onlyScan_geometry hu
    have hkeep : u.lutv = s.lutv ∧ u.m = s.m := by
      unfold onlyScan at hu; rw [hu]; exact ⟨rfl, rfl⟩
    rcases hf u hkeep.1 hkeep.2 with ⟨hd, t, ht, hst, hx, hy⟩ | ⟨hd, t, ht, hO⟩
    · have hr : scanOk u := by
        rcases hr with hr | hr
        · exact hr
        · simp [scanDone, hr] at hd
      have hlt := (scanIndex_lt hr hd).2.2
      obtain ⟨hok, hidx⟩ := scanIndex_advance hr hd
      obtain ⟨hw', hh', hbt, -, -⟩ := onlyScan_geometry hst
      have hwa : (advance u).wNat = u.wNat := by simp [State.wNat]
      have hha : (advance u).hNat = u.hNat := by simp [State.hNat]
      have hokt : scanOk t := by
        unfold scanOk at hok ⊢
        rw [hx, hy, hw', hh', ← hwa, ← hha]
        exact hok
      have hit : scanIndex t = scanIndex u + 1 := by
        rw [← hidx]
        unfold scanIndex
        rw [hx, hy, hw', hwa]
      have h0 : ¬s.wNat * s.hNat = 0 := by rw [← hw, ← hh]; omega
      obtain ⟨v, hv, hOv, hvx, hvy⟩ := ih n t (onlyScan_trans hu hst) hb (.inl hokt)
        (by simp only [scanLeft] at hl ⊢; rw [hw', hh', hit]; omega) (by omega)
      rw [if_neg h0] at hvx hvy
      exact ⟨v, by rw [runToEnd_busy (by rw [hbu, hb]) ht, hv], hOv, by rw [if_neg h0, hvx], by rw [if_neg h0, hvy]⟩
    · obtain ⟨t', h1, h2⟩ := ih (n + 1) u hu hb hr (by
        rcases hr with hr | hr
        · have := (scanIndex_done hr hd).1
          simp only [scanLeft]; omega
        · simp only [scanLeft, hr]; omega) (by omega)
      exact ⟨t', h1, h2⟩

/-! ### What the scanning commands leave -/

/-- What can be seen after a scanning command, the image's bytes apart (R40, R215). -/
theorem visible_scan (hO : onlyScan (acceptedBy i s) t) (hx : t.posX = 0#16)
    (hy : t.posY = if s.width.toNat * s.height.toNat = 0 then 0#16 else s.height) :
    t.finish.visible = ({ (s.completed i).scanned with image := t.image } : State).visible := by
  unfold onlyScan at hO
  rw [acceptedBy_eq] at hO
  refine (congrArg (fun u : State => u.finish.visible) hO).trans ?_
  dsimp only [State.finish, State.visible, State.completed, State.scanned]
  rw [hx, hy]

/-- The scan of an accepted command is ready (R40, R215). -/
theorem scanReady_acceptedBy (i : Instr) (s : State) : scanReady (acceptedBy i s) := by
  unfold scanReady scanOk
  simp only [acceptedBy_posX, acceptedBy_posY, acceptedBy_wNat, acceptedBy_hNat]
  by_cases h0 : s.width.toNat * s.height.toNat = 0
  · exact .inr h0
  · refine .inl (.inl ⟨?_, ?_⟩)
    · exact Nat.pos_of_ne_zero fun e => h0 (by rw [e, Nat.zero_mul])
    · exact Nat.pos_of_ne_zero fun e => h0 (by rw [e, Nat.mul_zero])

/-- A scanning command that passes its entry check completes; what it moves, and where the scan ends. -/
theorem exec_scan (hi : i = .dither ∨ (i = .applyLut ∧ s.lutv = true)) (h : s.ready)
    (hc : checkOf Config.hw i (acceptedBy i s) = 0#32) :
    ∃ t, exec i s = .next t.finish ∧ onlyScan (acceptedBy i s) t ∧ t.posX = 0#16 ∧
      t.posY = if s.width.toNat * s.height.toNat = 0 then 0#16 else s.height := by
  rw [exec_whole h hc]
  obtain ⟨t, h1, h2, h3, h4⟩ := runToEnd_scan (s := acceptedBy i s) (f := commandStep Config.hw i)
    (fun u hl _ => commandStep_scan (hi.imp id (fun ⟨a, b⟩ => ⟨a, by rw [hl]; simpa using b⟩)))
    _ (coreBound (acceptedBy i s)) (acceptedBy i s) rfl acceptedBy_busy (scanReady_acceptedBy i s)
    (Nat.sub_le _ _) (by simp [coreBound])
  refine ⟨t, h1, h2, ?_, ?_⟩
  · rw [h3]; simp
  · rw [h4]; simp

/-- The entry check of `APPLY_LUT` passes on a present, non-empty buffer that fits, with built tables (R128). -/
theorem check_apply (h1 : s.bufv = true) (h2 : s.lutv = true) (h3 : s.width.toNat * s.height.toNat ≠ 0)
    (h4 : s.bufferSize ≤ Config.hw.imgCap) : checkOf Config.hw .applyLut (acceptedBy .applyLut s) = 0#32 := by
  rw [acceptedBy_eq]
  dsimp only [checkOf, applyCheck, State.imageSize, State.wNat, State.hNat]
  simp only [State.bufferSize] at h4
  have : ¬Config.hw.imgCap < 3 * s.width.toNat * s.height.toNat := by omega
  simp only [cause, h1, h2]
  simp [this, h3]

/-- The entry check of `DITHER` passes on a present buffer that fits (R171). -/
theorem check_dither (h1 : s.bufv = true) (h4 : s.bufferSize ≤ Config.hw.imgCap) :
    checkOf Config.hw .dither (acceptedBy .dither s) = 0#32 := by
  rw [acceptedBy_eq]
  dsimp only [checkOf, ditherCheck, State.imageSize, State.wNat, State.hNat]
  simp only [State.bufferSize] at h4
  have : ¬Config.hw.imgCap < 3 * s.width.toNat * s.height.toNat := by omega
  simp only [cause, h1]
  simp [this]

/-- A pixelwise command that passes its entry check, run whole (R127, R182, R205). -/
theorem exec_pointwise {g : Nat → Nat → Pixel → Pixel} (h : s.ready)
    (hc : checkOf Config.hw i (acceptedBy i s) = 0#32)
    (hcore : ∀ img y x, commandStep Config.hw i (scanAt (acceptedBy i s) img y x) =
      pointwiseStep Config.hw g (scanAt (acceptedBy i s) img y x)) :
    ∃ t, exec i s = .next t.finish ∧ onlyScan (acceptedBy i s) t ∧ t.posX = 0#16 ∧
      (t.posY = if s.width.toNat * s.height.toNat = 0 then 0#16 else s.height) ∧
      imgByte Config.hw t = refPointwise g s.width.toNat s.height.toNat (imgByte Config.hw s) ∧
      t.rowbuf = s.rowbuf := by
  rw [exec_whole h hc]
  obtain ⟨img', h1, h2, h3, h4⟩ := runToEnd_pointwise_whole hcore acceptedBy_busy acceptedBy_posX acceptedBy_posY
  simp only [acceptedBy_wNat, acceptedBy_hNat, acceptedBy_hl] at h1 h4
  refine ⟨_, h1, rfl, rfl, rfl, ?_, by simp [scanAt]⟩
  rw [h4, imgByte_congr Config.hw (s := s) (by simp) (by simp)]

/-- The methods 0, 1 and 2 as signed values (R95). -/
theorem methodOf_fin (k : Fin 3) : methodOf (BitVec.ofNat 32 k.val) = k.val := by
  fin_cases k <;> decide

/-- A step of error diffusion keeps the sampled method (R46). -/
theorem diffusionStep_m (h : diffusionStep p s = .next t) : t.m = s.m := by
  by_cases hd : scanDone s = true
  · have hO := onlyBuffers_flushAll s
    rw [show diffusionStep p s = .next (flushAll s).finish by simp [diffusionStep, hd]] at h
    cases h
    unfold onlyBuffers at hO
    show (flushAll s).m = s.m
    rw [hO]
  · obtain ⟨t', ht, hO, -⟩ := scanStep_diffusion (p := p) (s := s) (by simpa using hd)
    rw [ht] at h
    cases h
    unfold onlyScan at hO
    rw [hO]

/-- An error-diffusion command that passes its entry check, run whole from an empty row buffer (R172, R45). -/
theorem exec_diffusion {k : Fin 3} (h : s.ready) (ht : s.tagsNone)
    (hc : checkOf Config.hw .dither (acceptedBy .dither s) = 0#32) (hm : methodOf s.method = k.val) :
    ∃ t, exec .dither s = .next t.finish ∧ onlyScan (acceptedBy .dither s) t ∧ t.posX = 0#16 ∧
      (t.posY = if s.width.toNat * s.height.toNat = 0 then 0#16 else s.height) ∧
      imgByte Config.hw t =
        refDiffusion Config.hw (Config.hw.stencil k) s.width.toNat s.height.toNat (imgByte Config.hw s) ∧
      t.tagsNone := by
  have hsel : (acceptedBy .dither s).sSel = k := by
    show (if methodOf s.method = 0 then (0 : Fin 3) else if methodOf s.method = 1 then 1
      else if methodOf s.method = 2 then 2 else s.sSel) = k
    rw [hm]
    fin_cases k <;> rfl
  have hd : ∀ u : State, u.m = s.method → ditherStep Config.hw u = diffusionStep Config.hw u := by
    intro u hu
    unfold ditherStep
    rw [hu, hm, if_pos (by fin_cases k <;> simp)]
  have ht' : (acceptedBy .dither s).tagsNone := fun j => by rw [slot_congr acceptedBy_rowbuf]; exact ht j
  obtain ⟨t, hrun, him, htt, hO, hmem, hx, hy⟩ :=
    runToEnd_diffusion_whole (p := Config.hw) acceptedBy_busy ht' acceptedBy_posX acceptedBy_posY
  have hrun' : exec .dither s = .next t.finish := by
    rw [exec_whole h hc, ← hrun]
    exact runToEnd_congr (fun u => u.m = s.method) (fun u hu _ => hd u hu)
      (fun u v hu _ hv _ => (diffusionStep_m hv).trans hu) _ rfl
  simp only [acceptedBy_wNat, acceptedBy_hNat, acceptedBy_hl, hsel] at him hy
  refine ⟨t, hrun', hO, hx, hy, ?_, htt⟩
  rw [him, imgByte_congr Config.hw (s := s) (by simp) (by simp)]

/-- An entry of a whole table (R120). -/
@[simp] theorem tableAt_tableOf (f : Byte → Byte) (i : Byte) : tableAt (tableOf f) i = f i := by
  simp [tableAt, tableOf]

end Sys2Proof.Laws
end

