-- ==== Sys2Proof/Laws/Frames.lean ====
section
/-! SUPPORT. Everything a core step, a run and an act of the host can do, said once. -/

namespace Sys2Proof.Laws
open Sys2Proof.Machine

variable {p : Params} {s t : State} {i : Instr}

/-! ### A core step -/

/-- A core step of a scanning command that goes on, whatever the tables. -/
theorem scan_of_next (hi : i = .dither ∨ i = .applyLut) (h : commandStep p i s = .next t) :
    (scanDone s = false ∧ (i = .applyLut → s.lutv = true) ∧ scanStep s t) ∨
    (scanDone s = true ∧ ∃ u, t = u.finish ∧ onlyBuffers s u) := by
  by_cases hl : i = .applyLut ∧ s.lutv = false
  · obtain ⟨rfl, hl⟩ := hl
    by_cases hd : scanDone s = true
    · rw [show commandStep p .applyLut s = .next s.finish by simp [commandStep, applyLutStep, hd]] at h
      cases h
      exact .inr ⟨hd, s, rfl, rfl⟩
    · simp [commandStep, applyLutStep, hd, hl] at h
  · have hl' : i = .applyLut → s.lutv = true := by
      intro e
      cases hv : s.lutv with
      | true => rfl
      | false => exact absurd ⟨e, hv⟩ hl
    rcases commandStep_scan (p := p) (hi.imp id (fun e => ⟨e, hl' e⟩)) with ⟨hd, u, hu, hs⟩ | ⟨hd, u, hu, hO⟩
    · rw [hu] at h
      cases h
      exact .inl ⟨hd, hl', hs⟩
    · rw [hu] at h
      cases h
      exact .inr ⟨hd, u, rfl, hO⟩

/-- Everything a core step of a command can do. -/
theorem commandStep_cases (h : commandStep p i s = .next t) :
    ((i = .dither ∨ i = .applyLut) ∧ scanDone s = false ∧ scanStep s t) ∨
    ((i = .dither ∨ i = .applyLut) ∧ scanDone s = true ∧ ∃ u, t = u.finish ∧ onlyBuffers s u) ∨
    (i = .nop ∧ t = s.finish) ∨
    (i = .buildLut ∧ t = ({ s with
      lutG := tableOf (p.gammaEntry s.gamma)
      lutC := tableOf (p.cbEntry s.gamma s.contrast s.lightness)
      iIdx := 255#8
      lutv := true } : State).finish) ∨
    ((i = .map332 ∨ i = .mapnn) ∧ ∃ a b, t = ({ s with pixOut := a, idxOut := b } : State).finish) ∨
    (i = .sreset ∧ t = s.hardReset.finish) := by
  cases i with
  | nop => cases h; exact .inr (.inr (.inl ⟨rfl, rfl⟩))
  | buildLut => cases h; exact .inr (.inr (.inr (.inl ⟨rfl, rfl⟩)))
  | applyLut =>
    rcases scan_of_next (.inr rfl) h with ⟨a, -, b⟩ | ⟨a, b⟩
    · exact .inl ⟨.inr rfl, a, b⟩
    · exact .inr (.inl ⟨.inr rfl, a, b⟩)
  | dither =>
    rcases scan_of_next (.inl rfl) h with ⟨a, -, b⟩ | ⟨a, b⟩
    · exact .inl ⟨.inl rfl, a, b⟩
    · exact .inr (.inl ⟨.inl rfl, a, b⟩)
  | map332 => cases h; exact .inr (.inr (.inr (.inr (.inl ⟨.inl rfl, _, _, rfl⟩))))
  | mapnn => cases h; exact .inr (.inr (.inr (.inr (.inl ⟨.inr rfl, _, _, rfl⟩))))
  | sreset => cases h; exact .inr (.inr (.inr (.inr (.inr ⟨rfl, rfl⟩))))

/-- Everything a core step can do: it is the step of the latched command. -/
theorem coreStep_cases (h : coreStep p s = .next t) : ∃ i, s.op = encode i ∧ commandStep p i s = .next t := by
  unfold coreStep at h
  split at h
  · rename_i i hi
    exact ⟨i, encode_of_decode hi, h⟩
  · cases h

/-- A core step that leaves the block busy keeps the latched command. -/
theorem op_of_commandStep (h : commandStep p i s = .next t) (hb : t.busy = true) : t.op = s.op := by
  rcases commandStep_cases h with ⟨-, -, hO, -⟩ | ⟨-, -, u, rfl, -⟩ | ⟨-, rfl⟩ | ⟨-, rfl⟩ | ⟨-, a, b, rfl⟩ | ⟨-, rfl⟩
  · unfold onlyScan at hO
    rw [hO]
  all_goals exact absurd hb (by simp)

/-! ### A run -/

/-- What every core step keeps, a run keeps. -/
theorem runToEnd_induct {f : State → Result} (P : State → Prop)
    (hP : ∀ s t, P s → s.busy = true → f s = .next t → P t) (n : Nat) {s t : State} (hs : P s)
    (h : runToEnd f n s = .next t) : P t := by
  induction n generalizing s with
  | zero =>
    simp only [runToEnd, Host.Outcome.next.injEq] at h
    exact h ▸ hs
  | succ n ih =>
    cases hb : s.busy with
    | false =>
      rw [runToEnd_idle f _ hb] at h
      cases h
      exact hs
    | true =>
      simp only [runToEnd, hb, if_true] at h
      cases hf : f s with
      | next u => rw [hf] at h; exact ih (hP s u hs hb hf) h
      | fault r => simp [hf] at h
      | refused r => simp [hf] at h

/-- A run whose every core step goes on goes on. -/
theorem runToEnd_next {f : State → Result} (P : State → Prop)
    (hP : ∀ s, P s → s.busy = true → ∃ t, f s = .next t ∧ P t) (n : Nat) {s : State} (hs : P s) :
    ∃ t, runToEnd f n s = .next t ∧ P t := by
  induction n generalizing s with
  | zero => exact ⟨s, rfl, hs⟩
  | succ n ih =>
    cases hb : s.busy with
    | false => exact ⟨s, runToEnd_idle f _ hb, hs⟩
    | true =>
      obtain ⟨t, ht, hPt⟩ := hP s hs hb
      obtain ⟨u, hu, hPu⟩ := ih hPt
      exact ⟨u, by rw [runToEnd_busy hb ht, hu], hPu⟩

/-- The run of the latched command is the run of that command (R222). -/
theorem runToEnd_coreStep (n : Nat) (h : s.op = encode i) :
    runToEnd (coreStep p) n s = runToEnd (commandStep p i) n s :=
  runToEnd_congr (fun u => u.op = encode i) (fun _ hu _ => coreStep_of_op hu)
    (fun _ _ hu _ hg hb => (op_of_commandStep hg hb).trans hu) n h

/-- `t` differs from `s` only in what the commands other than `BUILD_LUT` and `SRESET` move while they run. -/
def runFrame (s t : State) : Prop :=
  t = { s with
    busy := t.busy, done := t.done, image := t.image, rowbuf := t.rowbuf, kIdx := t.kIdx, errE := t.errE
    old := t.old, new := t.new, posX := t.posX, posY := t.posY, pixOut := t.pixOut, idxOut := t.idxOut }

theorem runFrame_refl (s : State) : runFrame s s := rfl

theorem runFrame_trans {u : State} (h1 : runFrame s t) (h2 : runFrame t u) : runFrame s u := by
  unfold runFrame at *
  rw [h1] at h2
  exact h2

/-- A core step, its frame said once. -/
theorem runFrame_commandStep (h : commandStep p i s = .next t) :
    runFrame s t ∨
    (i = .buildLut ∧ t = ({ s with
      lutG := tableOf (p.gammaEntry s.gamma)
      lutC := tableOf (p.cbEntry s.gamma s.contrast s.lightness)
      iIdx := 255#8
      lutv := true } : State).finish) ∨
    (i = .sreset ∧ t = s.hardReset.finish) := by
  rcases commandStep_cases h with ⟨-, -, hO, -⟩ | ⟨-, -, u, rfl, hO⟩ | ⟨-, rfl⟩ | ⟨e, rfl⟩ | ⟨-, a, b, rfl⟩ | ⟨e, rfl⟩
  · left
    unfold onlyScan at hO
    unfold runFrame
    rw [hO]
  · left
    unfold onlyBuffers at hO
    unfold runFrame
    have e1 : u.pixOut = s.pixOut := by rw [hO]
    have e2 : u.idxOut = s.idxOut := by rw [hO]
    have e3 : u.posX = s.posX := by rw [hO]
    have e4 : u.posY = s.posY := by rw [hO]
    refine (congrArg State.finish hO).trans ?_
    simp only [finish_pixOut, finish_idxOut, finish_posX, finish_posY, e1, e2, e3, e4]
    rfl
  · exact .inl rfl
  · exact .inr (.inl ⟨e, rfl⟩)
  · exact .inl rfl
  · exact .inr (.inr ⟨e, rfl⟩)

/-- A run of a command, its frame said once: `BUILD_LUT` and `SRESET` end with their one core step. -/
theorem runFrame_runToEnd {n : Nat} (hb : s.busy = true) (h : runToEnd (commandStep p i) n s = .next t) :
    runFrame s t ∨
    (i = .buildLut ∧ t = ({ s with
      lutG := tableOf (p.gammaEntry s.gamma)
      lutC := tableOf (p.cbEntry s.gamma s.contrast s.lightness)
      iIdx := 255#8
      lutv := true } : State).finish) ∨
    (i = .sreset ∧ t = s.hardReset.finish) := by
  by_cases hi : i = .buildLut ∨ i = .sreset
  · cases n with
    | zero =>
      cases h
      exact .inl rfl
    | succ n =>
      rcases hi with rfl | rfl
      · rw [runToEnd_last (f := commandStep p .buildLut) hb rfl rfl] at h
        cases h
        exact .inr (.inl ⟨rfl, rfl⟩)
      · rw [runToEnd_last (f := commandStep p .sreset) hb rfl rfl] at h
        cases h
        exact .inr (.inr ⟨rfl, rfl⟩)
  · left
    refine runToEnd_induct (runFrame s) ?_ n (runFrame_refl s) h
    intro u v hu _ hv
    rcases runFrame_commandStep hv with hF | ⟨e, -⟩ | ⟨e, -⟩
    · exact runFrame_trans hu hF
    · exact absurd (.inl e) hi
    · exact absurd (.inr e) hi

/-- Everything a meaning leaves: the accepted state with the run's frame, a raised error, the state itself of a busy
block, the tables of `BUILD_LUT`, or the reset state of `SRESET`. -/
theorem exec_frame (h : exec i s = .next t) :
    t = s ∨ (∃ u, runFrame (acceptedBy i s) u ∧ (t = u ∨ ∃ kind info, t = u.raise kind info)) ∨
    (i = .buildLut ∧ t = ({ acceptedBy i s with
      lutG := tableOf (Config.hw.gammaEntry s.gamma)
      lutC := tableOf (Config.hw.cbEntry s.gamma s.contrast s.lightness)
      iIdx := 255#8
      lutv := true } : State).finish) ∨
    (i = .sreset ∧ t = s.hardReset.finish) := by
  rcases exec_cases i s with ⟨-, e⟩ | ⟨-, hc, e⟩ | ⟨-, hc, -, e⟩ | ⟨-, hc, -, e⟩ <;> rw [e] at h
  · cases h
    exact .inl rfl
  · cases h
    exact .inr (.inl ⟨_, runFrame_refl _, .inr ⟨_, _, rfl⟩⟩)
  · rcases runFrame_runToEnd acceptedBy_busy h with hF | ⟨rfl, rfl⟩ | ⟨rfl, rfl⟩
    · exact .inr (.inl ⟨_, hF, .inl rfl⟩)
    · exact .inr (.inr (.inl ⟨rfl, rfl⟩))
    · exact .inr (.inr (.inr ⟨rfl, rfl⟩))
  · cases h
    exact .inr (.inl ⟨_, runFrame_refl _, .inl rfl⟩)

/-! ### An act of the host -/

/-- The part of a write to the image space of an idle block that lands. -/
theorem writeImage_only (p : Params) (offset : Nat) (width : Width) (v : Word) (s : State) :
    writeImage p offset width v s = { s with image := (writeImage p offset width v s).image } ∧
    (Memory.wf s.image = true → Memory.wf (writeImage p offset width v s).image = true) ∧
    ((∀ c ∈ s.image, c.1 < p.imgCap) → ∀ c ∈ (writeImage p offset width v s).image, c.1 < p.imgCap) := by
  have one : ∀ (a : Nat) (b : Byte) (s : State), hostSetByte p a b s = { s with image := (hostSetByte p a b s).image } ∧
      (Memory.wf s.image = true → Memory.wf (hostSetByte p a b s).image = true) ∧
      ((∀ c ∈ s.image, c.1 < p.imgCap) → ∀ c ∈ (hostSetByte p a b s).image, c.1 < p.imgCap) := by
    intro a b s
    unfold hostSetByte
    split
    · exact ⟨rfl, id, id⟩
    · rename_i h
      exact ⟨rfl, Memory_wf_set a b, Memory_set_below b (by omega)⟩
  have two : ∀ {s t u : State}, t = { s with image := t.image } ∧ (Memory.wf s.image = true → Memory.wf t.image = true) ∧
      ((∀ c ∈ s.image, c.1 < p.imgCap) → ∀ c ∈ t.image, c.1 < p.imgCap) →
      u = { t with image := u.image } ∧ (Memory.wf t.image = true → Memory.wf u.image = true) ∧
      ((∀ c ∈ t.image, c.1 < p.imgCap) → ∀ c ∈ u.image, c.1 < p.imgCap) →
      u = { s with image := u.image } ∧ (Memory.wf s.image = true → Memory.wf u.image = true) ∧
      ((∀ c ∈ s.image, c.1 < p.imgCap) → ∀ c ∈ u.image, c.1 < p.imgCap) := by
    intro s t u h1 h2
    refine ⟨?_, fun h => h2.2.1 (h1.2.1 h), fun h => h2.2.2 (h1.2.2 h)⟩
    have e := h2.1
    rw [h1.1] at e
    exact e
  unfold writeImage
  split
  · cases width with
    | w8 => exact one ..
    | w16 => exact ⟨rfl, id, id⟩
    | w32 => exact two (two (two (one ..) (one ..)) (one ..)) (one ..)
  · exact ⟨rfl, id, id⟩

/-- A host read moves the model's own log of reads and count of free values alone (R67), and stops only on a
reserved error code. -/
theorem hostRead_cases (p : Params) (space : Space) (offset : Nat) (width : Width) (s : State) :
    (∃ t, hostRead p space offset width s = .next t ∧ t = { s with reads := t.reads, draws := t.draws }) ∨
    (hostRead p space offset width s = .fault .reservedErrCode ∧ errReserved s = true) := by
  have hr : ∀ v, reply v s = { s with reads := (reply v s).reads, draws := (reply v s).draws } := fun _ => rfl
  have hf : ∀ w, replyFree p w s = { s with reads := (replyFree p w s).reads, draws := (replyFree p w s).draws } :=
    fun _ => rfl
  have hv : ∀ v, readVolatile p v s =
      { s with reads := (readVolatile p v s).reads, draws := (readVolatile p v s).draws } := by
    intro v
    unfold readVolatile
    split
    · exact hf _
    · exact hr _
  unfold hostRead
  split
  · split
    · unfold readRegister
      split
      all_goals first
        | exact .inl ⟨_, rfl, hr _⟩
        | exact .inl ⟨_, rfl, hv _⟩
        | skip
      split
      · rename_i h
        exact .inr ⟨rfl, h⟩
      · exact .inl ⟨_, rfl, hr _⟩
    · split
      · exact .inl ⟨_, rfl, hr _⟩
      · refine .inl ⟨_, rfl, ?_⟩
        unfold readTable
        split
        · split
          · exact hf _
          · exact hr _
        · exact hr _
  · refine .inl ⟨_, rfl, ?_⟩
    unfold readImage
    split
    · dsimp only
      split
      · rfl
      · exact hr _
    · exact hr _

/-- `t` is `s` after a write to a parameter register, `CTRL` or `PIX_IN` (R24 to R31). -/
def configured (s t : State) : Prop :=
  t = { s with
    ie := t.ie, bufv := t.bufv, gamma := t.gamma, contrast := t.contrast, lightness := t.lightness
    method := t.method, width := t.width, height := t.height, pixIn := t.pixIn } ∧
  (s.bufv = true → t.width = s.width ∧ t.height = s.height)

/-- Everything a host write can do. -/
theorem hostWrite_cases {space : Space} {offset : Nat} {width : Width} {v : Word}
    (h : hostWrite p exec space offset width v s = .next t) :
    t = s ∨
    (s.busy = false ∧ t = { s with image := t.image } ∧ (Memory.wf s.image = true → Memory.wf t.image = true) ∧
      ((∀ c ∈ s.image, c.1 < p.imgCap) → ∀ c ∈ t.image, c.1 < p.imgCap)) ∨
    (s.busy = false ∧ space = .window ∧ offset = 0x04 ∧ width = .w32 ∧ ∃ i, v = encode i ∧ exec i s = .next t) ∨
    (s.busy = false ∧ (∀ i, v ≠ encode i) ∧ t = (s.issue).raise .illegalCommand v) ∨
    (s.busy = false ∧ space = .window ∧ offset = 0x08 ∧ width = .w32 ∧ t = writeStatus v s) ∨
    (s.busy = false ∧ configured s t) := by
  unfold hostWrite at h
  split at h
  · cases h; exact .inl rfl
  · rename_i hb
    have hb : s.busy = false := by simpa using hb
    cases space with
    | image =>
      cases h
      obtain ⟨h1, h2, h3⟩ := writeImage_only p offset width v s
      exact .inr (.inl ⟨hb, h1, h2, h3⟩)
    | window =>
      dsimp only at h
      split at h
      · rename_i hr
        have hw : width = .w32 := by
          simp only [registerAccess, Bool.and_eq_true, decide_eq_true_eq] at hr
          exact hr.1.2
        unfold writeRegister at h
        have last : ∀ {A B C D E F : Prop}, F → A ∨ B ∨ C ∨ D ∨ E ∨ F :=
          fun h => .inr (.inr (.inr (.inr (.inr h))))
        split at h
        · unfold writeCmd at h
          split at h
          · rename_i i hi
            exact .inr (.inr (.inl ⟨hb, rfl, rfl, hw, i, encode_of_decode hi, h⟩))
          · rename_i e he
            cases h
            refine .inr (.inr (.inr (.inl ⟨hb, ?_, rfl⟩)))
            rintro i rfl
            simp at he
        · cases h
          exact .inr (.inr (.inr (.inr (.inl ⟨hb, rfl, rfl, hw, rfl⟩))))
        · cases h; exact last ⟨hb, rfl, fun _ => ⟨rfl, rfl⟩⟩
        · cases h; exact last ⟨hb, rfl, fun _ => ⟨rfl, rfl⟩⟩
        · cases h; exact last ⟨hb, rfl, fun _ => ⟨rfl, rfl⟩⟩
        · cases h; exact last ⟨hb, rfl, fun _ => ⟨rfl, rfl⟩⟩
        · cases h; exact last ⟨hb, rfl, fun _ => ⟨rfl, rfl⟩⟩
        · cases h
          by_cases hv : s.bufv = true
          · rw [if_pos hv]; exact .inl rfl
          · rw [if_neg hv]; exact last ⟨hb, rfl, fun e => absurd e hv⟩
        · cases h
          by_cases hv : s.bufv = true
          · rw [if_pos hv]; exact .inl rfl
          · rw [if_neg hv]; exact last ⟨hb, rfl, fun e => absurd e hv⟩
        · cases h; exact last ⟨hb, rfl, fun _ => ⟨rfl, rfl⟩⟩
        · cases h; exact .inl rfl
      · cases h; exact .inl rfl

end Sys2Proof.Laws
end

