-- ==== Sys2Proof/Laws/Hidden.lean ====
section
/-! SUPPORT. Hidden state does not matter (R45, R46): two states that differ in it alone stay so, core step by core
step. -/

namespace Sys2Proof.Laws
open Sys2Proof.Machine

variable {p : Params} {s s' t t' : State}

/-- `s'` differs from `s` in hidden state alone, and holds the same rows with the same pixels. -/
structure Alike (s s' : State) : Prop where
  seen : s' = { s with
    rowbuf := s'.rowbuf, op := s'.op, m := s'.m, sSel := s'.sSel, kIdx := s'.kIdx, errE := s'.errE, old := s'.old
    new := s'.new, iIdx := s'.iIdx }
  tags : ∀ j, (s'.slot j).tag = (s.slot j).tag
  rows : ∀ j, (s.slot j).tag ≠ none → (s'.slot j).px = (s.slot j).px

theorem Alike.fields (h : Alike s s') :
    s'.wNat = s.wNat ∧ s'.hNat = s.hNat ∧ s'.posX = s.posX ∧ s'.posY = s.posY ∧ s'.busy = s.busy ∧
      s'.image = s.image ∧ s'.epoch = s.epoch ∧ s'.lutv = s.lutv := by
  rw [h.seen]
  exact ⟨rfl, rfl, rfl, rfl, rfl, rfl, rfl, rfl⟩

theorem Alike.holdsRow (h : Alike s s') (r : Nat) : s'.holdsRow r = s.holdsRow r := by
  unfold State.holdsRow
  rw [h.tags]

theorem Alike.imgPixel (h : Alike s s') (x y : Nat) : imgPixel p s' x y = imgPixel p s x y := by
  obtain ⟨hw, -, -, -, -, hi, he, -⟩ := h.fields
  rw [imgPixel_eq, imgPixel_eq, imgByte_congr p hi he, hw]

theorem Alike.bufPixel (h : Alike s s') (x y : Nat) : bufPixel p s' x y = bufPixel p s x y := by
  unfold Machine.bufPixel
  rw [h.holdsRow, h.imgPixel]
  by_cases hr : s.holdsRow y = true
  · rw [if_pos hr, if_pos hr, h.rows _ (by
      simp only [State.holdsRow, decide_eq_true_eq] at hr
      rw [hr]
      simp)]
  · rw [if_neg hr, if_neg hr]

/-- `u` differs from `s` in hidden state alone, the row buffer apart. -/
def onlyHidden (s u : State) : Prop :=
  u = { s with
    op := u.op, m := u.m, sSel := u.sSel, kIdx := u.kIdx, errE := u.errE, old := u.old
    new := u.new, iIdx := u.iIdx }

/-- A change of hidden state that leaves the row buffer. -/
theorem Alike.hide {u u' : State} (h : Alike s s') (h1 : onlyHidden s u) (h2 : onlyHidden s' u') : Alike u u' := by
  unfold onlyHidden at h1 h2
  have hr : u.rowbuf = s.rowbuf := by rw [h1]
  have hr' : u'.rowbuf = s'.rowbuf := by rw [h2]
  refine ⟨?_, fun j => ?_, fun j hj => ?_⟩
  · rw [h.seen] at h2
    rw [hr', h1]
    exact h2
  · rw [slot_congr hr, slot_congr hr']
    exact h.tags j
  · rw [slot_congr hr] at hj ⊢
    rw [slot_congr hr']
    exact h.rows j hj

theorem Alike.setImgPixel (h : Alike s s') (x y : Nat) (px : Pixel) :
    Alike (setImgPixel s x y px) (setImgPixel s' x y px) := by
  refine ⟨?_, h.tags, h.rows⟩
  rw [h.seen]
  rfl

theorem Alike.setSlot (h : Alike s s') (j : Fin 3) {v v' : RowSlot} (h1 : v'.tag = v.tag)
    (h2 : v.tag ≠ none → v'.px = v.px) : Alike (s.setSlot j v) (s'.setSlot j v') := by
  refine ⟨?_, fun k => ?_, fun k hk => ?_⟩
  · rw [h.seen]
    rfl
  · rw [slot_setSlot, slot_setSlot]
    split
    · exact h1
    · exact h.tags k
  · rw [slot_setSlot] at hk ⊢
    rw [slot_setSlot]
    split
    · rename_i e
      rw [if_pos e] at hk
      exact h2 hk
    · rename_i e
      rw [if_neg e] at hk
      exact h.rows k hk

theorem Alike.setBufPixel (h : Alike s s') (x y : Nat) (px : Pixel) :
    Alike (setBufPixel s x y px) (setBufPixel s' x y px) := by
  unfold Machine.setBufPixel
  rw [h.holdsRow]
  by_cases hr : s.holdsRow y = true
  · rw [if_pos hr, if_pos hr]
    refine h.setSlot _ rfl (fun _ => ?_)
    simp only [State.holdsRow, decide_eq_true_eq] at hr
    rw [h.rows _ (by rw [hr]; simp)]
  · rw [if_neg hr, if_neg hr]
    exact h.setImgPixel ..

theorem Alike.storeRow (r : Nat) (l : List Pixel) (x : Nat) {s s' : State} (h : Alike s s') :
    Alike (storeRow r x l s) (storeRow r x l s') := by
  induction l generalizing x s s' with
  | nil => exact h
  | cons px rest ih => exact ih (x + 1) (h.setImgPixel ..)

theorem Alike.flushSlot (h : Alike s s') (j : Fin 3) : Alike (flushSlot j s) (flushSlot j s') := by
  unfold Machine.flushSlot
  rw [h.tags]
  cases ht : (s.slot j).tag with
  | none => exact h
  | some r =>
    dsimp only
    have hp : (s'.slot j).px = (s.slot j).px := h.rows j (by rw [ht]; simp)
    rw [hp]
    exact (Alike.storeRow r _ 0 h).setSlot j rfl (fun _ => rfl)

theorem Alike.flushAll (h : Alike s s') : Alike (flushAll s) (flushAll s') :=
  ((h.flushSlot 0).flushSlot 1).flushSlot 2

theorem Alike.loadRow (h : Alike s s') (r : Nat) : Alike (loadRow p r s) (loadRow p r s') := by
  unfold Machine.loadRow
  have hh := h.fields.2.1
  rw [h.holdsRow, hh]
  by_cases hc : s.hNat ≤ r ∨ s.holdsRow r = true
  · rw [if_pos hc, if_pos hc]
    exact h
  · rw [if_neg hc, if_neg hc]
    have hf := h.flushSlot (slotOf r)
    refine hf.setSlot _ rfl (fun _ => ?_)
    dsimp only
    rw [hf.fields.1]
    exact List.map_congr_left (fun x _ => hf.imgPixel x r)

theorem Alike.loadRows (h : Alike s s') (y reach : Nat) : Alike (loadRows p y reach s) (loadRows p y reach s') := by
  induction reach with
  | zero => exact h.loadRow y
  | succ n ih => exact ih.loadRow _

theorem Alike.spreadEntry (h : Alike s s') (he : s'.errE = s.errE) (x y : Nat) (ent : StencilEntry) :
    Alike (spreadEntry p x y ent s) (spreadEntry p x y ent s') := by
  obtain ⟨hw, hh, -⟩ := h.fields
  simp only [Machine.spreadEntry, hw, hh]
  split
  · rw [h.bufPixel, he]
    exact h.setBufPixel ..
  · exact h

theorem Alike.spreadError (x y : Nat) (st : List StencilEntry) (k : Nat) {s s' : State} (h : Alike s s')
    (he : s'.errE = s.errE) : Alike (spreadError p x y k st s) (spreadError p x y k st s') := by
  induction st generalizing k s s' with
  | nil => exact h
  | cons ent rest ih =>
    have h1 : Alike { s with kIdx := Fin.ofNat 12 k } { s' with kIdx := Fin.ofNat 12 k } := h.hide rfl rfl
    refine ih (k + 1) (h1.spreadEntry he x y ent) ?_
    rw [(errE_spreadEntry p x y ent _).1, (errE_spreadEntry p x y ent _).1]
    exact he

/-- The pixel step of R172, its parts named. -/
theorem diffusionPixel_eq {x y : Nat} {old new : Pixel} {b : State} {k : Fin 3} (hk : s.sSel = k) (hx : s.posX.toNat = x)
    (hy : s.posY.toNat = y) (ho : Machine.bufPixel p s x y = old) (hn : nearestRgb p old = new)
    (hb : b = Machine.setBufPixel { s with old := old, new := new } x y new) :
    diffusionPixel p s =
      Machine.spreadError p x y 0 (p.stencil k) { b with errE := pixelError old new } := by
  subst hk hx hy ho hn hb
  have e : ∀ (u : State) (x y : Nat) (px : Pixel), (Machine.setBufPixel u x y px).sSel = u.sSel := fun u x y px =>
    (onlyBuffers_geometry (onlyBuffers_setBufPixel u x y px)).2.2.2.2.2.2
  simp only [diffusionPixel, e]

theorem Alike.diffusionPixel (h : Alike s s') (hs : s'.sSel = s.sSel) :
    Alike (diffusionPixel p s) (diffusionPixel p s') := by
  obtain ⟨-, -, hx, hy, -⟩ := h.fields
  rw [diffusionPixel_eq rfl rfl rfl rfl rfl rfl,
    diffusionPixel_eq (s := s') hs (by rw [hx]) (by rw [hy]) (h.bufPixel _ _) rfl rfl]
  have h1 : Alike { s with
      old := Machine.bufPixel p s s.posX.toNat s.posY.toNat
      new := nearestRgb p (Machine.bufPixel p s s.posX.toNat s.posY.toNat) } { s' with
      old := Machine.bufPixel p s s.posX.toNat s.posY.toNat
      new := nearestRgb p (Machine.bufPixel p s s.posX.toNat s.posY.toNat) } := h.hide rfl rfl
  exact Alike.spreadError _ _ _ 0 ((h1.setBufPixel ..).hide rfl rfl) rfl

theorem Alike.advance (h : Alike s s') : Alike (advance s) (advance s') := by
  obtain ⟨hw, -, hx, hy, -⟩ := h.fields
  refine ⟨?_, fun j => ?_, fun j hj => ?_⟩
  · by_cases hr : s.posX.toNat + 1 < s.wNat
    · rw [advance_inRow hr, advance_inRow (by rw [hx, hw]; exact hr)]
      rw [h.seen]
    · rw [advance_nextRow hr, advance_nextRow (by rw [hx, hw]; exact hr)]
      rw [h.seen]
  · rw [slot_congr (advance_rowbuf s), slot_congr (advance_rowbuf s')]
    exact h.tags j
  · rw [slot_congr (advance_rowbuf s)] at hj ⊢
    rw [slot_congr (advance_rowbuf s')]
    exact h.rows j hj

theorem Alike.finish (h : Alike s s') : Alike s.finish s'.finish := by
  refine ⟨?_, h.tags, h.rows⟩
  rw [h.seen]
  rfl

theorem Alike.scanDone (h : Alike s s') : scanDone s' = scanDone s := by
  obtain ⟨hw, hh, -, hy, -⟩ := h.fields
  exact scanDone_congr hw hh hy

theorem Alike.leaveRow (h : Alike s s') (y : Nat) : Alike (leaveRow y s) (leaveRow y s') := by
  unfold Machine.leaveRow
  rw [h.fields.2.2.2.1]
  by_cases hy : s.posY.toNat = y
  · rw [if_pos hy, if_pos hy]
    exact h
  · rw [if_neg hy, if_neg hy]
    exact h.flushSlot _

/-- A core step of error diffusion from alike states. -/
theorem Alike.diffusionStep (h : Alike s s') (hs : s'.sSel = s.sSel) :
    ∃ t t', diffusionStep p s = .next t ∧ diffusionStep p s' = .next t' ∧ Alike t t' := by
  unfold Machine.diffusionStep
  rw [h.scanDone]
  by_cases hd : Machine.scanDone s = true
  · rw [if_pos hd, if_pos hd]
    exact ⟨_, _, rfl, rfl, h.flushAll.finish⟩
  · rw [if_neg hd, if_neg hd]
    refine ⟨_, _, rfl, rfl, ?_⟩
    rw [h.fields.2.2.2.1, hs]
    have h1 := h.loadRows (p := p) s.posY.toNat (stencilReach s.sSel)
    have e : ∀ u : State, (Machine.loadRows p s.posY.toNat (stencilReach s.sSel) u).sSel = u.sSel := fun u =>
      (onlyBuffers_geometry (onlyBuffers_loadRows p s.posY.toNat (stencilReach s.sSel) u)).2.2.2.2.2.2
    exact ((h1.diffusionPixel (by rw [e, e, hs])).advance).leaveRow _

/-- A core step of a pixelwise method from alike states. -/
theorem Alike.pointwiseStep (h : Alike s s') (g : Nat → Nat → Pixel → Pixel) :
    ∃ t t', pointwiseStep p g s = .next t ∧ pointwiseStep p g s' = .next t' ∧ Alike t t' := by
  unfold Machine.pointwiseStep
  rw [h.scanDone]
  by_cases hd : Machine.scanDone s = true
  · rw [if_pos hd, if_pos hd]
    exact ⟨_, _, rfl, rfl, h.finish⟩
  · rw [if_neg hd, if_neg hd]
    obtain ⟨-, -, hx, hy, -⟩ := h.fields
    refine ⟨_, _, rfl, rfl, ?_⟩
    rw [hx, hy, h.imgPixel]
    exact (h.setImgPixel ..).advance

/-- Alike states look the same. -/
theorem Alike.visible (h : Alike s s') : s'.visible = s.visible := by
  rw [h.seen]
  rfl

/-- Two runs in step, as long as what they stay in keeps them in step. -/
theorem runToEnd_alike {f f' : State → Result} (P : State → State → Prop)
    (hP : ∀ s s', P s s' → s.busy = true → ∃ t t', f s = .next t ∧ f' s' = .next t' ∧ P t t')
    (hb : ∀ s s', P s s' → s'.busy = s.busy) (n : Nat) {s s' : State} (h : P s s') :
    ∃ t t', runToEnd f n s = .next t ∧ runToEnd f' n s' = .next t' ∧ P t t' := by
  induction n generalizing s s' with
  | zero => exact ⟨s, s', rfl, rfl, h⟩
  | succ n ih =>
    cases hbs : s.busy with
    | false => exact ⟨s, s', runToEnd_idle f _ hbs, runToEnd_idle f' _ ((hb s s' h).trans hbs), h⟩
    | true =>
      obtain ⟨t, t', e, e', ht⟩ := hP s s' h hbs
      obtain ⟨u, u', r, r', hu⟩ := ih ht
      exact ⟨u, u', by rw [runToEnd_busy hbs e, r], by rw [runToEnd_busy ((hb s s' h).trans hbs) e', r'], hu⟩

end Sys2Proof.Laws
end

