-- ==== Sys2Proof/Laws/Host.lean ====
section
/-! SUPPORT. The core neither reads nor moves the host's pending acts: a core step, and a run of core steps, on a state
with other pending acts is the same step with those acts. -/

namespace Sys2Proof.Laws
open Sys2Proof.Machine

variable {p : Params} {h : List Pending}

/-- `s` with other pending acts. -/
def hosted (h : List Pending) (s : State) : State := { s with host := h }

/-- A result with other pending acts in its next state. -/
def hostedResult (h : List Pending) : Result → Result
  | .next t => .next (hosted h t)
  | .fault f => .fault f
  | .refused r => .refused r

theorem hosted_ite (c : Prop) [Decidable c] (s t : State) :
    hosted h (if c then s else t) = if c then hosted h s else hosted h t := by split <;> rfl

theorem hosted_setSlot (s : State) (j : Fin 3) (v : RowSlot) : (hosted h s).setSlot j v = hosted h (s.setSlot j v) := rfl

theorem hosted_setImgPixel (s : State) (x y : Nat) (px : Pixel) :
    setImgPixel (hosted h s) x y px = hosted h (setImgPixel s x y px) := rfl

theorem hosted_storeRow (r x : Nat) (l : List Pixel) (s : State) :
    storeRow r x l (hosted h s) = hosted h (storeRow r x l s) := by
  induction l generalizing x s with
  | nil => rfl
  | cons px rest ih => exact ih (x + 1) (setImgPixel s x r px)

theorem hosted_flushSlot (j : Fin 3) (s : State) : flushSlot j (hosted h s) = hosted h (flushSlot j s) := by
  unfold flushSlot
  rw [show (hosted h s).slot j = s.slot j from rfl]
  cases (s.slot j).tag with
  | none => rfl
  | some r =>
    exact congrArg (fun t : State => t.setSlot j ⟨none, (s.slot j).px⟩) (hosted_storeRow r 0 (s.slot j).px s)

theorem hosted_flushAll (s : State) : flushAll (hosted h s) = hosted h (flushAll s) := by
  unfold flushAll
  rw [hosted_flushSlot, hosted_flushSlot, hosted_flushSlot]

theorem hosted_loadRow (r : Nat) (s : State) : loadRow p r (hosted h s) = hosted h (loadRow p r s) := by
  unfold loadRow
  rw [hosted_flushSlot, hosted_ite]
  rfl

theorem hosted_loadRows (y n : Nat) (s : State) : loadRows p y n (hosted h s) = hosted h (loadRows p y n s) := by
  induction n with
  | zero => exact hosted_loadRow y s
  | succ n ih =>
    unfold loadRows
    rw [ih, hosted_loadRow]

theorem hosted_setBufPixel (s : State) (x y : Nat) (px : Pixel) :
    setBufPixel (hosted h s) x y px = hosted h (setBufPixel s x y px) := by
  unfold setBufPixel
  rw [hosted_ite]
  rfl

theorem hosted_spreadEntry (x y : Nat) (ent : StencilEntry) (s : State) :
    spreadEntry p x y ent (hosted h s) = hosted h (spreadEntry p x y ent s) := by
  dsimp only [spreadEntry]
  rw [hosted_setBufPixel, hosted_ite]
  rfl

theorem hosted_spreadError (x y k : Nat) (st : List StencilEntry) (s : State) :
    spreadError p x y k st (hosted h s) = hosted h (spreadError p x y k st s) := by
  induction st generalizing k s with
  | nil => rfl
  | cons ent rest ih =>
    unfold spreadError
    rw [← ih, ← hosted_spreadEntry]
    rfl

theorem hosted_diffusionPixel (s : State) : diffusionPixel p (hosted h s) = hosted h (diffusionPixel p s) := by
  unfold diffusionPixel
  rw [← hosted_spreadError]
  have key : ∀ (old new : Pixel) (e : ChannelError) (x y : Nat),
      spreadError p x y 0 (p.stencil (setBufPixel (hosted h { s with old := old, new := new }) x y new).sSel)
          { setBufPixel (hosted h { s with old := old, new := new }) x y new with errE := e } =
        spreadError p x y 0 (p.stencil (setBufPixel { s with old := old, new := new } x y new).sSel)
          (hosted h { setBufPixel { s with old := old, new := new } x y new with errE := e }) := by
    intro old new e x y
    rw [hosted_setBufPixel]
    rfl
  exact key ..

theorem hosted_advance (s : State) : advance (hosted h s) = hosted h (advance s) := by
  unfold advance
  rw [hosted_ite]
  rfl

theorem hosted_leaveRow (y : Nat) (s : State) : leaveRow y (hosted h s) = hosted h (leaveRow y s) := by
  unfold leaveRow
  rw [hosted_flushSlot, hosted_ite]
  rfl

theorem hosted_diffusionStep (s : State) :
    diffusionStep p (hosted h s) = hostedResult h (diffusionStep p s) := by
  unfold diffusionStep
  rw [show scanDone (hosted h s) = scanDone s from rfl]
  by_cases hd : scanDone s = true
  · rw [if_pos hd, if_pos hd, hosted_flushAll]; rfl
  · rw [if_neg hd, if_neg hd]
    dsimp only
    rw [show (hosted h s).posY = s.posY from rfl, show (hosted h s).sSel = s.sSel from rfl, hosted_loadRows,
      hosted_diffusionPixel, hosted_advance, hosted_leaveRow]
    rfl

theorem hosted_pointwiseStep (g : Nat → Nat → Pixel → Pixel) (s : State) :
    pointwiseStep p g (hosted h s) = hostedResult h (pointwiseStep p g s) := by
  unfold pointwiseStep
  rw [show scanDone (hosted h s) = scanDone s from rfl]
  by_cases hd : scanDone s = true
  · rw [if_pos hd, if_pos hd]; rfl
  · rw [if_neg hd, if_neg hd]
    exact congrArg Host.Outcome.next (hosted_advance (setImgPixel s s.posX.toNat s.posY.toNat _))

theorem hosted_commandStep (i : Instr) (s : State) :
    commandStep p i (hosted h s) = hostedResult h (commandStep p i s) := by
  cases i with
  | nop => rfl
  | buildLut => rfl
  | map332 => rfl
  | mapnn => rfl
  | sreset => rfl
  | applyLut =>
    show applyLutStep p (hosted h s) = hostedResult h (applyLutStep p s)
    unfold applyLutStep
    rw [show scanDone (hosted h s) = scanDone s from rfl, show (hosted h s).lutv = s.lutv from rfl]
    by_cases hd : scanDone s = true
    · rw [if_pos hd, if_pos hd]; rfl
    · by_cases hl : s.lutv = true
      · rw [if_neg hd, if_neg hd, if_pos hl, if_pos hl]
        exact congrArg Host.Outcome.next (hosted_advance (setImgPixel s s.posX.toNat s.posY.toNat _))
      · rw [if_neg hd, if_neg hd, if_neg hl, if_neg hl]; rfl
  | dither =>
    show ditherStep p (hosted h s) = hostedResult h (ditherStep p s)
    unfold ditherStep
    rw [hosted_diffusionStep, hosted_pointwiseStep, hosted_pointwiseStep]
    rw [show (hosted h s).m = s.m from rfl]
    by_cases hm : methodOf s.m = 0 ∨ methodOf s.m = 1 ∨ methodOf s.m = 2
    · rw [if_pos hm, if_pos hm]
    · by_cases h3 : methodOf s.m = 3
      · rw [if_neg hm, if_neg hm, if_pos h3, if_pos h3]
      · rw [if_neg hm, if_neg hm, if_neg h3, if_neg h3]

/-- A core step (R222). -/
theorem hosted_coreStep (s : State) : coreStep p (hosted h s) = hostedResult h (coreStep p s) := by
  unfold coreStep
  rw [show (hosted h s).op = s.op from rfl]
  cases decode s.op with
  | ok i => exact hosted_commandStep i s
  | error e => rfl

/-- The state a command is accepted in (R215). -/
theorem hosted_acceptedBy (i : Instr) (s : State) : acceptedBy i (hosted h s) = hosted h (acceptedBy i s) := by
  cases i <;> rfl

end Sys2Proof.Laws
end

