-- ==== Sys2Proof/Laws/Invariant.lean ====
section
/-! SUPPORT. What keeps the invariant: acceptance, a failed check, a core step, a run, an act of the host. -/

namespace Sys2Proof.Laws
open Sys2Proof.Machine

variable {p : Params} {s t : State} {i : Instr}

/-- The clauses of the invariant that bind an idle block. -/
theorem inv_idle (hb : t.busy = false) (h1 : t.err = 0#3 ∨ t.err = 1#3 ∨ t.err = 2#3 ∨ t.err = 4#3)
    (h2 : t.err = 0#3 ↔ t.errInfo = 0#32) (h3 : t.pixOut.extractLsb' 24 8 = 0#8)
    (h4 : t.idxOut.extractLsb' 28 4 = 0#4 ∧ t.idxOut.extractLsb' 8 8 = 0#8) (h5 : Memory.wf t.image = true)
    (h6 : ∀ c ∈ t.image, c.1 < Config.hw.imgCap) (h7 : t.tagsNone) (h8 : t.posX = 0#16) : t.Inv where
  busyDone := by simp [hb]
  errCode := h1
  errBusy := by simp [hb]
  errDetail := h2
  pixOutTop := h3
  idxOutGaps := h4
  imageWf := h5
  imageCap := h6
  idle := fun _ => ⟨h7, h8⟩
  command := by simp [hb]
  entry := by simp [hb]
  tables := by simp [hb]
  params := by simp [hb]
  position := by simp [hb]
  still := by simp [hb]
  method := by simp [hb]
  rows := by simp [hb]

/-- The host's side of a state is not the invariant's. -/
theorem inv_host (h : s.Inv) (host : List Pending) (reads : List Word) (draws : Nat) :
    ({ s with host := host, reads := reads, draws := draws } : State).Inv :=
  ⟨h.busyDone, h.errCode, h.errBusy, h.errDetail, h.pixOutTop, h.idxOutGaps, h.imageWf, h.imageCap, h.idle, h.command,
    h.entry, h.tables, h.params, h.position, h.still, h.method, h.rows⟩

/-- The state after a hardware reset, with `DONE` or without (R48, R262). -/
theorem inv_reset (s : State) : s.hardReset.Inv ∧ s.hardReset.finish.Inv := by
  have ht : ∀ t : State, t.rowbuf = State.reset.rowbuf → t.tagsNone := by
    intro t h j
    rw [slot_congr h]
    fin_cases j <;> rfl
  constructor <;>
  · refine inv_idle rfl (.inl rfl) ⟨fun _ => rfl, fun _ => rfl⟩ ?_ ?_ rfl ?_ (ht _ rfl) rfl
    · exact (by decide : (0#32).extractLsb' 24 8 = 0#8)
    · exact (by decide : (0#32).extractLsb' 28 4 = 0#4 ∧ (0#32).extractLsb' 8 8 = 0#8)
    · intro c hc
      cases hc

/-! ### Acceptance and failure -/

theorem tagsNone_congr (h : t.rowbuf = s.rowbuf) (hs : s.tagsNone) : t.tagsNone := fun j => by
  rw [slot_congr h]
  exact hs j

/-- A failed entry check keeps the invariant (R215, R238). -/
theorem inv_failed (h : s.Inv) (hb : s.busy = false) (hc : checkOf p i (acceptedBy i s) ≠ 0#32) :
    ((acceptedBy i s).raise (kindOf i) (checkOf p i (acceptedBy i s))).Inv := by
  obtain ⟨ht, hx⟩ := h.idle hb
  refine inv_idle rfl ?_ ?_ ?_ ?_ ?_ ?_ (tagsNone_congr (by simp) ht) (by simp)
  · cases i <;> simp [kindOf, ErrorKind.code]
  · constructor
    · intro e
      exfalso
      revert e
      cases i <;> simp [kindOf, ErrorKind.code]
    · intro e
      exact absurd e hc
  · rw [acceptedBy_eq]; exact h.pixOutTop
  · rw [acceptedBy_eq]; exact h.idxOutGaps
  · simpa using h.imageWf
  · simpa using h.imageCap

theorem encode_ne (h : i ≠ j) : encode i ≠ encode j := fun e => h (encode_inj e)

/-- Acceptance after a passed entry check keeps the invariant (R215, R128, R171). -/
theorem inv_accepted (h : s.Inv) (hb : s.busy = false) (hc : checkOf Config.hw i (acceptedBy i s) = 0#32) :
    (acceptedBy i s).Inv := by
  obtain ⟨ht, -⟩ := h.idle hb
  have htag : (acceptedBy i s).tagsNone := tagsNone_congr (by simp) ht
  have hbuf : (acceptedBy i s).bufferSize = s.bufferSize := by rw [acceptedBy_eq]; rfl
  have hentry : (i = .applyLut ∨ i = .dither) → s.bufv = true ∧ s.bufferSize ≤ Config.hw.imgCap := by
    intro hi
    by_contra hcon
    apply absurd hc
    rw [acceptedBy_eq]
    simp only [State.bufferSize, not_and_or, not_le] at hcon
    rcases hi with rfl | rfl <;>
    · dsimp only [checkOf, applyCheck, ditherCheck, State.imageSize, State.wNat, State.hNat]
      simp only [cause]
      rcases hcon with h0 | h0
      · have h0 : s.bufv = false := by simpa using h0
        cases s.lutv <;> simp [h0]
      · cases s.bufv <;> cases s.lutv <;> by_cases h1 : s.width.toNat * s.height.toNat = 0 <;> simp [h0, h1]
  have htables : i = .applyLut → s.lutv = true := by
    rintro rfl
    by_contra hcon
    apply absurd hc
    rw [acceptedBy_eq]
    dsimp only [checkOf, applyCheck, State.imageSize, State.wNat, State.hNat]
    have h0 : s.lutv = false := by simpa using hcon
    simp only [cause, h0]
    cases s.bufv <;> by_cases h1 : s.width.toNat * s.height.toNat = 0 <;>
      by_cases h2 : Config.hw.imgCap < 3 * s.width.toNat * s.height.toNat <;> simp [h1, h2]
  exact {
    busyDone := by rw [acceptedBy_eq]; simp
    errCode := by rw [acceptedBy_eq]; exact .inl rfl
    errBusy := by rw [acceptedBy_eq]; simp
    errDetail := by rw [acceptedBy_eq]; exact ⟨fun _ => rfl, fun _ => rfl⟩
    pixOutTop := by rw [acceptedBy_eq]; exact h.pixOutTop
    idxOutGaps := by rw [acceptedBy_eq]; exact h.idxOutGaps
    imageWf := by simpa using h.imageWf
    imageCap := by simpa using h.imageCap
    idle := by simp
    command := by
      intro _
      refine ⟨⟨i, by simp⟩, ?_, ?_⟩ <;> rw [acceptedBy_eq]
    entry := by
      intro _ hs
      rw [hbuf, acceptedBy_bufv]
      apply hentry
      simp only [State.scanning, acceptedBy_op] at hs
      exact hs.imp encode_inj encode_inj
    tables := by
      intro _ ho
      rw [acceptedBy_op] at ho
      rw [acceptedBy_lutv]
      exact htables (encode_inj ho)
    params := by
      intro _ ho
      rw [acceptedBy_op] at ho
      obtain rfl := encode_inj ho
      exact hc
    position := by
      intro _
      simp only [acceptedBy_posX, acceptedBy_posY]
      exact .inr ⟨trivial, .inr trivial⟩
    still := by
      intro _ _
      simp
    method := by
      intro _ ho
      rw [acceptedBy_op] at ho
      obtain rfl := encode_inj ho
      refine ⟨rfl, ?_⟩
      rintro ⟨-, hm⟩
      have hm : methodOf s.method = 0 ∨ methodOf s.method = 1 ∨ methodOf s.method = 2 := hm
      show methodOf s.method = (((if methodOf s.method = 0 then (0 : Fin 3) else if methodOf s.method = 1 then 1
        else if methodOf s.method = 2 then 2 else s.sSel) : Fin 3).val : Int)
      rcases hm with e | e | e <;> rw [e] <;> rfl
    rows := by
      intro _
      refine ⟨fun _ j r hj => ?_, fun _ => htag⟩
      rw [htag] at hj
      cases hj }

/-! ### A core step -/

/-- The buffers of a state whose held rows are well formed hold some image. -/
theorem buffers_exist (p : Params) (hh : heldOk s) : ∃ f, Buffers p s f := by
  refine ⟨fun a => if a < 3 * s.wNat * s.hNat then imgByte p (flushAll s) a else imgByte p s a, hh, ?_, ?_⟩
  · intro x y hx hy
    have h0 := heldOk_flushSlot hh 0
    have h1 := heldOk_flushSlot h0 1
    obtain ⟨w0, -⟩ := onlyBuffers_geometry (onlyBuffers_flushSlot 0 s)
    obtain ⟨w1, -⟩ := onlyBuffers_geometry (onlyBuffers_flushSlot 1 (flushSlot 0 s))
    have e : bufPixel p (flushAll s) x y = bufPixel p s x y := by
      unfold flushAll
      rw [bufPixel_flushSlot h1 2 (by rw [w1, w0]; exact hx), bufPixel_flushSlot h0 1 (by rw [w0]; exact hx),
        bufPixel_flushSlot hh 0 hx]
    have ht : ¬((flushAll s).slot (slotOf y)).tag = some y := by rw [tag_flushAll]; simp
    have hw : (flushAll s).wNat = s.wNat := (onlyBuffers_geometry (onlyBuffers_flushAll s)).1
    rw [← e]
    simp only [bufPixel, State.holdsRow, ht, decide_false, Bool.false_eq_true, if_false, imgPixel_eq, hw]
    have := pixelAddr_lt hx hy
    simp only [ImageFn.pixel]
    rw [if_pos (by omega), if_pos (by omega), if_pos (by omega)]
  · intro a ha
    rw [if_neg (by omega)]

/-- What a scanning core step of the invariant's states does: rows, memory and position stay in order. -/
structure ScanKept (s t : State) : Prop where
  only : onlyScan s t
  rowsIn : (s.diffusing → t.rowsOk) ∧ (¬s.diffusing → t.tagsNone)
  mem : memKept s t
  pos : scanOk t

theorem ScanKept.inv (h : s.Inv) (hb : s.busy = true) (hs : s.scanning) (hk : ScanKept s t) : t.Inv := by
  obtain ⟨hcmd, hwl, hhl⟩ := h.command hb
  obtain ⟨hbuf, hcap⟩ := h.entry hb hs
  have e := hk.only
  unfold onlyScan at e
  obtain ⟨f1, f2, f3, f4, f5, f6, f7, f8, f9, f10, f11, f12, f13, f14, f15, f16⟩ :
      t.busy = s.busy ∧ t.done = s.done ∧ t.err = s.err ∧ t.errInfo = s.errInfo ∧ t.pixOut = s.pixOut ∧
      t.idxOut = s.idxOut ∧ t.op = s.op ∧ t.wl = s.wl ∧ t.hl = s.hl ∧ t.width = s.width ∧ t.height = s.height ∧
      t.bufv = s.bufv ∧ t.lutv = s.lutv ∧ t.m = s.m ∧ t.method = s.method ∧ t.sSel = s.sSel := by
    rw [e]
    simp
  have hdiff : t.diffusing ↔ s.diffusing := by unfold State.diffusing; rw [f7, f14]
  have hscan : t.scanning := by unfold State.scanning; rw [f7]; exact hs
  have hsize : t.bufferSize = s.bufferSize := by unfold State.bufferSize; rw [f10, f11]
  have hsz : 3 * s.wNat * s.hNat = s.bufferSize := by unfold State.bufferSize State.wNat State.hNat; rw [hwl, hhl]
  exact {
    busyDone := by rw [f1, f2]; exact h.busyDone
    errCode := by rw [f3]; exact h.errCode
    errBusy := by rw [f1, f3]; exact h.errBusy
    errDetail := by rw [f3, f4]; exact h.errDetail
    pixOutTop := by rw [f5]; exact h.pixOutTop
    idxOutGaps := by rw [f6]; exact h.idxOutGaps
    imageWf := hk.mem.1 h.imageWf
    imageCap := hk.mem.2 _ (by rw [hsz]; exact hcap) h.imageCap
    idle := by rw [f1, hb]; simp
    command := by rw [f7, f8, f9, f10, f11]; exact fun _ => ⟨hcmd, hwl, hhl⟩
    entry := fun _ _ => by rw [f12, hsize]; exact ⟨hbuf, hcap⟩
    tables := by rw [f1, f7, f13]; exact h.tables
    params := fun _ ho => by
      rw [f7] at ho
      rcases hs with e | e <;> rw [e] at ho <;> exact absurd ho (by decide)
    position := fun _ => by
      rcases hk.pos with hp | ⟨-, hx, hy⟩
      · exact .inl hp
      · exact .inr ⟨hx, .inl hy⟩
    still := fun _ hn => absurd hscan hn
    method := by rw [f1, f7, f14, f15, f16, hdiff]; exact h.method
    rows := fun _ => by rw [hdiff]; exact hk.rowsIn }

/-- In the invariant's states an unfinished scan is at a pixel. -/
theorem scanOk_of_inv (h : s.Inv) (hb : s.busy = true) (hd : scanDone s = false) : scanOk s := by
  have hp := h.position hb
  have h0 : s.wNat * s.hNat ≠ 0 ∧ s.posY.toNat < s.hNat := by
    simp only [scanDone, Bool.or_eq_false_iff, decide_eq_false_iff_not, not_le] at hd
    exact hd
  have hw : 0 < s.wNat := Nat.pos_of_ne_zero fun e => h0.1 (by rw [e, Nat.zero_mul])
  rcases hp with hp | ⟨hx, hy | hy⟩
  · exact .inl hp
  · omega
  · exact .inl ⟨by rw [hx]; exact hw, h0.2⟩

theorem scanKept_pointwise (g : Nat → Nat → Pixel → Pixel) (h : s.Inv) (hb : s.busy = true) (hn : ¬s.diffusing)
    (hd : scanDone s = false) : ∃ t, pointwiseStep p g s = .next t ∧ ScanKept s t := by
  have hok := scanOk_of_inv h hb hd
  obtain ⟨hx, hy, -⟩ := scanIndex_lt hok hd
  set px := g s.posX.toNat s.posY.toNat (imgPixel p s s.posX.toNat s.posY.toNat) with hpx
  set b := setImgPixel s s.posX.toNat s.posY.toNat px with hbdef
  refine ⟨advance b, ?_, onlyScan_trans (t := b) rfl (onlyScan_advance b), ⟨fun e => absurd e hn, fun _ => ?_⟩, ?_, ?_⟩
  · unfold pointwiseStep
    rw [if_neg (by simp [hd])]
  · exact tagsNone_congr (by simp [hbdef]) ((h.rows hb).2 hn)
  · unfold memKept
    rw [advance_image]
    refine ⟨fun e => setImgPixel_wf _ _ _ e, fun c hc hcc => ?_⟩
    have := pixelAddr_lt hx hy
    exact Memory_set_below _ (by omega) (Memory_set_below _ (by omega) (Memory_set_below _ (by omega) hcc))
  · exact (scanIndex_advance (s := b) hok hd).1

theorem scanKept_diffusion (h : s.Inv) (hb : s.busy = true) (hdf : s.diffusing) (hd : scanDone s = false) :
    ∃ t, diffusionStep p s = .next t ∧ ScanKept s t := by
  have hr := (h.rows hb).1 hdf
  have hh : heldOk s := fun j r hj => by
    obtain ⟨h1, -, -, h4, h5⟩ := hr j r hj
    exact ⟨h1, h4, h5⟩
  obtain ⟨f, hB⟩ := buffers_exist p hh
  obtain ⟨t, ht, -, hrt, hok, -, hO, hm⟩ := diffusionStep_pixel hB hr (scanOk_of_inv h hb hd) hd
  exact ⟨t, ht, hO, ⟨fun _ => hrt, fun e => absurd hdf e⟩, hm, hok⟩

/-- The end of a command keeps the invariant. -/
theorem inv_finish (h : s.Inv) (ht : t.tagsNone) (hm : memKept s t)
    (hcap : 3 * s.wNat * s.hNat ≤ Config.hw.imgCap ∨ t.image = s.image) (hx : t.posX = 0#16)
    (he : t.err = s.err ∧ t.errInfo = s.errInfo) (hp : t.pixOut.extractLsb' 24 8 = 0#8)
    (hi : t.idxOut.extractLsb' 28 4 = 0#4 ∧ t.idxOut.extractLsb' 8 8 = 0#8) : t.finish.Inv := by
  refine inv_idle rfl ?_ ?_ hp hi (hm.1 h.imageWf) ?_ ht hx
  · show t.err = _ ∨ t.err = _ ∨ t.err = _ ∨ t.err = _
    rw [he.1]; exact h.errCode
  · show t.err = _ ↔ t.errInfo = _
    rw [he.1, he.2]; exact h.errDetail
  · rcases hcap with hc | hc
    · exact hm.2 _ hc h.imageCap
    · show ∀ c ∈ t.image, _
      rw [hc]; exact h.imageCap

/-- At the end of the scan the position is at the start of a row (R40). -/
theorem posX_of_scanDone (h : s.Inv) (hb : s.busy = true) (hd : scanDone s = true) : s.posX = 0#16 := by
  rcases h.position hb with ⟨hx, hy⟩ | ⟨hx, -⟩
  · exfalso
    have : s.wNat * s.hNat ≠ 0 := Nat.mul_ne_zero (by omega) (by omega)
    simp only [scanDone, Bool.or_eq_true, decide_eq_true_eq] at hd
    omega
  · exact hx

/-- The whole scanning step: it goes on, and keeps the invariant. -/
theorem inv_scanCore (h : s.Inv) (hb : s.busy = true) (hi : i = .applyLut ∨ i = .dither) (ho : s.op = encode i) :
    ∃ t, commandStep Config.hw i s = .next t ∧ t.Inv := by
  have hs : s.scanning := by
    unfold State.scanning
    rw [ho]
    rcases hi with rfl | rfl
    · exact .inl rfl
    · exact .inr rfl
  obtain ⟨-, hwl, hhl⟩ := h.command hb
  have hcap : 3 * s.wNat * s.hNat ≤ Config.hw.imgCap := by
    have := (h.entry hb hs).2
    unfold State.bufferSize at this
    unfold State.wNat State.hNat
    rwa [hwl, hhl]
  have pw : ∀ g, ¬s.diffusing → ∃ t, pointwiseStep Config.hw g s = .next t ∧ t.Inv := by
    intro g hn
    by_cases hd : scanDone s = true
    · refine ⟨s.finish, by simp [pointwiseStep, hd], ?_⟩
      exact inv_finish h ((h.rows hb).2 hn) (memKept_refl s) (.inl hcap) (posX_of_scanDone h hb hd) ⟨rfl, rfl⟩
        h.pixOutTop h.idxOutGaps
    · obtain ⟨t, ht, hk⟩ := scanKept_pointwise (p := Config.hw) g h hb hn (by simpa using hd)
      exact ⟨t, ht, hk.inv h hb hs⟩
  rcases hi with rfl | rfl
  · have hn : ¬s.diffusing := fun e => by
      have := ho.symm.trans e.1
      exact absurd (encode_inj this) (by decide)
    show ∃ t, applyLutStep Config.hw s = .next t ∧ t.Inv
    rw [applyLutStep_eq (h.tables hb ho)]
    exact pw _ hn
  · show ∃ t, ditherStep Config.hw s = .next t ∧ t.Inv
    unfold ditherStep
    by_cases hm : methodOf s.m = 0 ∨ methodOf s.m = 1 ∨ methodOf s.m = 2
    · rw [if_pos hm]
      have hdf : s.diffusing := ⟨ho, hm⟩
      by_cases hd : scanDone s = true
      · refine ⟨(flushAll s).finish, by simp [diffusionStep, hd], ?_⟩
        have hO := onlyBuffers_flushAll s
        have hr := (h.rows hb).1 hdf
        have hh : heldOk s := fun j r hj => by
          obtain ⟨h1, -, -, h4, h5⟩ := hr j r hj
          exact ⟨h1, h4, h5⟩
        have hfields : (flushAll s).err = s.err ∧ (flushAll s).errInfo = s.errInfo ∧ (flushAll s).pixOut = s.pixOut ∧
            (flushAll s).idxOut = s.idxOut ∧ (flushAll s).posX = s.posX := by
          unfold onlyBuffers at hO
          rw [hO]
          simp
        obtain ⟨e1, e2, e3, e4, e5⟩ := hfields
        exact inv_finish h (tag_flushAll s) (image_flushAll hh) (.inl hcap)
          (by rw [e5]; exact posX_of_scanDone h hb hd) ⟨e1, e2⟩ (by rw [e3]; exact h.pixOutTop)
          (by rw [e4]; exact h.idxOutGaps)
      · obtain ⟨t, ht, hk⟩ := scanKept_diffusion (p := Config.hw) h hb hdf (by simpa using hd)
        exact ⟨t, ht, hk.inv h hb hs⟩
    · rw [if_neg hm]
      have hn : ¬s.diffusing := fun e => hm e.2
      split
      · exact pw _ hn
      · exact pw _ hn

/-- `PIX_OUT` and `IDX_OUT` as the map commands write them keep their zero bits (R32, R33). -/
theorem outWords (px : Pixel) (b : Byte) (a : BitVec 12) :
    (zextByte b).extractLsb' 24 8 = 0#8 ∧ (wordOfPixel px).extractLsb' 24 8 = 0#8 ∧
    (0#4 ++ a ++ 0#8 ++ b : Word).extractLsb' 28 4 = 0#4 ∧ (0#4 ++ a ++ 0#8 ++ b : Word).extractLsb' 8 8 = 0#8 := by
  refine ⟨?_, ?_, ?_, ?_⟩
  · apply BitVec.eq_of_getLsbD_eq
    intro k hk
    simp only [zextByte, BitVec.getLsbD_extractLsb', BitVec.getLsbD_setWidth]
    simp [BitVec.getLsbD_of_ge b (24 + k) (by omega)]
  all_goals
    apply BitVec.eq_of_getLsbD_eq
    intro k hk
    simp only [wordOfPixel, BitVec.getLsbD_extractLsb', BitVec.getLsbD_append]
    repeat (first | rw [if_pos (by omega)] | rw [if_neg (by omega)])
    simp

/-- A core step of the invariant's states goes on, and keeps the invariant. -/
theorem inv_coreStep (h : s.Inv) (hb : s.busy = true) : ∃ t, coreStep Config.hw s = .next t ∧ t.Inv := by
  obtain ⟨⟨i, ho⟩, hwl, hhl⟩ := h.command hb
  rw [coreStep_of_op ho]
  have other : ¬(i = .applyLut ∨ i = .dither) → s.posX = 0#16 ∧ s.tagsNone := by
    intro hn
    have hns : ¬s.scanning := fun e => hn (by
      unfold State.scanning at e
      rw [ho] at e
      exact e.imp encode_inj encode_inj)
    refine ⟨(h.still hb hns).1, (h.rows hb).2 (fun e => hns (.inr e.1))⟩
  have fin : ∀ {t : State}, ¬(i = .applyLut ∨ i = .dither) → t.rowbuf = s.rowbuf → t.image = s.image → t.posX = s.posX →
      t.err = s.err → t.errInfo = s.errInfo → t.pixOut.extractLsb' 24 8 = 0#8 →
      (t.idxOut.extractLsb' 28 4 = 0#4 ∧ t.idxOut.extractLsb' 8 8 = 0#8) → t.finish.Inv := by
    intro t hn e1 e2 e3 e4 e5 e6 e7
    obtain ⟨hx, ht⟩ := other hn
    refine inv_finish h (tagsNone_congr e1 ht) ?_ (.inr e2) (e3.trans hx) ⟨e4, e5⟩ e6 e7
    unfold memKept
    rw [e2]
    exact ⟨id, fun _ _ hc => hc⟩
  cases i with
  | nop => exact ⟨_, rfl, fin (by simp) rfl rfl rfl rfl rfl h.pixOutTop h.idxOutGaps⟩
  | buildLut => exact ⟨_, rfl, fin (by simp) rfl rfl rfl rfl rfl h.pixOutTop h.idxOutGaps⟩
  | applyLut => exact inv_scanCore h hb (.inl rfl) ho
  | dither => exact inv_scanCore h hb (.inr rfl) ho
  | map332 => exact ⟨_, rfl, fin (by simp) rfl rfl rfl rfl rfl (outWords ⟨0, 0, 0⟩ _ 0).1 h.idxOutGaps⟩
  | mapnn => exact ⟨_, rfl, fin (by simp) rfl rfl rfl rfl rfl (outWords _ 0 0).2.1 (outWords ⟨0, 0, 0⟩ _ _).2.2⟩
  | sreset => exact ⟨_, rfl, (inv_reset s).2⟩

/-- A meaning goes on, and keeps the invariant. -/
theorem inv_exec (h : s.Inv) (i : Instr) : ∃ t, exec i s = .next t ∧ t.Inv := by
  rcases exec_cases i s with ⟨-, e⟩ | ⟨hb, hc, e⟩ | ⟨hb, hc, -, e⟩ | ⟨hb, hc, -, e⟩
  · exact ⟨s, e, h⟩
  · exact ⟨_, e, inv_failed h hb hc⟩
  · rw [e, ← runToEnd_coreStep (p := Config.hw) _ acceptedBy_op]
    exact runToEnd_next State.Inv (fun u hu hub => inv_coreStep hu hub) _ (inv_accepted h hb hc)
  · exact ⟨_, e, inv_accepted h hb hc⟩

/-- No state of the invariant holds a reserved error code (R102). -/
theorem errReserved_of_inv (h : s.Inv) : errReserved s = false := by
  unfold errReserved
  rcases h.errCode with e | e | e | e <;> rw [e] <;> rfl

/-- A host write goes on, and keeps the invariant. -/
theorem inv_hostWrite (h : s.Inv) (space : Space) (offset : Nat) (width : Width) (v : Word) :
    ∃ t, hostWrite Config.hw exec space offset width v s = .next t ∧ t.Inv := by
  have goes : ∃ t, hostWrite Config.hw exec space offset width v s = .next t := by
    unfold hostWrite
    split
    · exact ⟨_, rfl⟩
    · split
      · split
        · unfold writeRegister
          split
          · unfold writeCmd
            split
            · rename_i i _
              obtain ⟨t, ht, -⟩ := inv_exec h i
              exact ⟨t, ht⟩
            · exact ⟨_, rfl⟩
          all_goals exact ⟨_, rfl⟩
        · exact ⟨_, rfl⟩
      · exact ⟨_, rfl⟩
  obtain ⟨t, ht⟩ := goes
  refine ⟨t, ht, ?_⟩
  rcases hostWrite_cases ht with rfl | ⟨hb, e, hwf, hcap⟩ | ⟨-, -, -, -, i, -, he⟩ | ⟨hb, hv, rfl⟩ | ⟨hb, -, -, -, rfl⟩ |
    ⟨hb, e, -⟩
  · exact h
  · obtain ⟨hT, hX⟩ := h.idle hb
    have f : t.busy = s.busy ∧ t.err = s.err ∧ t.errInfo = s.errInfo ∧ t.pixOut = s.pixOut ∧ t.idxOut = s.idxOut ∧
        t.rowbuf = s.rowbuf ∧ t.posX = s.posX := by rw [e]; simp
    obtain ⟨f1, f2, f3, f4, f5, f6, f7⟩ := f
    exact inv_idle (f1.trans hb) (by rw [f2]; exact h.errCode) (by rw [f2, f3]; exact h.errDetail)
      (by rw [f4]; exact h.pixOutTop) (by rw [f5]; exact h.idxOutGaps) (hwf h.imageWf) (hcap h.imageCap)
      (tagsNone_congr f6 hT) (f7.trans hX)
  · obtain ⟨u, hu, hI⟩ := inv_exec h i
    rw [hu] at he
    cases he
    exact hI
  · obtain ⟨hT, hX⟩ := h.idle hb
    refine inv_idle rfl (.inr (.inr (.inr rfl))) ?_ h.pixOutTop h.idxOutGaps h.imageWf h.imageCap hT hX
    constructor
    · intro e
      exact absurd e (by simp [State.raise, ErrorKind.code])
    · intro e
      exact absurd e (hv .nop)
  · obtain ⟨hT, hX⟩ := h.idle hb
    exact inv_idle hb h.errCode h.errDetail h.pixOutTop h.idxOutGaps h.imageWf h.imageCap hT hX
  · obtain ⟨hT, hX⟩ := h.idle hb
    have f : t.busy = s.busy ∧ t.err = s.err ∧ t.errInfo = s.errInfo ∧ t.pixOut = s.pixOut ∧ t.idxOut = s.idxOut ∧
        t.rowbuf = s.rowbuf ∧ t.posX = s.posX ∧ t.image = s.image := by rw [e]; simp
    obtain ⟨f1, f2, f3, f4, f5, f6, f7, f8⟩ := f
    exact inv_idle (f1.trans hb) (by rw [f2]; exact h.errCode) (by rw [f2, f3]; exact h.errDetail)
      (by rw [f4]; exact h.pixOutTop) (by rw [f5]; exact h.idxOutGaps) (by rw [f8]; exact h.imageWf)
      (by rw [f8]; exact h.imageCap) (tagsNone_congr f6 hT) (f7.trans hX)

/-- An act of the host goes on, and keeps the invariant. -/
theorem inv_hostAct (h : s.Inv) (act : HostAct) : ∃ t, hostAct Config.hw exec act s = .next t ∧ t.Inv := by
  cases act with
  | read space offset width =>
    rcases hostRead_cases Config.hw space offset width s with ⟨t, ht, e⟩ | ⟨-, e⟩
    · refine ⟨t, ht, ?_⟩
      rw [e]
      exact inv_host h _ _ _
    · rw [errReserved_of_inv h] at e
      cases e
  | write space offset width v => exact inv_hostWrite h space offset width v
  | resetPin => exact ⟨_, rfl, (inv_reset s).1⟩

end Sys2Proof.Laws
end

