-- ==== Sys2Proof/Laws/Numerics.lean ====
section
/-! SUPPORT. The integer tests of `NUM_REAL` against real numbers (R124, R125). -/

namespace Sys2Proof.Laws
open Sys2Proof.Machine

/-- The tone curve on real numbers: `vg(i) = (i / 255) ^ (1 / G)`, and 0 at 0 (R124). -/
noncomputable def vg (G : ℚ) (i : Byte) : ℝ := if i = 0#8 then 0 else ((i.toNat : ℝ) / 255) ^ (1 / (G : ℝ))

theorem toNat_eq_zero_iff (i : Byte) : i.toNat = 0 ↔ i = 0#8 := by
  constructor
  · exact fun h => BitVec.eq_of_toNat_eq h
  · rintro rfl; rfl

theorem vg_nonneg (G : ℚ) (i : Byte) : 0 ≤ vg G i := by
  unfold vg
  split
  · exact le_refl _
  · positivity

theorem vg_le_one {G : ℚ} (hG : 0 < G) (i : Byte) : vg G i ≤ 1 := by
  unfold vg
  split
  · exact zero_le_one
  · have hi : (i.toNat : ℝ) ≤ 255 := by exact_mod_cast (by omega : i.toNat ≤ 255)
    have hG : (0 : ℝ) < (G : ℝ) := by exact_mod_cast hG
    exact Real.rpow_le_one (by positivity) (by rw [div_le_one (by norm_num)]; exact hi) (by positivity)

/-- `vg(i)` to the power `p` is `i / 255` to the power `q`, for `G = p / q` (R124). -/
theorem vg_pow {G : ℚ} (hG : 0 < G) (i : Byte) : vg G i ^ G.num.toNat = ((i.toNat : ℝ) / 255) ^ G.den := by
  have hn : 0 < G.num := Rat.num_pos.mpr hG
  have hp : ((G.num.toNat : ℕ) : ℝ) = (G.num : ℝ) := by
    have : ((G.num.toNat : ℕ) : ℤ) = G.num := Int.toNat_of_nonneg hn.le
    exact_mod_cast this
  have hpos : 0 < G.num.toNat := by omega
  unfold vg
  split
  · subst_vars
    rw [zero_pow (by omega)]
    simp [G.den_nz]
  · rename_i hi
    have hi' : (0 : ℝ) < i.toNat := by
      have : i.toNat ≠ 0 := fun e => hi ((toNat_eq_zero_iff i).mp e)
      exact_mod_cast Nat.pos_of_ne_zero this
    rw [← Real.rpow_natCast, ← Real.rpow_mul (by positivity), ← Real.rpow_natCast]
    congr 1
    rw [hp, Rat.cast_def]
    have h1 : (G.num : ℝ) ≠ 0 := by exact_mod_cast hn.ne'
    have h2 : (G.den : ℝ) ≠ 0 := by exact_mod_cast G.den_nz
    field_simp

/-- A positive rational to a power, over its numerator and denominator. -/
theorem ratPow {t : ℚ} (ht : 0 ≤ t) (n : ℕ) : ((t : ℝ) ^ n) = (t.num.toNat : ℝ) ^ n / (t.den : ℝ) ^ n := by
  have : ((t.num.toNat : ℕ) : ℤ) = t.num := Int.toNat_of_nonneg (Rat.num_nonneg.mpr ht)
  have h : ((t.num.toNat : ℕ) : ℝ) = (t.num : ℝ) := by exact_mod_cast this
  rw [← div_pow, h, ← Rat.cast_def]

/-- The integer test for `vg(i) ≥ t` is right. -/
theorem vgAtLeast_iff {G : ℚ} (hG : 0 < G) (i : Byte) (t : ℚ) : vgAtLeast G i t = true ↔ (t : ℝ) ≤ vg G i := by
  have hn : G.num.toNat ≠ 0 := by have := Rat.num_pos.mpr hG; omega
  unfold vgAtLeast
  by_cases ht : t ≤ 0
  · have h1 : t.num ≤ 0 := Rat.num_nonpos.mpr ht
    have h2 : (t : ℝ) ≤ 0 := by exact_mod_cast ht
    simp [h1, h2.trans (vg_nonneg G i)]
  · have ht : 0 < t := not_le.mp ht
    have h1 : ¬t.num ≤ 0 := not_le.mpr (Rat.num_pos.mpr ht)
    have ht' : (0 : ℝ) ≤ (t : ℝ) := by exact_mod_cast ht.le
    have hd : (0 : ℝ) < (t.den : ℝ) ^ G.num.toNat := by have := t.den_pos; positivity
    simp only [h1, decide_false, Bool.false_or, decide_eq_true_eq]
    rw [← pow_le_pow_iff_left₀ ht' (vg_nonneg G i) hn, vg_pow hG, ratPow ht.le, div_pow, div_le_div_iff₀ hd (by positivity)]
    exact_mod_cast Iff.rfl

/-- The integer test for `vg(i) ≤ t` is right. -/
theorem vgAtMost_iff {G : ℚ} (hG : 0 < G) (i : Byte) (t : ℚ) : vgAtMost G i t = true ↔ vg G i ≤ (t : ℝ) := by
  have hn : G.num.toNat ≠ 0 := by have := Rat.num_pos.mpr hG; omega
  unfold vgAtMost
  by_cases ht : 0 ≤ t
  · have h1 : 0 ≤ t.num := Rat.num_nonneg.mpr ht
    have ht' : (0 : ℝ) ≤ (t : ℝ) := by exact_mod_cast ht
    have hd : (0 : ℝ) < (t.den : ℝ) ^ G.num.toNat := by have := t.den_pos; positivity
    simp only [h1, decide_true, Bool.true_and, decide_eq_true_eq]
    rw [← pow_le_pow_iff_left₀ (vg_nonneg G i) ht' hn, vg_pow hG, ratPow ht, div_pow, div_le_div_iff₀ (by positivity) hd]
    exact_mod_cast Iff.rfl
  · have ht : t < 0 := not_le.mp ht
    have h1 : ¬0 ≤ t.num := not_le.mpr (Rat.num_neg.mpr ht)
    have h2 : (t : ℝ) < 0 := by exact_mod_cast ht
    simp only [h1, decide_false, Bool.false_and, Bool.false_eq_true, false_iff, not_le]
    exact h2.trans_le (vg_nonneg G i)

/-- The integer test for `v'(i) ≥ t` is right. -/
theorem vcAtLeast_iff {G : ℚ} (hG : 0 < G) (C L : ℚ) (i : Byte) (t : ℚ) :
    vcAtLeast G C L i t = true ↔
      (t : ℝ) ≤ (contrastFactor C : ℝ) * (vg G i * (L : ℝ) - 1 / 2) + 1 / 2 := by
  set f := contrastFactor C with hf
  have key : ((t : ℝ) ≤ (f : ℝ) * (vg G i * (L : ℝ) - 1 / 2) + 1 / 2) ↔
      ((t - 1 / 2 + f / 2 : ℚ) : ℝ) ≤ ((f * L : ℚ) : ℝ) * vg G i := by
    push_cast
    constructor <;> intro h <;> nlinarith
  rw [key]
  unfold vcAtLeast
  rw [← hf]
  dsimp only
  split
  · rename_i h
    have h' : (0 : ℝ) < ((f * L : ℚ) : ℝ) := by exact_mod_cast h
    rw [vgAtLeast_iff hG, Rat.cast_div, div_le_iff₀ h', mul_comm]
  · split
    · rename_i h
      have h' : ((f * L : ℚ) : ℝ) < 0 := by exact_mod_cast h
      rw [vgAtMost_iff hG, Rat.cast_div, le_div_iff_of_neg h', mul_comm]
    · rename_i h1 h2
      have h0 : f * L = 0 := le_antisymm (not_lt.mp h1) (not_lt.mp h2)
      rw [h0, decide_eq_true_eq]
      simp only [Rat.cast_zero, zero_mul]
      exact_mod_cast Iff.rfl

/-- Counting the boundaries up to a value is rounding it, ties up (R10, R125). -/
theorem rnd255_floor {atLeast atMost : ℚ → Bool} {v : ℝ}
    (h : ∀ t : ℚ, 0 < t → t < 1 → (atLeast t = true ↔ (t : ℝ) ≤ v)) :
    ((rnd255 tiesUp atLeast atMost).toNat : ℤ) = ⌊max 0 (min 1 v) * 255 + 1 / 2⌋ := by
  set c := max 0 (min 1 v) with hc
  have c0 : 0 ≤ c := le_max_left _ _
  have c1 : c ≤ 1 := max_le zero_le_one (min_le_left _ _)
  obtain ⟨N, hN⟩ : ∃ N : ℕ, ⌊c * 255 + 1 / 2⌋ = N := Int.eq_ofNat_of_zero_le (Int.floor_nonneg.mpr (by positivity))
  have hN255 : N ≤ 255 := by
    have : ⌊c * 255 + 1 / 2⌋ < 256 := Int.floor_lt.mpr (by push_cast; linarith)
    omega
  have hk : ∀ k ∈ List.range 255, (atLeast (mkRat (2 * k + 1) 510) = true ↔ decide (k < N) = true) := by
    intro k hk
    have hk : k < 255 := List.mem_range.mp hk
    have hkq : (k : ℚ) ≤ 254 := by exact_mod_cast (by omega : k ≤ 254)
    have e : mkRat (2 * k + 1) 510 = (2 * (k : ℚ) + 1) / 510 := by
      rw [Rat.mkRat_eq_div]; push_cast; rfl
    have ht0 : 0 < mkRat (2 * k + 1) 510 := by rw [e]; positivity
    have ht1 : mkRat (2 * k + 1) 510 < 1 := by rw [e, div_lt_one (by norm_num)]; linarith
    rw [h _ ht0 ht1, decide_eq_true_eq]
    have ht0' : (0 : ℝ) < ((mkRat (2 * k + 1) 510 : ℚ) : ℝ) := by exact_mod_cast ht0
    have ht1' : ((mkRat (2 * k + 1) 510 : ℚ) : ℝ) < 1 := by exact_mod_cast ht1
    have hcl : ((mkRat (2 * k + 1) 510 : ℚ) : ℝ) ≤ v ↔ ((mkRat (2 * k + 1) 510 : ℚ) : ℝ) ≤ c := by
      rw [hc, le_max_iff, le_min_iff]
      constructor
      · exact fun hv => .inr ⟨ht1'.le, hv⟩
      · rintro (hv | hv)
        · linarith
        · exact hv.2
    have e' : ((mkRat (2 * k + 1) 510 : ℚ) : ℝ) = (2 * (k : ℝ) + 1) / 510 := by rw [e]; push_cast; rfl
    rw [hcl, e', div_le_iff₀ (by norm_num)]
    have hfl : (k + 1 : ℤ) ≤ ⌊c * 255 + 1 / 2⌋ ↔ ((k + 1 : ℤ) : ℝ) ≤ c * 255 + 1 / 2 := Int.le_floor
    rw [hN] at hfl
    push_cast at hfl
    constructor
    · intro hv
      have := hfl.mpr (by linarith)
      omega
    · intro hv
      have := hfl.mp (by omega)
      linarith
  have hcount : (List.range 255).countP (fun (k : Nat) => atLeast (mkRat (2 * (k : Int) + 1) 510)) = N := by
    rw [List.countP_congr hk]
    have : ∀ m n, n ≤ m → (List.range m).countP (fun k => decide (k < n)) = n := by
      intro m
      induction m with
      | zero => intro n hn; simp; omega
      | succ m ih =>
        intro n hn
        rw [List.range_succ, List.countP_append]
        by_cases e : n ≤ m
        · rw [ih n e]; simp; omega
        · have e : n = m + 1 := by omega
          subst e
          have : (List.range m).countP (fun k => decide (k < m + 1)) = (List.range m).countP (fun k => decide (k < m)) :=
            List.countP_congr (fun k hk => by have := List.mem_range.mp hk; simp; omega)
          rw [this, ih m (Nat.le_refl _)]
          simp
    exact this 255 N hN255
  simp only [rnd255, tiesUp, Bool.true_or, Bool.and_true]
  rw [hcount, hN, BitVec.toNat_ofNat, Nat.mod_eq_of_lt (by omega)]

end Sys2Proof.Laws
end

