-- ==== Sys2Proof/Laws/PerInstr.lean ====
section
/-! SUPPORT. Statements about every command as syntax, one lemma per constructor. -/

namespace Sys2Proof.Laws.RoundTrip

/-- The command word of `i` is well formed (R92, R93) and decodes to `i` (R91). -/
def Statement (i : Instr) : Prop := commandWordWf (encode i) = true ∧ decode (encode i) = .ok i

theorem nop : Statement .nop := ⟨rfl, rfl⟩
theorem buildLut : Statement .buildLut := ⟨rfl, rfl⟩
theorem applyLut : Statement .applyLut := ⟨rfl, rfl⟩
theorem dither : Statement .dither := ⟨rfl, rfl⟩
theorem map332 : Statement .map332 := ⟨rfl, rfl⟩
theorem mapnn : Statement .mapnn := ⟨rfl, rfl⟩
theorem sreset : Statement .sreset := ⟨rfl, rfl⟩

end Sys2Proof.Laws.RoundTrip
end

