-- ==== Sys2Proof/Laws/Raster.lean ====
section
/-! SUPPORT. The forward-raster property of the stencils (R183): a pixel step of R172 decides its own pixel and leaves
every pixel before it. -/

namespace Sys2Proof.Laws
open Sys2Proof.Machine

variable {p : Params} {st : List StencilEntry}

/-- The pixel `(x, y)` comes before `(x', y')` in raster order, or is it. -/
def notAfter (x y x' y' : Nat) : Prop := y < y' ∨ (y = y' ∧ x ≤ x')

/-- An entry that points to the right, or down (R183). -/
def forward (ent : StencilEntry) : Prop := 1 ≤ ent.dy ∨ (ent.dy = 0 ∧ 1 ≤ ent.dx)

/-- So does every entry of the hardware's stencils. -/
theorem stencil_forward (k : Fin 3) : ∀ ent ∈ Config.hw.stencil k, forward ent := by
  unfold forward
  fin_cases k <;> decide

/-- Spreading the error of a pixel leaves it and every pixel before it. -/
theorem refSpread_before {w h x y x' y' : Nat} (e : ChannelError) (st : List StencilEntry)
    (hst : ∀ ent ∈ st, forward ent) (f : ImageFn) (hx : x < w) (hb : notAfter x y x' y') :
    ImageFn.pixel (refSpread p w h x' y' e st f) w x y = ImageFn.pixel f w x y := by
  induction st generalizing f with
  | nil => rfl
  | cons ent rest ih =>
    rw [refSpread, ih (fun e he => hst e (List.mem_cons_of_mem _ he))]
    have hf := hst ent (by simp)
    split
    · rename_i hin
      rw [ImageFn_pixel_put _ _ (by omega) hx, if_neg]
      rintro ⟨e1, e2⟩
      unfold forward at hf
      unfold notAfter at hb
      omega
    · rfl

/-- A pixel step of R172 leaves every pixel before its own. -/
theorem refDiffusionPixel_before {w h x y x' y' : Nat} (hst : ∀ ent ∈ st, forward ent) (f : ImageFn)
    (hx : x < w) (hx' : x' < w)
    (hb : y < y' ∨ (y = y' ∧ x < x')) :
    ImageFn.pixel (refDiffusionPixel p st w h f (x', y')) w x y = ImageFn.pixel f w x y := by
  simp only [refDiffusionPixel]
  rw [refSpread_before _ _ hst _ hx (by unfold notAfter; omega), ImageFn_pixel_put _ _ hx' hx,
    if_neg (by omega)]

/-- A pixel step of R172 makes its own pixel the quantised one. -/
theorem refDiffusionPixel_here {w h x y : Nat} (hst : ∀ ent ∈ st, forward ent) (f : ImageFn) (hx : x < w) :
    ImageFn.pixel (refDiffusionPixel p st w h f (x, y)) w x y =
      nearestRgb p (ImageFn.pixel f w x y) := by
  simp only [refDiffusionPixel]
  rw [refSpread_before _ _ hst _ hx (.inr ⟨rfl, Nat.le_refl _⟩), ImageFn_pixel_put _ _ hx hx,
    if_pos ⟨rfl, rfl⟩]

/-- After the fold of R172 every pixel of the image is a quantised one (R187). -/
theorem refDiffusion_palette {w h x y : Nat} (hst : ∀ ent ∈ st, forward ent) (f : ImageFn) (hx : x < w) (hy : y < h) :
    ∃ px, ImageFn.pixel (refDiffusion p st w h f) w x y = nearestRgb p px := by
  have key : ∀ n ≤ w * h, ∀ x y, x < w → y < h → y * w + x < n →
      ∃ px, ImageFn.pixel (((rasterOrder w h).take n).foldl (refDiffusionPixel p st w h) f) w x y =
        nearestRgb p px := by
    intro n
    induction n with
    | zero => intro _ x y _ _ h; omega
    | succ n ih =>
      intro hn x y hx hy hlt
      have hw : 0 < w := by omega
      have hl : n < (rasterOrder w h).length := by simp [rasterOrder_eq]; omega
      have hget : (rasterOrder w h)[n] = (n % w, n / w) := by simp [rasterOrder_eq]
      rw [List.take_succ_eq_append_getElem hl, List.foldl_append, hget, List.foldl_cons, List.foldl_nil]
      set g := ((rasterOrder w h).take n).foldl (refDiffusionPixel p st w h) f
      have hm := Nat.mod_lt n hw
      by_cases he : y * w + x = n
      · obtain ⟨h1, h2⟩ := pixelIndex_div_mod (y := y) hx
        rw [← he, h1, h2]
        exact ⟨_, refDiffusionPixel_here hst g hx⟩
      · rw [refDiffusionPixel_before hst g hx hm]
        · exact ih (by omega) x y hx hy (by omega)
        · have e := Nat.div_add_mod n w
          rcases Nat.lt_trichotomy y (n / w) with h1 | h1 | h1
          · exact .inl h1
          · subst h1
            rw [Nat.mul_comm] at e
            exact .inr ⟨rfl, by omega⟩
          · exfalso
            have : (n / w + 1) * w ≤ y * w := Nat.mul_le_mul_right w h1
            have e2 : (n / w + 1) * w = w * (n / w) + w := by ring
            omega
  have hlen : (rasterOrder w h).length = w * h := by simp [rasterOrder_eq]
  have := key (w * h) (Nat.le_refl _) x y hx hy (pixelIndex_lt hx hy)
  rwa [← hlen, List.take_length] at this

end Sys2Proof.Laws
end

