-- ==== Sys2Proof/Tests/Slice0.lean ====
section
/-! SUPPORT. The model's own tests: expected results from `95_test_vectors.md`, with its fixture ROMs. -/

namespace Sys2Proof.Tests
open Sys2Proof.Machine

/-- `PALETTE_F1` (95 section 2). -/
def paletteF1 (p : Byte) : Pixel :=
  let l8 : List Byte := [0, 36, 73, 109, 146, 182, 219, 255]
  let l4 : List Byte := [0, 85, 170, 255]
  ⟨l8.getD (p.toNat / 32) 0, l8.getD (p.toNat / 4 % 8) 0, l4.getD (p.toNat % 4) 0⟩

/-- `NEAREST_F1` (95 section 2). -/
def nearestF1 (i : BitVec 12) : Byte :=
  BitVec.ofNat 8 (i.toNat / 256 / 2 * 32 + i.toNat / 16 % 16 / 2 * 4 + i.toNat % 16 / 4)

/-- `BAYER_F1`, by its recursion (95 section 2). -/
def bayerF1 : Nat → Nat → Nat → Nat
  | 0, _, _ => 0
  | n + 1, r, c =>
    4 * bayerF1 n (r % 2 ^ n) (c % 2 ^ n)
      + (match r / 2 ^ n, c / 2 ^ n with | 0, 0 => 0 | 0, _ => 2 | _, 0 => 3 | _, _ => 1)

/-- The fixtures, with the defaults R7 gives (`NUM_REAL` among them) and a capacity of 65536 bytes. -/
def fix : Params where
  nearestRom := nearestF1
  paletteRom := paletteF1
  bayerRom := fun r c => BitVec.ofNat 8 (bayerF1 4 r.toNat c.toNat)
  imgCap := 65536
  unwritten := fun _ _ => 0xA5#8
  draw := fun n => BitVec.ofNat 32 (0xDEAD0000 + n)

/-- An idle state with a loaded image, row-major. -/
def loaded (w h : Nat) (method : Word) (pixels : List (Nat × Nat × Nat)) : State :=
  { State.reset with
    bufv := true
    method := method
    width := BitVec.ofNat 16 w
    height := BitVec.ofNat 16 h
    image := (pixels.flatMap (fun q => [q.1, q.2.1, q.2.2])).zipIdx.map (fun q => (q.2, BitVec.ofNat 8 q.1)) }

/-- The image bytes after a meaning. -/
def imageAfter (r : Result) : List Nat :=
  match r with
  | .next t => t.image.map (fun c => c.2.toNat)
  | _ => []

/-! ### Decoding: words written out from the tables of R90 and R91 -/

/-- Control family: `NOP`, opcode 0x00, and `SRESET`, opcode 0x06. -/
theorem test_decode_control :
    decode 0b00000000_00000000_00000000_00000000#32 = .ok .nop ∧
    decode 0b00000000_00000000_00000000_00000110#32 = .ok .sreset := by decide

/-- Tone family: `BUILD_LUT`, opcode 0x01, and `APPLY_LUT`, opcode 0x02. -/
theorem test_decode_tone :
    decode 0b00000000_00000000_00000000_00000001#32 = .ok .buildLut ∧
    decode 0b00000000_00000000_00000000_00000010#32 = .ok .applyLut := by decide

/-- Dither family: `DITHER`, opcode 0x03. -/
theorem test_decode_dither :
    decode 0b00000000_00000000_00000000_00000011#32 = .ok .dither := by decide

/-- Palette family: `MAP332`, opcode 0x04, and `MAPNN`, opcode 0x05; the first also from its bytes. -/
theorem test_decode_palette :
    decode 0b00000000_00000000_00000000_00000100#32 = .ok .map332 ∧
    decode 0b00000000_00000000_00000000_00000101#32 = .ok .mapnn ∧
    decodeBytes [0x04#8, 0x00#8, 0x00#8, 0x00#8] = .ok (.map332, []) := by decide

/-- The ill-formed word of V-CT5: a legal opcode under a reserved bit. -/
theorem test_wellformed_refuses_reserved :
    reservedZero 0x00000101#32 = false ∧ commandWordWf 0x00000101#32 = false ∧
    decode 0x00000101#32 = .error (.reservedBits 0x00000101#32) := by decide

/-- The ill-formed word of V-CT4: the first opcode of no command. -/
theorem test_wellformed_refuses_opcode :
    opcodeAssigned 0x00000007#32 = false ∧ commandWordWf 0x00000007#32 = false ∧
    decode 0x00000007#32 = .error (.unassignedOpcode 0x00000007#32) := by decide

/-! ### One command each, expected results from `95_test_vectors.md` -/

/-- What a result shows of its next state. -/
def view (f : State → List Nat) (r : Result) : List Nat :=
  match r with
  | .next t => f t
  | _ => []

/-- V-CT2. -/
theorem test_nop : view (fun t => [(statusWord t).toNat, t.op.toNat]) (exec .nop State.reset) = [0x002, 0] := by
  decide

/-- V-CT17, from a state with everything set. -/
theorem test_sreset :
    view (fun t => [(statusWord t).toNat, (ctrlWord t).toNat, t.gamma.toNat, t.method.toNat, t.image.length])
      (exec .sreset { loaded 1 1 3 [(1, 2, 3)] with ie := true, estk := true, lutv := true, gamma := 5#32 })
      = [0x002, 0, 0x3F800000, 0xFFFFFFFF, 0] := by
  decide

/-- V-TC2 at 1, 3 and 255, where every entry is a tie of the rounding; then with `ROUND_TIES` half to even. -/
theorem test_build_lut :
    view (fun t => [(tableAt t.lutG 77#8).toNat, (tableAt t.lutC 1#8).toNat, (tableAt t.lutC 3#8).toNat,
        (tableAt t.lutC 255#8).toNat, (statusWord t).toNat])
      (cmdBuildLut fix { State.reset with lightness := 0x3F000000#32 }) = [77, 1, 2, 128, 0x00A] ∧
    view (fun t => [1#8, 3#8, 5#8, 255#8].map fun i => (tableAt t.lutC i).toNat)
      (cmdBuildLut { fix with roundTies := fun k => k % 2 == 1 } { State.reset with lightness := 0x3F000000#32 })
      = [0, 2, 2, 128] := by
  decide +kernel

/-- V-TC29. -/
theorem test_build_lut_fails :
    view (fun t => [(statusWord t).toNat, t.errInfo.toNat])
      (exec .buildLut { State.reset with gamma := 0#32, contrast := 0x43818000#32 }) = [0x206, 0x300] := by
  decide

/-- V-TC16, the pixel (255, 3, 100), on the tables of V-TC2. -/
theorem test_apply_lut :
    imageAfter (cmdApplyLut fix { loaded 1 1 0 [(255, 3, 100)] with
      lutv := true
      lutG := tableOf id
      lutC := tableOf (fun i => BitVec.ofNat 8 ((i.toNat + 1) / 2)) }) = [128, 2, 50] := by
  decide +kernel

/-- V-CT7. -/
theorem test_apply_lut_fails :
    view (fun t => [(statusWord t).toNat, t.errInfo.toNat]) (exec .applyLut State.reset) = [0x106, 0x5] := by
  decide

/-- V-ED1 (Floyd-Steinberg), V-ED4 (Jarvis, and Atkinson on one column). -/
theorem test_dither_error_diffusion :
    imageAfter (cmdDither fix (loaded 3 2 0 (List.replicate 6 (100, 100, 100)))) =
      [73, 73, 85, 109, 109, 85, 73, 73, 85, 109, 109, 85, 109, 109, 85, 109, 109, 85] ∧
    imageAfter (cmdDither fix (loaded 4 1 1 (List.replicate 4 (10, 200, 130)))) =
      [0, 182, 85, 0, 182, 85, 0, 182, 170, 0, 219, 85] ∧
    imageAfter (cmdDither fix (loaded 1 3 2 (List.replicate 3 (100, 100, 100)))) =
      [73, 73, 85, 109, 109, 85, 73, 73, 85] := by
  decide +kernel

/-- V-BD2 (Bayer, with a clamp) and V-ED7 (no dither, a method out of range). -/
theorem test_dither_pointwise :
    imageAfter (cmdDither fix (loaded 2 1 3 [(3, 250, 128), (3, 250, 128)])) = [0, 219, 85, 0, 255, 85] ∧
    imageAfter (cmdDither fix (loaded 3 1 0x80000000#32 [(128, 128, 128), (200, 100, 50), (17, 17, 17)])) =
      [109, 109, 85, 182, 73, 0, 0, 0, 0] := by
  decide +kernel

/-- V-PM7. -/
theorem test_map332 :
    view (fun t => [t.pixOut.toNat, t.idxOut.toNat]) (exec .map332 { State.reset with pixIn := 0xC86432#24 })
      = [0xCC, 0] := by
  decide

/-- V-PM12. -/
theorem test_mapnn :
    view (fun t => [t.pixOut.toNat, t.idxOut.toNat]) (cmdMapnn fix { State.reset with pixIn := 0xC86432#24 })
      = [0x00B64900, 0x0B5200A8] := by
  decide

/-- V-ME4: the Encoder's file of the image of V-ED1. -/
theorem test_encoder_file :
    Script.encoderFile fix (loaded 3 2 0 [(73, 73, 85), (109, 109, 85), (73, 73, 85), (109, 109, 85),
      (109, 109, 85), (109, 109, 85)]) =
      [0x03#8, 0x00#8, 0x02#8, 0x00#8, 0x32#8, 0x03#8, 0x49#8, 0x6D#8, 0x49#8, 0x6D#8, 0x6D#8, 0x6D#8] := by
  decide +kernel

/-! ### Witnesses: a concrete state and operands for the hypotheses of every obligation that has some

An obligation that needs an image of at least one pixel has a witness under the assumption that such an image fits in
`IMG_CAP`: R7 lets the capacity be any positive integer, so no such witness is there without it. -/

/-- `NOP` accepted from a host that does not wait. -/
def running : State := { State.reset with busy := true }

/-- An idle block with an image of `w` by `h` pixels declared. -/
def declared (w h : BitVec 16) (method : Word) : State :=
  { State.reset with bufv := true, lutv := true, width := w, height := h, method := method }

/-- An idle block whose host acts right after the next command's acceptance. -/
def impatient (method : Word) : State :=
  { declared 0#16 5#16 method with host := [⟨some 0, .read .window 0x08 .w32⟩] }

/-- `DITHER`, method 0, of a 2x1 image, before its second pixel. -/
def secondPixel : State :=
  { declared 2#16 1#16 0#32 with busy := true, op := encode .dither, wl := 2#16, hl := 1#16, posX := 1#16 }

theorem declared_inv (w h : BitVec 16) (method : Word) : (declared w h method).Inv :=
  Laws.inv_idle rfl (.inl rfl) ⟨fun _ => rfl, fun _ => rfl⟩
    (by exact (by decide : (0#32).extractLsb' 24 8 = 0#8))
    (by exact (by decide : (0#32).extractLsb' 28 4 = 0#4 ∧ (0#32).extractLsb' 8 8 = 0#8)) rfl
    (fun _ hc => nomatch hc) (fun j => by fin_cases j <;> rfl) rfl

theorem running_inv : running.Inv where
  busyDone := by decide
  errCode := by decide
  errBusy := by decide
  errDetail := by decide
  pixOutTop := by decide
  idxOutGaps := by decide
  imageWf := by decide
  imageCap := fun _ hc => nomatch hc
  idle := fun h => nomatch h
  command := fun _ => ⟨⟨.nop, rfl⟩, rfl, rfl⟩
  entry := fun _ h => absurd h (by unfold State.scanning; decide)
  tables := fun _ h => absurd h (by decide)
  params := fun _ h => absurd h (by decide)
  position := fun _ => .inr ⟨rfl, .inr rfl⟩
  still := fun _ _ => ⟨rfl, rfl⟩
  method := fun _ h => absurd h (by decide)
  rows := fun _ => ⟨fun h => absurd h.1 (by decide), fun _ j => by fin_cases j <;> rfl⟩

theorem secondPixel_inv (hcap : 6 ≤ Config.hw.imgCap) : secondPixel.Inv where
  busyDone := by decide
  errCode := by decide
  errBusy := by decide
  errDetail := by decide
  pixOutTop := by decide
  idxOutGaps := by decide
  imageWf := by decide
  imageCap := fun _ hc => nomatch hc
  idle := fun h => nomatch h
  command := fun _ => ⟨⟨.dither, rfl⟩, rfl, rfl⟩
  entry := fun _ _ => ⟨rfl, hcap⟩
  tables := fun _ h => absurd h (by decide)
  params := fun _ h => absurd h (by decide)
  position := fun _ => .inl (by decide)
  still := fun _ h => absurd (.inr rfl) h
  method := fun _ _ => ⟨rfl, fun _ => rfl⟩
  rows := fun _ => ⟨fun _ j r h => absurd h (by fin_cases j <;> exact fun h => nomatch h),
    fun _ j => by fin_cases j <;> rfl⟩

theorem witness_DecodeInvertsEncode :
    decode 0x00000003#32 = .ok .dither ∧ decodeBytes [0x06#8, 0#8, 0#8, 0#8, 0xAA#8] = .ok (.sreset, [0xAA#8]) := by
  decide

theorem witness_IllegalWordsAreRejectedByName :
    (0x00000100#32).extractLsb' 8 24 ≠ 0#24 ∧ (0xFFFFFFFF#32).extractLsb' 8 24 ≠ 0#24 ∧
    ((0x00000007#32).extractLsb' 8 24 = 0#24 ∧ 0x07#8 ≤ (0x00000007#32).extractLsb' 0 8) ∧
    ((0x000000FF#32).extractLsb' 8 24 = 0#24 ∧ 0x07#8 ≤ (0x000000FF#32).extractLsb' 0 8) ∧
    ((0x00000000#32).extractLsb' 8 24 = 0#24 ∧ (0x00000000#32).extractLsb' 0 8 < 0x07#8) ∧
    ((0x00000006#32).extractLsb' 8 24 = 0#24 ∧ (0x00000006#32).extractLsb' 0 8 < 0x07#8) := by
  decide

theorem witness_StepRunsTheDecodedCommand : State.reset.busy = false ∧ decode 0x00000005#32 = .ok .mapnn := by
  decide

theorem witness_PlacedWordRuns : decodeTableWord 32 0x00000006 = some .sreset := by decide

theorem witness_IllegalWordRaisesIllegalCommand :
    State.reset.busy = false ∧ (0x00000101#32).extractLsb' 8 24 ≠ 0#24 ∧
    0x07#8 ≤ (0x00000007#32).extractLsb' 0 8 := by decide

theorem witness_IdleBlockStaysAsItIs : State.reset.busy = false ∧ State.reset.host = [] := by decide

theorem witness_BusyRegisterSpace : running.busy = true ∧ errReserved running = false := by decide

theorem witness_RegistersReadTheirFields : State.reset.busy = false ∧ errReserved State.reset = false := by decide

/-- For the interrupt line: a written 1 to `DONE`, a cleared `IE`, and an accepted command. -/
theorem witness_StatusFieldPlaces :
    (State.reset.busy = false ∧ (0x2#32).getLsbD 1 = true ∧ (0x2#32).getLsbD 0 = false) ∧
    ∃ t, (impatient 0#32).busy = false ∧ exec .nop { impatient 0#32 with ie := true, done := true } = .next t ∧
      t.busy = true := ⟨by decide, _, rfl, rfl, rfl⟩

theorem witness_RegisterWritesOfAnIdleBlock :
    (declared 1#16 1#16 0#32).busy = false ∧ State.reset.busy = false := by decide

/-- Offset 0x3C and 0xFF, a byte access at 0x00 and a misaligned word at 0x0A. -/
theorem witness_UnansweredRegisterAccesses : running.due (some 0) ∧ State.reset.due none ∧ State.reset.due (some 3) ∧
    (0x3C < 0x100 ∧ 0x3C ≤ 0x3C) ∧ (0xFF < 0x100 ∧ 0x3C ≤ 0xFF) ∧ (0x00 < 0x100 ∧ Width.w8 ≠ .w32) ∧
    (0x0A < 0x100 ∧ 0x0A % 4 ≠ 0) := ⟨.inr rfl, .inl rfl, .inl rfl, by decide⟩

/-- A write to `WIDTH` of a block with `BUFV = 1`. -/
theorem witness_GeometryLock : ∃ t, (declared 3#16 2#16 0#32).bufv = true ∧ t.bufv = true ∧
    step ((declared 3#16 2#16 0#32).facing none (.write .window 0x20 .w32 7#32)) = .next t :=
  ⟨declared 3#16 2#16 0#32, rfl, rfl, rfl⟩

theorem witness_HostReadsHaveNoSideEffect : running.due (some 0) ∧ State.reset.due none ∧
    (∃ t, step (running.facing (some 0) (.read .window 0x2C .w32)) = .next t) ∧
    (∃ t, step (State.reset.facing none (.read .window 0x2C .w32)) = .next t) :=
  ⟨.inr rfl, .inl rfl, ⟨_, rfl⟩, ⟨_, rfl⟩⟩

/-- The first and the last byte and word of the two windows, the words of the ROM windows, and a 16-bit and a
misaligned access at the ends of the table space. -/
theorem witness_TableSpaceReads :
    (State.reset.due none ∧ running.due (some 0)) ∧
    ((declared 0#16 0#16 0#32).lutv = true ∧ (declared 0#16 0#16 0#32).busy = false ∧ (0xFC#8).toNat % 4 = 0) ∧
    (State.reset.lutv = false ∧ 0x400 ≤ 0x400 ∧ 0x400 < 0x600 ∧ 0x400 % 4 = 0) ∧
    (running.busy = true ∧ 0x400 ≤ 0x5FC ∧ 0x5FC < 0x600 ∧ 0x5FC % 4 = 0) ∧
    (0xC#4).toNat % 4 = 0 ∧ (0xFFC#12).toNat % 4 = 0 ∧
    (0x400 ≤ 0x400 ∧ 0x400 < 0x2000 ∧ Width.w16 = .w16) ∧ (0x400 ≤ 0x1FFF ∧ 0x1FFF < 0x2000 ∧ 0x1FFF % 4 ≠ 0) ∧
    0x100 ≤ 0x100 := ⟨⟨.inl rfl, .inr rfl⟩, by decide⟩

theorem witness_UnmappedTableOffsetsReadZero : running.due (some 0) ∧ State.reset.due none ∧
    (0x100 ≤ 0x100 ∧ 0x100 < 0x400) ∧ (0x100 ≤ 0x3FF ∧ 0x3FF < 0x400) ∧ (0x700 ≤ 0x700 ∧ 0x700 < 0x800) ∧
    (0x700 ≤ 0x7FF ∧ 0x7FF < 0x800) ∧ (0xC00 ≤ 0xC00 ∧ 0xC00 < 0x1000) ∧ (0xC00 ≤ 0xFFF ∧ 0xFFF < 0x1000) :=
  ⟨.inr rfl, .inl rfl, by decide⟩

/-- The first byte is there in every machine; a word is where four bytes are. -/
theorem witness_ImageWritesOfTheHost :
    State.reset.busy = false ∧ 0 < Config.hw.imgCap ∧
    (4 ≤ Config.hw.imgCap → 0 % 4 = 0 ∧ 0 + 3 < Config.hw.imgCap) :=
  ⟨rfl, Nat.succ_pos _, fun h => ⟨rfl, h⟩⟩

theorem witness_ImageReadsOfTheHost :
    State.reset.busy = false ∧ Config.hw.imgCap - 1 < Config.hw.imgCap ∧
    (4 ≤ Config.hw.imgCap → 0 % 4 = 0 ∧ 0 + 3 < Config.hw.imgCap) :=
  ⟨rfl, Nat.lt_succ_self _, fun h => ⟨rfl, h⟩⟩

theorem witness_UnansweredImageAccesses :
    State.reset.busy = false ∧ Config.hw.imgCap ≤ Config.hw.imgCap ∧ Width.w16 = .w16 ∧
    (Width.w32 = .w32 ∧ 2 % 4 ≠ 0) := ⟨rfl, Nat.le_refl _, rfl, rfl, by decide⟩

/-- A byte of the image and a byte of `LUTG`, with the image and the tables of `s` and with others. -/
theorem witness_BusyReadsRevealNothing : running.busy = true ∧
    (∃ t, step (running.facing (some 0) (.read .image 0 .w8)) = .next t) ∧
    (∃ u, step ({ running with image := [(0, 7#8)], lutG := Vector.replicate 256 9#8, lutC := running.lutC }.facing (some 0)
      (.read .image 0 .w8)) = .next u) :=
  ⟨rfl, ⟨_, rfl⟩, ⟨_, rfl⟩⟩

theorem witness_ResetPinStopsEverything : running.due (some 0) ∧ State.reset.due none := ⟨.inr rfl, .inl rfl⟩

theorem witness_SresetIsAHardwareResetWithDone : (declared 3#16 2#16 1#32).ready := ⟨rfl, rfl⟩

theorem witness_NopCompletes : State.reset.ready := ⟨rfl, rfl⟩

theorem witness_Map332Completes : { State.reset with pixIn := 0xC86432#24 }.ready := ⟨rfl, rfl⟩

theorem witness_MapnnCompletes : ∃ (s : State) (px : Pixel) (q : Byte), s.ready ∧
    px = ⟨s.pixIn.extractLsb' 16 8, s.pixIn.extractLsb' 8 8, s.pixIn.extractLsb' 0 8⟩ ∧
    q = Config.hw.nearestRom (gridIndex px) :=
  ⟨{ State.reset with pixIn := 0xC86432#24 }, _, _, ⟨rfl, rfl⟩, rfl, rfl⟩

theorem witness_BuildLutCompletes : State.reset.ready ∧
    paramCheck State.reset.gamma State.reset.contrast State.reset.lightness = 0#32 ∧
    paramCheck 0x00000001#32 0x43817FFF#32 0x00000000#32 = 0#32 := ⟨⟨rfl, rfl⟩, by decide, by decide⟩

theorem witness_BuildLutRaisesInvalidParameter : State.reset.busy = false ∧
    paramCheck 0x00000000#32 0x00000000#32 0x3F800000#32 ≠ 0#32 ∧
    paramCheck 0x3F800000#32 0x43818000#32 0x3F800000#32 ≠ 0#32 ∧
    paramCheck 0x3F800000#32 0x00000000#32 0x7FC00000#32 ≠ 0#32 := by decide

/-- 1.0, the smallest and the largest normal pattern, and the smallest subnormal. -/
theorem witness_F32ValueFormula :
    (1 ≤ f32Exp 0x3F800000#32 ∧ f32Exp 0x3F800000#32 ≤ 254) ∧
    (1 ≤ f32Exp 0x00800000#32 ∧ f32Exp 0x7F7FFFFF#32 ≤ 254) ∧ f32Exp 0x00000001#32 = 0 := by decide

theorem witness_ApplyLutCompletes (hcap : 3 ≤ Config.hw.imgCap) :
    (declared 1#16 1#16 0#32).ready ∧ (declared 1#16 1#16 0#32).bufv = true ∧ (declared 1#16 1#16 0#32).lutv = true ∧
    (declared 1#16 1#16 0#32).width.toNat * (declared 1#16 1#16 0#32).height.toNat ≠ 0 ∧
    (declared 1#16 1#16 0#32).bufferSize ≤ Config.hw.imgCap := ⟨⟨rfl, rfl⟩, rfl, rfl, by decide, hcap⟩

/-- V-CT7 and V-CT8. -/
theorem witness_ApplyLutRaisesInvalidArgument :
    (State.reset.busy = false ∧ (0x1#32 ||| (if State.reset.lutv then 0#32 else 0x4#32)) ≠ 0#32) ∧
    ((declared 0#16 5#16 0#32).busy = false ∧
      (declared 0#16 5#16 0#32).width.toNat * (declared 0#16 5#16 0#32).height.toNat = 0) := by decide

/-- V-CT10, and any geometry that does not fit. -/
theorem witness_DitherRaisesInvalidArgument :
    (State.reset.busy = false ∧ State.reset.bufv = false) ∧
    ∀ w h : BitVec 16, Config.hw.imgCap < 3 * w.toNat * h.toNat → (declared w h 0#32).busy = false ∧
      Config.hw.imgCap < 3 * (declared w h 0#32).width.toNat * (declared w h 0#32).height.toNat :=
  ⟨⟨rfl, rfl⟩, fun _ _ h => ⟨rfl, h⟩⟩

/-- The image of 0x5 pixels fits in every machine; one pixel, where three bytes are. -/
theorem declared_fits (method : Word) :
    ((declared 0#16 5#16 method).ready ∧ (declared 0#16 5#16 method).tagsNone ∧
      (declared 0#16 5#16 method).bufv = true ∧ (declared 0#16 5#16 method).bufferSize ≤ Config.hw.imgCap) ∧
    (3 ≤ Config.hw.imgCap → (declared 1#16 1#16 method).ready ∧ (declared 1#16 1#16 method).tagsNone ∧
      (declared 1#16 1#16 method).bufv = true ∧ (declared 1#16 1#16 method).bufferSize ≤ Config.hw.imgCap) :=
  ⟨⟨⟨rfl, rfl⟩, fun j => by fin_cases j <;> rfl, rfl, Nat.zero_le _⟩,
    fun h => ⟨⟨rfl, rfl⟩, fun j => by fin_cases j <;> rfl, rfl, h⟩⟩

/-- The method of reset, 4, and the two ends of s32. -/
theorem witness_DitherPassthroughCompletes :
    (declared 0#16 5#16 0xFFFFFFFF#32).ready ∧ (declared 0#16 5#16 0xFFFFFFFF#32).bufv = true ∧
    (declared 0#16 5#16 0xFFFFFFFF#32).bufferSize ≤ Config.hw.imgCap ∧
    ∀ m ∈ [0xFFFFFFFF#32, 0x00000004#32, 0x80000000#32, 0x7FFFFFFF#32], m.toInt ∉ [0, 1, 2, 3] :=
  ⟨(declared_fits _).1.1, rfl, (declared_fits _).1.2.2.2, by simp [BitVec.toInt]⟩

theorem witness_DitherBayerCompletes :
    (declared 0#16 5#16 3#32).ready ∧ (declared 0#16 5#16 3#32).bufv = true ∧
    (declared 0#16 5#16 3#32).bufferSize ≤ Config.hw.imgCap ∧ (declared 0#16 5#16 3#32).method = 3#32 :=
  ⟨(declared_fits _).1.1, rfl, (declared_fits _).1.2.2.2, rfl⟩

theorem witness_DitherErrorDiffusionCompletes (k : Fin 3) :
    (declared 0#16 5#16 (BitVec.ofNat 32 k.val)).ready ∧ (declared 0#16 5#16 (BitVec.ofNat 32 k.val)).tagsNone ∧
    (declared 0#16 5#16 (BitVec.ofNat 32 k.val)).bufv = true ∧
    (declared 0#16 5#16 (BitVec.ofNat 32 k.val)).bufferSize ≤ Config.hw.imgCap ∧
    (declared 0#16 5#16 (BitVec.ofNat 32 k.val)).method = BitVec.ofNat 32 k.val :=
  ⟨(declared_fits _).1.1, (declared_fits _).1.2.1, rfl, (declared_fits _).1.2.2.2, rfl⟩

/-- With one pixel, so that the conclusion speaks of it. -/
theorem witness_DitheredPixelsArePaletteColours (hcap : 3 ≤ Config.hw.imgCap) :
    (declared 1#16 1#16 2#32).ready ∧ (declared 1#16 1#16 2#32).tagsNone ∧ (declared 1#16 1#16 2#32).bufv = true ∧
    (declared 1#16 1#16 2#32).bufferSize ≤ Config.hw.imgCap ∧
    0 < (declared 1#16 1#16 2#32).width.toNat ∧ 0 < (declared 1#16 1#16 2#32).height.toNat :=
  ⟨((declared_fits _).2 hcap).1, ((declared_fits _).2 hcap).2.1, rfl, hcap, by decide, by decide⟩

/-- The property the spec states of `PALETTE_F1`. -/
theorem witness_DecodeStepBounds : ∀ b, trunc332 (paletteF1 b) = b := by
  intro ⟨⟨n, hn⟩⟩
  revert n
  decide +kernel

theorem witness_DiffuseIsTheExactSum : 0 < 1 ∧ 0 < 16 ∧ 0 < 48 := by decide

theorem witness_ForwardRasterInvariant (hcap : 6 ≤ Config.hw.imgCap) : ∃ t,
    secondPixel.Inv ∧ secondPixel.busy = true ∧ secondPixel.diffusing ∧ scanDone secondPixel = false ∧
    coreStep Config.hw secondPixel = .next t ∧ 0 < secondPixel.wNat ∧ 0 < secondPixel.hNat ∧
    (0 = secondPixel.posY.toNat ∧ 0 < secondPixel.posX.toNat) :=
  have ⟨t, ht, _⟩ := Laws.inv_coreStep (secondPixel_inv hcap) rfl
  ⟨t, secondPixel_inv hcap, rfl, ⟨rfl, .inl rfl⟩, by decide, ht, by decide, by decide, by decide⟩

theorem witness_NumProperties : gammaBad 0x3F800000#32 = false ∧ gammaBad 0x00000001#32 = false ∧
    gammaBad 0x7F7FFFFF#32 = false := by decide

theorem witness_IdentityToneCurve : State.reset.ready ∧ State.reset.gamma = 0x3F800000#32 ∧
    State.reset.contrast = 0x00000000#32 ∧ State.reset.lightness = 0x3F800000#32 :=
  ⟨⟨rfl, rfl⟩, rfl, rfl, rfl⟩

/-- The parameters of V-TC12; the other two hypotheses only name a value. -/
theorem witness_NumRealIsTheRealFormula : paramCheck 0x400CCCCD#32 0x42480000#32 0x3F8CCCCD#32 = 0#32 ∧
    ∃ vg factor : ℝ, vg = ((128 : ℝ) / 255) ^ (1 / ((f32Val 0x400CCCCD#32 : ℚ) : ℝ)) ∧
      factor = 259 * (((f32Val 0x42480000#32 : ℚ) : ℝ) + 255) / (255 * (259 - ((f32Val 0x42480000#32 : ℚ) : ℝ))) :=
  ⟨by decide, _, _, rfl, rfl⟩

theorem witness_EveryCommandEnds : (declared 0#16 5#16 3#32).ready := ⟨rfl, rfl⟩

theorem witness_AcceptanceBeforeExecution : (impatient 0#32).busy = false ∧ (impatient 0#32).hostWaits = false := by
  decide

theorem witness_CoreStepThenRest :
    (({ running with host := [⟨some 1, .resetPin⟩] } : State).busy = true ∧
      ({ running with host := [⟨some 1, .resetPin⟩] } : State).host = ⟨some (0 + 1), .resetPin⟩ :: []) ∧
    (running.busy = true ∧ running.hostWaits = true) ∧
    ∃ t, running.Inv ∧ running.busy = true ∧ coreStep Config.hw running = .next t :=
  ⟨⟨rfl, rfl⟩, ⟨rfl, rfl⟩, _, running_inv, rfl, rfl⟩

/-- An idle block whose host acts `k` core steps after the next command's acceptance. -/
def patient (k : Nat) : State := { declared 0#16 5#16 0#32 with host := [⟨some k, .read .window 0x08 .w32⟩] }

theorem witness_StepwiseAgreesWithAtomic :
    (∃ t, (impatient 0#32).busy = false ∧ (impatient 0#32).hostWaits = false ∧
      exec .mapnn (impatient 0#32) = .next t ∧ t.busy = true) ∧
    (∃ t, (patient 2).Inv ∧ (patient 2).busy = false ∧
      (patient 2).host = ⟨some (1 + 1), .read .window 0x08 .w32⟩ :: [] ∧ exec .nop (patient 2) = .next t ∧
      ∀ j < 1, ∃ v, stepsOf j t = .next v ∧ v.busy = true) := by
  refine ⟨⟨_, rfl, rfl, rfl, rfl⟩, _, Laws.inv_host (declared_inv _ _ _) _ _ _, rfl, rfl, rfl, ?_⟩
  intro j hj
  obtain rfl : j = 0 := by omega
  exact ⟨_, rfl, rfl⟩

theorem witness_ErrorsArePrecise : ∃ t, State.reset.busy = false ∧ exec .dither State.reset = .next t ∧ t.err ≠ 0#3 :=
  ⟨_, rfl, rfl, by decide⟩

theorem witness_ErrorKindsOfEachCommand : ∃ t, State.reset.busy = false ∧
    exec .buildLut { State.reset with gamma := 0#32 } = .next t ∧ t.err = 2#3 := ⟨_, rfl, rfl, rfl⟩

/-- `ACK` of an error. -/
theorem witness_StickyErrorBit : ∃ t, ({ State.reset with estk := true } : State).estk = true ∧ t.estk = false ∧
    step ({ State.reset with estk := true }.facing none (.write .window 0x08 .w32 6#32)) = .next t := ⟨_, rfl, rfl, rfl⟩

/-- A good `BUILD_LUT`; `SRESET`. -/
theorem witness_TablesChangeOnlyByBuildAndReset :
    (∃ t, step (State.reset.withFetchWord 32 1) = .next t ∧ t.lutv = true) ∧
    (∃ t, step ((declared 3#16 2#16 0#32).withFetchWord 32 6) = .next t ∧ t.lutv = false) :=
  ⟨⟨_, rfl, rfl⟩, ⟨_, rfl, rfl⟩⟩

/-- Two states that differ in hidden state. -/
theorem witness_HiddenStateDoesNotMatter : ∃ t,
    State.reset.ready ∧ State.reset.tagsNone ∧ { State.reset with wl := 5#16, kIdx := 3 }.tagsNone ∧
    State.reset.visible = { State.reset with wl := 5#16, kIdx := 3 }.visible ∧ exec .nop State.reset = .next t :=
  ⟨_, ⟨rfl, rfl⟩, fun j => by fin_cases j <;> rfl, fun j => by fin_cases j <;> rfl, rfl, rfl⟩

theorem witness_StepKeepsTheInvariant : ∃ t, running.Inv ∧ step running = .next t := ⟨_, running_inv, rfl⟩

theorem witness_NoStepStops : running.Inv ∧ (declared 3#16 2#16 0#32).Inv := ⟨running_inv, declared_inv _ _ _⟩

end Sys2Proof.Tests
end

namespace Sys2Proof.Proofs
open Sys2Proof.Machine Sys2Proof.Laws

/-! ### The invariant, step by step -/

/-- From a state of the invariant the machine goes on, to a state of the invariant. -/
theorem inv_step {s : State} (h : s.Inv) : ∃ t, step s = .next t ∧ t.Inv := by
  have hosted : ∀ host, ({ s with host := host } : State).Inv := fun host => inv_host h host s.reads s.draws
  rcases step_cases s with ⟨-, -, e⟩ | ⟨q, rest, -, -, e⟩ | ⟨act, rest, -, -, e⟩ | ⟨k, act, rest, hb, -, e⟩ |
    ⟨hb, -, e⟩
  · exact ⟨s, e, h⟩
  · rw [e]
    exact inv_hostAct (hosted rest) q.act
  · rw [e]
    exact inv_hostAct (hosted rest) act
  · rw [e]
    exact inv_coreStep (hosted (⟨some k, act⟩ :: rest)) hb
  · rw [e]
    exact runToEnd_next State.Inv (fun _ hu hub => inv_coreStep hu hub) (coreBound s) h

/-- Settles O59: what every step goes to meets the invariant. -/
theorem stepKeepsTheInvariant : Obligations.StepKeepsTheInvariant := by
  intro s t h ht
  obtain ⟨u, hu, hI⟩ := inv_step h
  cases hu.symm.trans ht
  exact hI

/-- Settles O60: the invariant rules out every stop of the model. -/
theorem noStepStops : Obligations.NoStepStops := by
  intro s h
  obtain ⟨t, ht, -⟩ := inv_step h
  exact ⟨t, ht⟩

/-- Settles O58, from the invariant of a hardware reset; `State.reset` differs from it in the count of resets alone. -/
theorem resetMeetsTheInvariant : Obligations.ResetMeetsTheInvariant := by
  have h := (inv_reset State.reset).1
  exact inv_idle rfl h.errCode h.errDetail h.pixOutTop h.idxOutGaps h.imageWf h.imageCap (h.idle rfl).1 rfl

/-! ### The tone tables and the sticky error bit, step by step (R23, R39, R126) -/

/-- The tables of `t` are those of `s`, and an `ESTK` of `s` is still set. -/
structure Kept (s t : State) : Prop where
  lutG : t.lutG = s.lutG
  lutC : t.lutC = s.lutC
  lutv : t.lutv = s.lutv
  estk : s.estk = true → t.estk = true

/-- `t` has the tables that `BUILD_LUT` builds from the parameters of `s` (R120, R126). -/
structure Built (s t : State) : Prop where
  lutG : t.lutG = tableOf (Config.hw.gammaEntry s.gamma)
  lutC : t.lutC = tableOf (Config.hw.cbEntry s.gamma s.contrast s.lightness)
  lutv : t.lutv = true
  bufv : t.bufv = s.bufv
  image : t.image = s.image
  estk : t.estk = s.estk

/-- `t` is `s` after a reset (R48; log 6). -/
structure Cleared (s t : State) : Prop where
  lutv : t.lutv = false
  bufv : t.bufv = false
  image : t.image = []
  epoch : t.epoch = s.epoch + 1

theorem Kept.refl (s : State) : Kept s s := ⟨rfl, rfl, rfl, id⟩

/-- Nothing that moves while a command other than `BUILD_LUT` and `SRESET` runs is a table or `ESTK`. -/
theorem Kept.of_runFrame {s t : State} (h : runFrame s t) : Kept s t := by
  unfold runFrame at h
  rw [h]
  exact ⟨rfl, rfl, rfl, id⟩

/-- Nor does acceptance touch them (R215). -/
theorem Kept.of_accepted {s t : State} {i : Instr} (h : runFrame (acceptedBy i s) t) : Kept s t := by
  obtain ⟨hG, hC, hv, he⟩ := Kept.of_runFrame h
  rw [acceptedBy_eq] at hG hC hv he
  exact ⟨hG, hC, hv, he⟩

/-- The rest of a running command is the run of the command that `OP` holds. -/
theorem restOfCommand_cases {p : Params} {s t : State} (hb : s.busy = true) (h : restOfCommand p s = .next t) :
    ∃ i, s.op = encode i ∧ runToEnd (commandStep p i) (coreBound s) s = .next t := by
  cases hd : decode s.op with
  | ok i =>
    have ho := encode_of_decode hd
    exact ⟨i, ho, by rw [← runToEnd_coreStep _ ho]; exact h⟩
  | error e =>
    exfalso
    simp [restOfCommand, coreBound, runToEnd, hb, coreStep, hd] at h

/-- What core steps of the command `i` do to the tables and to `ESTK`. -/
def CoreLeaves (i : Instr) (s t : State) : Prop :=
  Kept s t ∨ (i = .buildLut ∧ Built s t) ∨ (i = .sreset ∧ Cleared s t)

/-- The frames of `runFrame_commandStep` and `runFrame_runToEnd`, in terms of tables and `ESTK`. -/
theorem coreLeaves_of_frame {s t : State} {i : Instr}
    (h : runFrame s t ∨ (i = .buildLut ∧ t = ({ s with
        lutG := tableOf (Config.hw.gammaEntry s.gamma)
        lutC := tableOf (Config.hw.cbEntry s.gamma s.contrast s.lightness)
        iIdx := 255#8
        lutv := true } : State).finish) ∨ (i = .sreset ∧ t = s.hardReset.finish)) : CoreLeaves i s t := by
  rcases h with hF | ⟨hi, rfl⟩ | ⟨hi, rfl⟩
  · exact .inl (Kept.of_runFrame hF)
  · exact .inr (.inl ⟨hi, rfl, rfl, rfl, rfl, rfl, rfl⟩)
  · exact .inr (.inr ⟨hi, rfl, rfl, rfl, rfl⟩)

/-- A `BUILD_LUT` that ends with built tables has passed its entry check (R121). -/
theorem paramCheck_of_exec {s t : State} (hb : s.busy = false) (h : exec .buildLut s = .next t) (he : t.err = 0#3) :
    paramCheck s.gamma s.contrast s.lightness = 0#32 := by
  by_contra hc
  rw [exec_failed (i := .buildLut) hb hc] at h
  cases h
  exact absurd he (by decide : (2#3 : BitVec 3) ≠ 0#3)

/-- What the issue of a command at an idle block does to the tables and to `ESTK`. -/
theorem exec_tables {s t : State} {i : Instr} (hb : s.busy = false) (h : exec i s = .next t) :
    Kept s t ∨ (i = .buildLut ∧ paramCheck s.gamma s.contrast s.lightness = 0#32 ∧ Built s t) ∨
      (i = .sreset ∧ Cleared s t) := by
  rcases exec_frame h with rfl | ⟨u, hF, rfl | ⟨kind, info, rfl⟩⟩ | ⟨rfl, ht⟩ | ⟨hi, rfl⟩
  · exact .inl (Kept.refl t)
  · exact .inl (Kept.of_accepted hF)
  · obtain ⟨hG, hC, hv, -⟩ := Kept.of_accepted hF
    exact .inl ⟨hG, hC, hv, fun _ => rfl⟩
  · rw [acceptedBy_eq] at ht
    refine .inr (.inl ⟨rfl, paramCheck_of_exec hb h (by rw [ht]; rfl), ?_⟩)
    rw [ht]
    exact ⟨rfl, rfl, rfl, rfl, rfl, rfl⟩
  · exact .inr (.inr ⟨hi, rfl, rfl, rfl, rfl⟩)

/-- What an act of the host does to the tables and to `ESTK`. -/
inductive ActLeaves (s t : State) : HostAct → Prop
  | kept {act} : Kept s t → ActLeaves s t act
  | status {v} : s.busy = false → t = writeStatus v s → ActLeaves s t (.write .window 0x08 .w32 v)
  | build : s.busy = false → paramCheck s.gamma s.contrast s.lightness = 0#32 → Built s t →
      ActLeaves s t (.write .window 0x04 .w32 (encode .buildLut))
  | sreset : s.busy = false → Cleared s t → ActLeaves s t (.write .window 0x04 .w32 (encode .sreset))
  | pin : Cleared s t → ActLeaves s t .resetPin

/-- `ActLeaves` says all an act of the host can do to the tables and to `ESTK`. -/
theorem hostAct_tables {s t : State} {act : HostAct} (h : hostAct Config.hw exec act s = .next t) :
    ActLeaves s t act := by
  cases act with
  | resetPin =>
    cases h
    exact .pin ⟨rfl, rfl, rfl, rfl⟩
  | read space offset width =>
    rcases hostRead_cases Config.hw space offset width s with ⟨u, hu, e⟩ | ⟨hf, -⟩
    · cases hu.symm.trans h
      rw [e]
      exact .kept ⟨rfl, rfl, rfl, id⟩
    · cases hf.symm.trans h
  | write space offset width v =>
    rcases hostWrite_cases h with rfl | ⟨-, e, -⟩ | ⟨hb, rfl, rfl, rfl, i, rfl, hx⟩ | ⟨-, -, rfl⟩ |
      ⟨hb, rfl, rfl, rfl, e⟩ | ⟨-, e, -⟩
    · exact .kept (Kept.refl t)
    · rw [e]
      exact .kept ⟨rfl, rfl, rfl, id⟩
    · rcases exec_tables hb hx with hK | ⟨rfl, hp, hB⟩ | ⟨rfl, hC⟩
      · exact .kept hK
      · exact .build hb hp hB
      · exact .sreset hb hC
    · exact .kept ⟨rfl, rfl, rfl, fun _ => rfl⟩
    · exact .status hb e
    · rw [e]
      exact .kept ⟨rfl, rfl, rfl, id⟩

/-- What a step does to the tables and to `ESTK`: nothing, a due act of the host, or core steps of the latched
command. The pending acts it takes off are no part of that. -/
theorem step_tables {s t : State} (h : step s = .next t) :
    t = s ∨ (∃ a act rest, s.host = ⟨a, act⟩ :: rest ∧ s.due a ∧ ActLeaves { s with host := rest } t act) ∨
      ∃ i host, s.busy = true ∧ s.op = encode i ∧ CoreLeaves i { s with host := host } t := by
  rcases step_cases s with ⟨-, -, e⟩ | ⟨q, rest, hb, hq, e⟩ | ⟨act, rest, hb, hq, e⟩ | ⟨k, act, rest, hb, -, e⟩ |
    ⟨hb, -, e⟩ <;> rw [e] at h
  · cases h
    exact .inl rfl
  · exact .inr (.inl ⟨q.after, q.act, rest, hq, .inl hb, hostAct_tables h⟩)
  · exact .inr (.inl ⟨some 0, act, rest, hq, .inr rfl, hostAct_tables h⟩)
  · obtain ⟨i, ho, hs⟩ := coreStep_cases h
    exact .inr (.inr ⟨i, _, hb, ho, coreLeaves_of_frame (runFrame_commandStep hs)⟩)
  · obtain ⟨i, ho, hr⟩ := restOfCommand_cases hb h
    exact .inr (.inr ⟨i, s.host, hb, ho, coreLeaves_of_frame (runFrame_runToEnd hb hr)⟩)

/-- Settles O55: of all a step can do, only the write to `STATUS`, `SRESET` and the reset pin clear `ESTK`. -/
theorem stickyErrorBit : Obligations.StickyErrorBit := by
  intro s t h hs ht
  rcases step_tables h with rfl | ⟨a, act, rest, hq, -, hL⟩ | ⟨i, host, hb, ho, hK | ⟨-, hB⟩ | ⟨rfl, -⟩⟩
  · exact absurd hs (by simp [ht])
  · cases hL with
    | kept hK => exact absurd (hK.estk hs) (by simp [ht])
    | @status v hb e =>
      refine .inl ⟨a, v, rest, hb, hq, ?_⟩
      subst e
      simpa [writeStatus, hs] using ht
    | build _ _ hB => exact absurd (hB.estk.trans hs) (by simp [ht])
    | sreset hb _ => exact .inr (.inr (.inl ⟨a, rest, hb, hq⟩))
    | pin _ => exact .inr (.inl ⟨a, rest, hq⟩)
  · exact absurd (hK.estk hs) (by simp [ht])
  · exact absurd (hB.estk.trans hs) (by simp [ht])
  · exact .inr (.inr (.inr ⟨hb, ho⟩))

/-- Settles O56: of all a step can do, only a good `BUILD_LUT` and the resets touch the tables. -/
theorem tablesChangeOnlyByBuildAndReset : Obligations.TablesChangeOnlyByBuildAndReset := by
  intro s t h
  rcases step_tables h with rfl | ⟨a, act, rest, hq, hdue, hL⟩ | ⟨i, host, hb, ho, hK | ⟨rfl, hB⟩ | ⟨rfl, hC⟩⟩
  · exact .inl ⟨rfl, rfl, rfl⟩
  · cases hL with
    | kept hK => exact .inl ⟨hK.lutG, hK.lutC, hK.lutv⟩
    | status _ e =>
      subst e
      exact .inl ⟨rfl, rfl, rfl⟩
    | build hb hp hB =>
      exact .inr (.inl ⟨.inl ⟨a, rest, hb, hq, hp⟩, hB.lutv, hB.lutG, hB.lutC, hB.bufv, hB.image⟩)
    | sreset hb hC =>
      exact .inr (.inr ⟨.inr (.inl ⟨a, rest, hb, hq⟩), hC.lutv, hC.bufv, hC.image, hC.epoch⟩)
    | pin hC => exact .inr (.inr ⟨.inl ⟨a, rest, hq, hdue⟩, hC.lutv, hC.bufv, hC.image, hC.epoch⟩)
  · exact .inl ⟨hK.lutG, hK.lutC, hK.lutv⟩
  · exact .inr (.inl ⟨.inr ⟨hb, ho, fun hI => hI.params hb ho⟩, hB.lutv, hB.lutG, hB.lutC, hB.bufv, hB.image⟩)
  · exact .inr (.inr ⟨.inr (.inr ⟨hb, ho⟩), hC.lutv, hC.bufv, hC.image, hC.epoch⟩)

/-! ### Hidden state (R45, R46) -/

/-- The entry check of `APPLY_LUT` passes only with built tables (R128). -/
theorem lutv_of_applyCheck {p : Params} {s : State} (h : applyCheck p s = 0#32) : s.lutv = true := by
  by_contra hl
  have hbit : (applyCheck p s).getLsbD 2 = true := by
    simp [applyCheck, cause, Bool.eq_false_iff.mpr hl]
  rw [h] at hbit
  cases hbit

/-- Two states in the middle of the command `i` that differ in hidden state which its core steps do not read. -/
structure InStep (i : Instr) (s s' : State) : Prop where
  alike : Alike s s'
  /-- `M`, and `S` where the method diffuses errors, are sampled at acceptance (R46). -/
  method : i = .dither → s'.m = s.m ∧
    (methodOf s.m = 0 ∨ methodOf s.m = 1 ∨ methodOf s.m = 2 → s'.sSel = s.sSel)
  /-- `APPLY_LUT` has passed its entry check (R128). -/
  tables : i = .applyLut → s.lutv = true

/-- A core step of a command from states in step. -/
theorem InStep.commandStep_alike {p : Params} {i : Instr} {s s' : State} (h : InStep i s s') :
    ∃ t t', commandStep p i s = .next t ∧ commandStep p i s' = .next t' ∧ Alike t t' := by
  obtain ⟨hA, hM, hT⟩ := h
  cases i with
  | nop => exact ⟨_, _, rfl, rfl, hA.finish⟩
  | sreset =>
    refine ⟨_, _, rfl, rfl, ?_⟩
    rw [show s'.hardReset = s.hardReset by rw [hA.seen]; rfl]
    exact ⟨rfl, fun _ => rfl, fun _ _ => rfl⟩
  | buildLut | map332 | mapnn => exact ⟨_, _, rfl, rfl, Alike.finish ⟨by rw [hA.seen], hA.tags, hA.rows⟩⟩
  | applyLut =>
    have hl : s.lutv = true := hT rfl
    have hl' : s'.lutv = true := by rw [hA.seen]; exact hl
    have htone : tonePixel s' = tonePixel s := by rw [hA.seen]; rfl
    simp only [commandStep, applyLutStep_eq hl, applyLutStep_eq hl', htone]
    exact hA.pointwiseStep _
  | dither =>
    obtain ⟨hm, hs⟩ := hM rfl
    simp only [commandStep, ditherStep, hm]
    split
    · exact hA.diffusionStep (hs ‹_›)
    · split <;> exact hA.pointwiseStep _

/-- Core steps of commands other than `BUILD_LUT` and `SRESET` keep what `InStep` says beside `Alike`. -/
theorem commandStep_sampled {p : Params} {i : Instr} {s t : State} (h : commandStep p i s = .next t)
    (hi : i = .dither ∨ i = .applyLut) : t.m = s.m ∧ t.sSel = s.sSel ∧ t.lutv = s.lutv := by
  rcases runFrame_commandStep h with hF | ⟨rfl, -⟩ | ⟨rfl, -⟩
  · unfold runFrame at hF
    rw [hF]
    exact ⟨rfl, rfl, rfl⟩
  · simp at hi
  · simp at hi

/-- States in step stay in step. -/
theorem InStep.next {p : Params} {i : Instr} {s s' : State} (h : InStep i s s') :
    ∃ t t', commandStep p i s = .next t ∧ commandStep p i s' = .next t' ∧ InStep i t t' := by
  obtain ⟨t, t', e, e', hA⟩ := h.commandStep_alike (p := p)
  refine ⟨t, t', e, e', hA, fun hi => ?_, fun hi => ?_⟩
  · obtain ⟨hm, hs, -⟩ := commandStep_sampled e (.inl hi)
    obtain ⟨hm', hs', -⟩ := commandStep_sampled e' (.inl hi)
    rw [hm, hm', hs, hs']
    exact h.method hi
  · exact (commandStep_sampled e (.inr hi)).2.2.trans (h.tables hi)

/-- States that look the same differ in hidden state alone (R45, R46). -/
theorem eq_of_visible {s s' : State} (h : s.visible = s'.visible) : s' = { s with
    rowbuf := s'.rowbuf, op := s'.op, m := s'.m, sSel := s'.sSel, kIdx := s'.kIdx, errE := s'.errE, old := s'.old
    new := s'.new, iIdx := s'.iIdx, wl := s'.wl, hl := s'.hl } :=
  congrArg (fun u : State => { u with
    rowbuf := s'.rowbuf, op := s'.op, m := s'.m, sSel := s'.sSel, kIdx := s'.kIdx, errE := s'.errE, old := s'.old
    new := s'.new, iIdx := s'.iIdx, wl := s'.wl, hl := s'.hl }) h.symm

/-- States that look the same and hold no row accept a command in states alike (R215, R46). -/
theorem alike_acceptedBy {s s' : State} (i : Instr) (hs : s.tagsNone) (hs' : s'.tagsNone)
    (hv : s.visible = s'.visible) : Alike (acceptedBy i s) (acceptedBy i s') := by
  refine ⟨?_, fun j => ?_, fun j hj => ?_⟩
  · rw [acceptedBy_eq i s', acceptedBy_eq i s, eq_of_visible hv]
  · rw [slot_congr acceptedBy_rowbuf, slot_congr acceptedBy_rowbuf, hs, hs']
  · rw [slot_congr acceptedBy_rowbuf, hs] at hj
    exact absurd rfl hj

theorem busy_alike {s s' : State} (h : Alike s s') : s'.busy = s.busy := by rw [h.seen]

/-- An entry check does not read hidden state (R121, R128, R171). -/
theorem checkOf_alike {p : Params} {s s' : State} (i : Instr) (h : Alike s s') : checkOf p i s' = checkOf p i s := by
  rw [h.seen]
  cases i <;> rfl

/-- The stencil of a method that diffuses errors (R46, R179 to R181). -/
theorem sSel_latchMethod {s : State} {k : Fin 3} (h : methodOf s.method = k.val) : (latchMethod s).sSel = k := by
  simp only [latchMethod, h]
  fin_cases k <;> rfl

/-- What `DITHER` samples of the method at acceptance is the same in states that look the same (R46, R220). -/
theorem latch_of_visible {s s' : State} (hv : s.visible = s'.visible) :
    (acceptedBy .dither s').m = (acceptedBy .dither s).m ∧
    (methodOf (acceptedBy .dither s).m = 0 ∨ methodOf (acceptedBy .dither s).m = 1 ∨
        methodOf (acceptedBy .dither s).m = 2 →
      (acceptedBy .dither s').sSel = (acceptedBy .dither s).sSel) := by
  have hm : s'.method = s.method := (congrArg State.method hv).symm
  refine ⟨hm, fun h => ?_⟩
  obtain ⟨k, hk⟩ : ∃ k : Fin 3, methodOf s.method = k.val := by
    rcases h with e | e | e
    · exact ⟨0, e⟩
    · exact ⟨1, e⟩
    · exact ⟨2, e⟩
  have hk' : methodOf s'.method = k.val := by rw [hm, hk]
  exact (sSel_latchMethod (s := (s'.issue).accept _) hk').trans
    (sSel_latchMethod (s := (s.issue).accept _) hk).symm

/-- Settles O57: a command runs in step from the two states its acceptance makes alike. -/
theorem hiddenStateDoesNotMatter : Obligations.HiddenStateDoesNotMatter := by
  intro i s s' t hr hs hs' hv ht
  have hr' : s'.ready := by
    rw [eq_of_visible hv]
    exact hr
  have hA := alike_acceptedBy i hs hs' hv
  have hchk := checkOf_alike (p := Config.hw) i hA
  by_cases hc : checkOf Config.hw i (acceptedBy i s) = 0#32
  · have hc' := hchk.trans hc
    have hI : InStep i (acceptedBy i s) (acceptedBy i s') :=
      ⟨hA, by rintro rfl; exact latch_of_visible hv, by rintro rfl; exact lutv_of_applyCheck hc⟩
    obtain ⟨u, u', e, e', hu⟩ := runToEnd_alike (InStep i) (fun _ _ h _ => h.next) (fun _ _ h => busy_alike h.alike)
      (coreBound (acceptedBy i s)) hI
    rw [exec_whole hr hc, e] at ht
    cases ht
    have hbound : coreBound (acceptedBy i s') = coreBound (acceptedBy i s) := by
      rw [hA.seen]; rfl
    exact ⟨u', by rw [exec_whole hr' hc', hbound, e'], hu.alike.visible.symm⟩
  · rw [exec_failed hr.1 hc] at ht
    cases ht
    refine ⟨_, exec_failed hr'.1 (by rwa [hchk]), ?_⟩
    rw [hchk]
    exact congrArg (fun u : State => u.raise (kindOf i) (checkOf Config.hw i (acceptedBy i s))) hA.visible.symm
    

/-! ### Accesses to the register space (R20 to R37) -/

/-- A due read of a register (R20, R36). -/
theorem step_read {s : State} {after : Option Nat} (h : s.due after) {offset : Nat}
    (ho : registerAccess offset .w32 = true) :
    step (s.facing after (.read .window offset .w32)) = readRegister Config.hw offset s := by
  rw [step_facing h, hostAct, hostRead, if_pos ho]

/-- A write to a register of an idle block (R20, R36). -/
theorem step_write {s : State} (h : s.busy = false) (after : Option Nat) (v : Word) {offset : Nat}
    (ho : registerAccess offset .w32 = true) :
    step (s.facing after (.write .window offset .w32 v)) = writeRegister exec offset v s := by
  rw [step_facing (.inl h), hostAct, hostWrite, if_neg (by simp [h])]
  exact if_pos ho

/-- A busy block ignores every write that is due (R37, R219). -/
theorem step_write_busy {s : State} {after : Option Nat} (hd : s.due after) (h : s.busy = true) (space : Space)
    (offset : Nat) (width : Width) (v : Word) : step (s.facing after (.write space offset width v)) = .next s := by
  rw [step_facing hd]
  exact if_pos h

/-- The registers a host reads at any time, with the values they read (R21 to R31, R37). -/
def plainRegisters (s : State) : List (Nat × Word) :=
  [(0x00, 0x00000332#32), (0x04, 0#32), (0x0C, ctrlWord s), (0x10, s.gamma), (0x14, s.contrast),
    (0x18, s.lightness), (0x1C, s.method), (0x20, s.width.setWidth 32), (0x24, s.height.setWidth 32),
    (0x28, s.pixIn.setWidth 32)]

/-- `PIX_OUT`, `IDX_OUT`, `ERRINFO` and `POS`, with the values they read while the block is idle (R32 to R37). -/
def volatileRegisters (s : State) : List (Nat × Word) :=
  [(0x2C, s.pixOut), (0x30, s.idxOut), (0x34, s.errInfo), (0x38, posWord s)]

theorem step_read_plain {s : State} {after : Option Nat} (h : s.due after) {q : Nat × Word}
    (hq : q ∈ plainRegisters s) :
    step (s.facing after (.read .window q.1 .w32)) = .next { s with reads := q.2 :: s.reads } := by
  have hw : s.width.setWidth 32 = 0#16 ++ s.width := (zero_append s.width).symm
  have hh : s.height.setWidth 32 = 0#16 ++ s.height := (zero_append s.height).symm
  have hp : s.pixIn.setWidth 32 = 0#8 ++ s.pixIn := (zero_append s.pixIn).symm
  rw [plainRegisters, hw, hh, hp] at hq
  simp only [List.mem_cons, List.not_mem_nil, or_false] at hq
  rcases hq with rfl | rfl | rfl | rfl | rfl | rfl | rfl | rfl | rfl | rfl <;>
    exact step_read h (by simp [registerAccess])

theorem step_read_volatile {s : State} {after : Option Nat} (h : s.due after) {q : Nat × Word}
    (hq : q ∈ volatileRegisters s) :
    step (s.facing after (.read .window q.1 .w32)) = .next (readVolatile Config.hw q.2 s) := by
  simp only [volatileRegisters, List.mem_cons, List.not_mem_nil, or_false] at hq
  rcases hq with rfl | rfl | rfl | rfl <;> exact step_read h (by simp [registerAccess])

theorem step_read_status {s : State} {after : Option Nat} (h : s.due after) (he : errReserved s = false) :
    step (s.facing after (.read .window 0x08 .w32)) = .next { s with reads := statusWord s :: s.reads } := by
  rw [step_read h rfl]
  exact if_neg (by simp [he])

/-- Settles O8, from the reads that do not depend on `BUSY` and those that do. -/
theorem busyRegisterSpace : Obligations.BusyRegisterSpace := by
  intro s hb
  have hd : s.due (some 0) := .inr rfl
  refine ⟨step_write_busy hd hb, step_read_status hd, fun q hq => step_read_plain hd hq, fun offset ho => ?_⟩
  obtain ⟨v, hv⟩ : ∃ v, (offset, v) ∈ volatileRegisters s := by
    simp only [List.mem_cons, List.not_mem_nil, or_false] at ho
    rcases ho with rfl | rfl | rfl | rfl <;> simp [volatileRegisters]
  rw [step_read_volatile hd hv, readVolatile, if_pos hb]
  rfl

/-- Settles O9: of an idle block the fifteen registers are plain, or `STATUS`, or volatile ones with their values. -/
theorem registersReadTheirFields : Obligations.RegistersReadTheirFields := by
  intro s after hb he q hq
  have hd : s.due after := .inl hb
  have hcase : q = (0x08, statusWord s) ∨ q ∈ plainRegisters s ∨ q ∈ volatileRegisters s := by
    simp only [plainRegisters, volatileRegisters, List.mem_cons, List.not_mem_nil, or_false] at hq ⊢
    tauto
  rcases hcase with rfl | hp | hv
  · exact step_read_status hd he
  · exact step_read_plain hd hp
  · rw [step_read_volatile hd hv, readVolatile, if_neg (by simp [hb])]
    rfl

theorem registerAccess_iff (offset : Nat) (width : Width) :
    registerAccess offset width = true ↔ offset < 0x100 ∧ width = .w32 ∧ offset % 4 = 0 := by
  simp [registerAccess, and_assoc]

/-- No register has an offset of 0x3C or above (R20, R36). -/
theorem readRegister_unmapped (p : Params) (s : State) {offset : Nat} (h : 0x3C ≤ offset) :
    readRegister p offset s = .next (reply 0#32 s) := by
  unfold readRegister
  split
  case h_16 => rfl
  all_goals omega

theorem writeRegister_unmapped (run : Instr → State → Result) (v : Word) (s : State) {offset : Nat}
    (h : 0x3C ≤ offset) : writeRegister run offset v s = .next s := by
  unfold writeRegister
  split
  case h_11 => rfl
  all_goals omega

/-- Settles O12: such an access misses the register space, or hits no register of it. -/
theorem unansweredRegisterAccesses : Obligations.UnansweredRegisterAccesses := by
  intro s after offset width v hd hlt hun
  by_cases hr : registerAccess offset width = true
  · obtain ⟨-, rfl, hal⟩ := (registerAccess_iff offset width).mp hr
    have h3C : 0x3C ≤ offset := by simpa [hal] using hun
    refine ⟨by rw [step_read hd hr, readRegister_unmapped _ _ h3C]; rfl, ?_⟩
    cases hb : s.busy with
    | true => exact step_write_busy hd hb ..
    | false => rw [step_write hb after v hr, writeRegister_unmapped _ _ _ h3C]
  · constructor
    · rw [step_facing hd, hostAct, hostRead, if_neg hr, if_pos hlt]
      rfl
    · cases hb : s.busy with
      | true => exact step_write_busy hd hb ..
      | false =>
        rw [step_facing hd, hostAct, hostWrite, if_neg (by simp [hb])]
        exact if_neg hr

/-- Settles O11, register by register; `WIDTH`, `HEIGHT` and `PIX_IN` keep the low bits of the word. -/
theorem registerWritesOfAnIdleBlock : Obligations.RegisterWritesOfAnIdleBlock := by
  intro s after v hb
  have hw : ∀ {offset}, registerAccess offset .w32 = true →
      step (s.facing after (.write .window offset .w32 v)) = writeRegister exec offset v s := step_write hb after v
  have h16 : v.setWidth 16 = v.extractLsb' 0 16 := BitVec.setWidth_eq_extractLsb' (by decide)
  have h24 : v.setWidth 24 = v.extractLsb' 0 24 := BitVec.setWidth_eq_extractLsb' (by decide)
  rw [h16, h24]
  refine ⟨hw rfl, hw rfl, hw rfl, hw rfl, hw rfl, hw rfl, hw rfl, hw rfl, hw rfl, fun offset ho => ?_⟩
  simp only [List.mem_cons, List.not_mem_nil, or_false] at ho
  rcases ho with rfl | rfl | rfl | rfl | rfl <;> exact hw rfl

/-- Settles O4: the write to `CMD` decodes the word. -/
theorem stepRunsTheDecodedCommand : Obligations.StepRunsTheDecodedCommand := by
  intro s after rest w i hb hw
  refine (step_write (s := { s with host := rest }) (offset := 0x04) hb after w rfl).trans ?_
  simp only [writeRegister, writeCmd, hw]

/-- A table word that decodes fits in its bits, and is read as the command word it is (R91; log 16). -/
theorem decode_of_decodeTableWord {nbits w : Nat} {i : Instr} (h : decodeTableWord nbits w = some i) :
    w < 2 ^ nbits ∧ decode (BitVec.ofNat 32 w) = .ok i := by
  unfold decodeTableWord at h
  split at h
  · rename_i hw
    refine ⟨hw.2, ?_⟩
    set b := byteOfWord (BitVec.ofNat 32 w) with hb
    rw [show (List.range 4).map b = [b 0, b 1, b 2, b 3] from rfl, decodeBytes, hb, wordOfBytes_byteOfWord] at h
    cases hd : decode (BitVec.ofNat 32 w) with
    | ok j =>
      rw [hd] at h
      cases h
      rfl
    | error e =>
      rw [hd] at h
      cases h
  · cases h

/-- Settles O5: placing a word is a write of it to `CMD` of an idle block. -/
theorem placedWordRuns : Obligations.PlacedWordRuns := by
  intro s nbits w i h
  obtain ⟨hlt, hd⟩ := decode_of_decodeTableWord h
  rw [State.withFetchWord, Nat.mod_eq_of_lt hlt]
  exact stepRunsTheDecodedCommand { s with busy := false } none s.host _ i rfl hd

/-- Settles O21: the fields by evaluation, the two reads as those of any idle block. -/
theorem resetStateOfTheSpec : Obligations.ResetStateOfTheSpec := by
  refine ⟨by decide, by decide, rfl, rfl, rfl, rfl, rfl, rfl, rfl, rfl, rfl, rfl, by decide, ?_, rfl, fun after => ?_⟩
  · exact ((inv_reset State.reset).1.idle rfl).1
  · have hd : State.reset.due after := .inl rfl
    exact ⟨step_read_plain hd (q := (0x00, _)) (by simp [plainRegisters]),
      step_read_plain hd (q := (0x04, _)) (by simp [plainRegisters])⟩

/-! ### The fields of the control words, and the interrupt line (R23, R24, R35, R236) -/

/-- The flags of `STATUS`, one bit each (R23). -/
theorem statusWord_flags (s : State) :
    (statusWord s).getLsbD 0 = s.busy ∧ (statusWord s).getLsbD 1 = s.done ∧
    (statusWord s).getLsbD 2 = s.estk ∧ (statusWord s).getLsbD 3 = s.lutv := by
  simp only [statusWord, bit, BitVec.getLsbD_append, BitVec.getLsbD_ofBool]
  simp

/-- `ERR` and the reserved bits of `STATUS` (R23). -/
theorem statusWord_fields (s : State) :
    (statusWord s).extractLsb' 4 4 = 0#4 ∧ (statusWord s).extractLsb' 8 3 = s.err ∧
    (statusWord s).extractLsb' 11 21 = 0#21 := by
  unfold statusWord
  refine ⟨?_, ?_, ?_⟩
  · simp (disch := decide) only [BitVec.extractLsb'_append_eq_of_le]
    exact BitVec.extractLsb'_append_eq_right
  · simp (disch := decide) only [BitVec.extractLsb'_append_eq_of_le]
    exact BitVec.extractLsb'_append_eq_right
  · simp (disch := decide) only [BitVec.extractLsb'_append_eq_of_le]
    rfl

theorem ctrlWord_fields (s : State) :
    (ctrlWord s).getLsbD 0 = s.ie ∧ (ctrlWord s).getLsbD 1 = s.bufv ∧ (ctrlWord s).extractLsb' 2 30 = 0#30 := by
  simp only [ctrlWord, bit, BitVec.getLsbD_append, BitVec.getLsbD_ofBool]
  refine ⟨by simp, by simp, ?_⟩
  simp (disch := decide) only [BitVec.extractLsb'_append_eq_of_le]
  rfl

theorem posWord_fields (s : State) :
    (posWord s).extractLsb' 16 16 = s.posY ∧ (posWord s).extractLsb' 0 16 = s.posX :=
  ⟨BitVec.extractLsb'_append_eq_left, BitVec.extractLsb'_append_eq_right⟩

/-- While a command is not over, `DONE` is 0 (R215). -/
theorem done_of_exec_busy {i : Instr} {s t : State} (hb : s.busy = false) (h : exec i s = .next t)
    (ht : t.busy = true) : t.done = false := by
  have hacc : (acceptedBy i s).done = false := by rw [acceptedBy_eq]
  rcases exec_cases i s with ⟨hb', -⟩ | ⟨-, -, e⟩ | ⟨-, -, -, e⟩ | ⟨-, -, -, e⟩
  · simp [hb] at hb'
  · cases e.symm.trans h
    simp at ht
  · refine runToEnd_induct (fun u => u.busy = true → u.done = false) ?_ _ (fun _ => hacc) (e.symm.trans h) ht
    intro u v hu hub hv hvb
    rcases commandStep_cases hv with ⟨-, -, hO, -⟩ | ⟨-, -, u', rfl, -⟩ | ⟨-, rfl⟩ | ⟨-, rfl⟩ | ⟨-, a, b, rfl⟩ |
      ⟨-, rfl⟩
    · unfold onlyScan at hO
      rw [hO]
      exact hu hub
    all_goals exact absurd hvb (by simp)
  · cases e.symm.trans h
    exact hacc

/-- Settles O10, from the fields of the three words and what lowers `DONE` or `IE`. -/
theorem statusFieldPlaces : Obligations.StatusFieldPlaces := by
  intro s
  obtain ⟨f0, f1, f2, f3⟩ := statusWord_flags s
  obtain ⟨g4, g8, g11⟩ := statusWord_fields s
  obtain ⟨c0, c1, c2⟩ := ctrlWord_fields s
  obtain ⟨py, px⟩ := posWord_fields s
  refine ⟨f0, f1, f2, f3, g4, g8, g11, c0, c1, c2, py, px, by simp [irq], ?_, ?_, ?_⟩
  · intro after v hb hv
    exact ⟨writeStatus v s, step_write hb after v rfl, by simp [irq, writeStatus, hv]⟩
  · intro after v hb hv
    exact ⟨writeCtrl v s, step_write hb after v rfl, by simp only [irq, writeCtrl, hv, Bool.false_and]⟩
  · intro i t hb h ht
    simp [irq, done_of_exec_busy hb h ht]

end Sys2Proof.Proofs

namespace Sys2Proof.Proofs
open Sys2Proof.Machine Sys2Proof.Laws

/-! ### What a host read moves (R67) -/

theorem readVolatile_reads (p : Params) (v : Word) (s : State) :
    ∃ v', (readVolatile p v s).reads = v' :: s.reads := by
  unfold readVolatile
  split <;> exact ⟨_, rfl⟩

theorem readRegister_reads {p : Params} {offset : Nat} {s t : State} (h : readRegister p offset s = .next t) :
    ∃ v, t.reads = v :: s.reads := by
  unfold readRegister at h
  split at h
  case h_3 =>
    split at h
    · cases h
    · cases h; exact ⟨_, rfl⟩
  case h_12 | h_13 | h_14 | h_15 => cases h; exact readVolatile_reads ..
  all_goals cases h; exact ⟨_, rfl⟩

theorem readTable_reads (p : Params) (offset : Nat) (width : Width) (s : State) :
    ∃ v, (readTable p offset width s).reads = v :: s.reads := by
  unfold readTable
  split
  · split <;> exact ⟨_, rfl⟩
  · exact ⟨_, rfl⟩

theorem readImage_reads (p : Params) (offset : Nat) (width : Width) (s : State) :
    ∃ v, (readImage p offset width s).reads = v :: s.reads := by
  unfold readImage
  split
  · dsimp only
    split <;> exact ⟨_, rfl⟩
  · exact ⟨_, rfl⟩

/-- Whatever a host read returns, the log of reads grows by that one value (log 19). -/
theorem hostRead_reads {p : Params} {space : Space} {offset : Nat} {width : Width} {s t : State}
    (h : hostRead p space offset width s = .next t) : ∃ v, t.reads = v :: s.reads := by
  cases space with
  | image => cases h; exact readImage_reads ..
  | window =>
    simp only [hostRead] at h
    split at h
    · exact readRegister_reads h
    · split at h
      · cases h; exact ⟨_, rfl⟩
      · cases h; exact readTable_reads ..

/-- Settles O14: the log of reads grows by one value, and `hostRead_cases` frames everything else. -/
theorem hostReadsHaveNoSideEffect : Obligations.HostReadsHaveNoSideEffect := by
  intro s t after space offset width hd ht
  rw [step_facing hd] at ht
  refine ⟨hostRead_reads ht, ?_⟩
  rcases hostRead_cases Config.hw space offset width s with ⟨u, hu, hframe⟩ | ⟨hfault, -⟩
  · cases hu.symm.trans ht
    exact hframe
  · cases hfault.symm.trans ht

/-! ### Which bytes an access touches (R65, R66) -/

/-- How many bytes an access of the given width touches. -/
def accessBytes : Width → Nat
  | .w8 => 1
  | .w16 => 2
  | .w32 => 4

/-- The accesses that the image and the table space do not answer (R66). -/
theorem byteSpaceOk_eq_false_iff {offset : Nat} {width : Width} :
    byteSpaceOk offset width = false ↔ width = .w16 ∨ width = .w32 ∧ offset % 4 ≠ 0 := by
  cases width <;> simp [byteSpaceOk]

theorem byteSpaceOk_word {offset : Nat} (h : offset % 4 = 0) : byteSpaceOk offset .w32 = true := by
  simp [byteSpaceOk, h]

/-- An answered access stays inside one aligned word. -/
theorem touched_div_four {offset k : Nat} {width : Width} (h : byteSpaceOk offset width = true)
    (hk : k < accessBytes width) : (offset + k) / 4 = offset / 4 := by
  cases width with
  | w8 => simp only [accessBytes] at hk; omega
  | w16 => cases h
  | w32 =>
    have hal : offset % 4 = 0 := by simpa [byteSpaceOk] using h
    simp only [accessBytes] at hk
    omega

/-- The value of an access depends on the bytes it touches alone. -/
theorem gather_congr {f g : Nat → Byte} {offset : Nat} {width : Width}
    (h : ∀ k < accessBytes width, f (offset + k) = g (offset + k)) :
    gather f offset width = gather g offset width := by
  cases width with
  | w8 => simp only [gather, show f offset = g offset from h 0 (by decide)]
  | w16 => simp only [gather, show f offset = g offset from h 0 (by decide), h 1 (by decide)]
  | w32 =>
    simp only [gather, show f offset = g offset from h 0 (by decide), h 1 (by decide), h 2 (by decide),
      h 3 (by decide)]

/-- An access that touches zero bytes only has the value 0. -/
theorem gather_zero {f : Nat → Byte} {offset : Nat} {width : Width}
    (h : ∀ k < accessBytes width, f (offset + k) = 0#8) : gather f offset width = 0#32 := by
  rw [gather_congr (g := fun _ => 0#8) h]
  cases width <;> simp [gather, zextByte, wordOfBytes]

/-! ### The table space (R61, R64) -/

theorem not_registerAccess {offset : Nat} (ho : 0x100 ≤ offset) (width : Width) :
    ¬registerAccess offset width = true := by
  rw [registerAccess_iff]
  omega

/-- A due read of the table space. -/
theorem step_read_table {s : State} {after : Option Nat} (hd : s.due after) {offset : Nat} (ho : 0x100 ≤ offset)
    (width : Width) :
    step (s.facing after (.read .window offset width)) = .next (readTable Config.hw offset width s) := by
  rw [step_facing hd, hostAct, hostRead, if_neg (not_registerAccess ho width), if_neg (by omega)]

/-- A due write to the table space changes nothing (R64), whether the block is busy (R219) or not. -/
theorem step_write_table {s : State} {after : Option Nat} (hd : s.due after) {offset : Nat} (ho : 0x100 ≤ offset)
    (width : Width) (v : Word) : step (s.facing after (.write .window offset width v)) = .next s := by
  cases hb : s.busy with
  | true => exact step_write_busy hd hb ..
  | false =>
    rw [step_facing hd, hostAct, hostWrite, if_neg (by simp [hb])]
    exact if_neg (not_registerAccess ho width)

theorem lutWindow_iff {offset : Nat} : lutWindow offset = true ↔ 0x400 ≤ offset ∧ offset < 0x600 := by
  simp [lutWindow]

/-- A read that R66 does not answer. -/
theorem readTable_unanswered {p : Params} {s : State} {offset : Nat} {width : Width}
    (h : byteSpaceOk offset width = false) : readTable p offset width s = reply 0#32 s := by
  rw [readTable, if_neg (by simp [h])]

/-- A read of a window that is open: one of the ROM windows, or a tone table that is built while the block is idle. -/
theorem readTable_open {p : Params} {s : State} {offset : Nat} {width : Width} (h : byteSpaceOk offset width = true)
    (hopen : lutWindow offset = true → s.lutv = true ∧ s.busy = false) :
    readTable p offset width s = reply (gather (tableByte p s) offset width) s := by
  rw [readTable, if_pos h, if_neg]
  intro hclosed
  obtain ⟨hw, hs⟩ := Bool.and_eq_true_iff.mp hclosed
  obtain ⟨hl, hb⟩ := hopen hw
  simp [hl, hb] at hs

/-- A read of a tone table that is not built, or of a busy block (R64; log 7). -/
theorem readTable_free {p : Params} {s : State} {offset : Nat} {width : Width} (h : byteSpaceOk offset width = true)
    (hw : lutWindow offset = true) (hclosed : s.lutv = false ∨ s.busy = true) :
    readTable p offset width s = replyFree p width s := by
  rw [readTable, if_pos h, if_pos]
  rcases hclosed with hl | hb
  · simp [hw, hl]
  · simp [hw, hb]

/-- The unmapped offsets of the table space below the nearest-color ROM (R61). -/
def Unmapped (offset : Nat) : Prop :=
  0x100 ≤ offset ∧ offset < 0x400 ∨ 0x700 ≤ offset ∧ offset < 0x800 ∨ 0xC00 ≤ offset ∧ offset < 0x1000

theorem tableByte_unmapped (p : Params) (s : State) {offset : Nat} (h : Unmapped offset) :
    tableByte p s offset = 0#8 := by
  rcases h with ⟨-, hhi⟩ | ⟨hlo, hhi⟩ | ⟨hlo, hhi⟩
  · exact if_pos hhi
  · rw [tableByte, if_neg (by omega), if_neg (by omega), if_neg (by omega), if_neg (by omega), if_pos hhi]
  · rw [tableByte, if_neg (by omega), if_neg (by omega), if_neg (by omega), if_neg (by omega), if_neg (by omega),
      if_neg (by omega), if_pos hhi]

/-- The unmapped ranges are made of whole words. -/
theorem Unmapped.same_word {a b : Nat} (h : Unmapped a) (hab : b / 4 = a / 4) : Unmapped b := by
  unfold Unmapped at *
  omega

/-- Settles O16: an answered read touches unmapped bytes only, which read 0. -/
theorem unmappedTableOffsetsReadZero : Obligations.UnmappedTableOffsetsReadZero := by
  intro s after offset width v hd (hun : Unmapped offset)
  have ho : 0x100 ≤ offset := by unfold Unmapped at hun; omega
  refine ⟨?_, step_write_table hd ho width v⟩
  rw [step_read_table hd ho]
  cases hok : byteSpaceOk offset width with
  | false => rw [readTable_unanswered hok]; rfl
  | true =>
    have hopen : lutWindow offset = true → s.lutv = true ∧ s.busy = false := fun hw => by
      have := lutWindow_iff.mp hw
      unfold Unmapped at hun
      omega
    have hzero : gather (tableByte Config.hw s) offset width = 0#32 :=
      gather_zero fun k hk => tableByte_unmapped _ _ (hun.same_word (touched_div_four hok hk))
    rw [readTable_open hok hopen, hzero]
    rfl

/-- Within an aligned word, adding to an offset held in a bit vector does not wrap. -/
theorem toNat_add_of_aligned {n : Nat} (hn : 2 ≤ n) {i : BitVec n} (h : i.toNat % 4 = 0) {k : Nat} (hk : k < 4) :
    (i + BitVec.ofNat n k).toNat = i.toNat + k := by
  obtain ⟨m, hm⟩ : 4 ∣ 2 ^ n := pow_dvd_pow 2 hn
  have hlt := i.isLt
  rw [BitVec.toNat_add, BitVec.toNat_ofNat, Nat.mod_eq_of_lt (a := k) (by omega), Nat.mod_eq_of_lt (by omega)]

/-- A window of the table space that starts at `base` and holds the bytes `f` (R64), read by the byte and by the
aligned word, the lowest offset in the low bits (R65). -/
theorem step_read_bytes {n base : Nat} {f : BitVec n → Byte} {s : State} {after : Option Nat} (hd : s.due after)
    (hn : 2 ≤ n) (hbase : 0x100 ≤ base) (hal : base % 4 = 0)
    (hf : ∀ i : BitVec n, tableByte Config.hw s (base + i.toNat) = f i)
    (hopen : ∀ i : BitVec n, lutWindow (base + i.toNat) = true → s.lutv = true ∧ s.busy = false) (i : BitVec n) :
    step (s.facing after (.read .window (base + i.toNat) .w8)) =
      .next { s with reads := (f i).setWidth 32 :: s.reads } ∧
    (i.toNat % 4 = 0 → step (s.facing after (.read .window (base + i.toNat) .w32)) =
      .next { s with reads := (f (i + BitVec.ofNat n 3) ++ f (i + BitVec.ofNat n 2) ++ f (i + BitVec.ofNat n 1) ++ f i)
        :: s.reads }) := by
  have ho : 0x100 ≤ base + i.toNat := by omega
  constructor
  · rw [step_read_table hd ho, readTable_open rfl (hopen i), gather, hf]
    rfl
  · intro hi
    have hok : byteSpaceOk (base + i.toNat) .w32 = true := byteSpaceOk_word (by omega)
    have hbyte : ∀ k < 4, tableByte Config.hw s (base + i.toNat + k) = f (i + BitVec.ofNat n k) := fun k hk => by
      rw [Nat.add_assoc, ← toNat_add_of_aligned hn hi hk, hf]
    rw [step_read_table hd ho, readTable_open hok (hopen i), gather, hf, hbyte 1 (by decide), hbyte 2 (by decide),
      hbyte 3 (by decide)]
    rfl

theorem tableByte_lutG (p : Params) (s : State) (i : Byte) : tableByte p s (0x400 + i.toNat) = tableAt s.lutG i := by
  have hi := i.isLt
  rw [tableByte, if_neg (by omega), if_pos (by omega), Nat.add_sub_cancel_left, BitVec.ofNat_toNat,
    BitVec.setWidth_eq]

theorem tableByte_lutC (p : Params) (s : State) (i : Byte) : tableByte p s (0x500 + i.toNat) = tableAt s.lutC i := by
  have hi := i.isLt
  rw [tableByte, if_neg (by omega), if_neg (by omega), if_pos (by omega), Nat.add_sub_cancel_left,
    BitVec.ofNat_toNat, BitVec.setWidth_eq]

theorem tableByte_bayer (p : Params) (s : State) (r c : BitVec 4) :
    tableByte p s (0x600 + 16 * r.toNat + c.toNat) = p.bayerRom r c := by
  have hr := r.isLt
  have hc := c.isLt
  have hrow : (0x600 + 16 * r.toNat + c.toNat - 0x600) / 16 = r.toNat := by omega
  have hcol : (0x600 + 16 * r.toNat + c.toNat - 0x600) % 16 = c.toNat := by omega
  rw [tableByte, if_neg (by omega), if_neg (by omega), if_neg (by omega), if_pos (by omega), hrow, hcol,
    BitVec.ofNat_toNat, BitVec.ofNat_toNat, BitVec.setWidth_eq, BitVec.setWidth_eq]

theorem tableByte_palette (p : Params) (s : State) (q : Byte) {k : Nat} (hk : k < 4) :
    tableByte p s (0x800 + 4 * q.toNat + k) = byteOfWord (wordOfPixel (p.paletteRom q)) k := by
  have hq := q.isLt
  have hentry : (0x800 + 4 * q.toNat + k - 0x800) / 4 = q.toNat := by omega
  have hbyte : (0x800 + 4 * q.toNat + k - 0x800) % 4 = k := by omega
  rw [tableByte, if_neg (by omega), if_neg (by omega), if_neg (by omega), if_neg (by omega), if_neg (by omega),
    if_pos (by omega), hentry, hbyte, BitVec.ofNat_toNat, BitVec.setWidth_eq]

theorem tableByte_nearest (p : Params) (s : State) (i : BitVec 12) :
    tableByte p s (0x1000 + i.toNat) = p.nearestRom i := by
  have hi := i.isLt
  rw [tableByte, if_neg (by omega), if_neg (by omega), if_neg (by omega), if_neg (by omega), if_neg (by omega),
    if_neg (by omega), if_neg (by omega), if_pos (by omega), Nat.add_sub_cancel_left, BitVec.ofNat_toNat,
    BitVec.setWidth_eq]

/-- The bytes of a palette word, B at the lowest offset (R64, R65; log 11). -/
theorem byteOfWord_wordOfPixel (px : Pixel) (k : Fin 4) :
    byteOfWord (wordOfPixel px) k.val = [px.b, px.g, px.r, 0#8].getD k.val 0#8 := by
  obtain ⟨h0, h1, h2, h3⟩ := byteOfWord_wordOfBytes px.b px.g px.r 0#8
  fin_cases k
  · exact h0
  · exact h1
  · exact h2
  · exact h3

/-- A due read of the palette window, by the word and by the byte, busy or not. -/
theorem step_read_palette {s : State} {after : Option Nat} (hd : s.due after) (q : Byte) :
    step (s.facing after (.read .window (0x800 + 4 * q.toNat) .w32)) =
      .next { s with reads := wordOfPixel (Config.hw.paletteRom q) :: s.reads } ∧
    ∀ k : Fin 4, step (s.facing after (.read .window (0x800 + 4 * q.toNat + k.val) .w8)) =
      .next { s with reads := (byteOfWord (wordOfPixel (Config.hw.paletteRom q)) k.val).setWidth 32 :: s.reads } := by
  have hopen : ∀ k, lutWindow (0x800 + 4 * q.toNat + k) = true → s.lutv = true ∧ s.busy = false := fun k hw => by
    have := lutWindow_iff.mp hw
    omega
  constructor
  · have hok : byteSpaceOk (0x800 + 4 * q.toNat) .w32 = true := byteSpaceOk_word (by omega)
    have hlow := tableByte_palette Config.hw s q (k := 0) (by decide)
    rw [Nat.add_zero] at hlow
    rw [step_read_table hd (by omega), readTable_open hok (hopen 0), gather, hlow,
      tableByte_palette _ _ _ (by decide), tableByte_palette _ _ _ (by decide), tableByte_palette _ _ _ (by decide),
      wordOfBytes_byteOfWord]
    rfl
  · intro k
    rw [step_read_table hd (by omega), readTable_open rfl (hopen k), gather, tableByte_palette _ _ _ k.isLt]
    rfl

/-- Settles O15, window by window: each holds its bytes from its base on. -/
theorem tableSpaceReads : Obligations.TableSpaceReads := by
  intro s after hd
  have hrom : ∀ {base : Nat} {P : Prop}, 0x600 ≤ base → ∀ k, lutWindow (base + k) = true → P := fun hbase k hw => by
    have := lutWindow_iff.mp hw
    omega
  refine ⟨?lut, ?closed, ?bayer, ?palette, ?nearest, ?unanswered, ?writes⟩
  case lut =>
    intro hl hb i
    obtain ⟨g8, g32⟩ := step_read_bytes hd (by decide) (by decide) (by decide) (tableByte_lutG Config.hw s)
      (fun _ _ => ⟨hl, hb⟩) i
    obtain ⟨c8, c32⟩ := step_read_bytes hd (by decide) (by decide) (by decide) (tableByte_lutC Config.hw s)
      (fun _ _ => ⟨hl, hb⟩) i
    exact ⟨g8, c8, fun hi => ⟨g32 hi, c32 hi⟩⟩
  case closed =>
    intro hclosed offset hlo hhi
    have hw : lutWindow offset = true := lutWindow_iff.mpr ⟨hlo, hhi⟩
    constructor
    · rw [step_read_table hd (by omega), readTable_free rfl hw hclosed]
      rfl
    · intro hal
      rw [step_read_table hd (by omega), readTable_free (byteSpaceOk_word hal) hw hclosed]
      rfl
  case bayer =>
    intro r
    exact step_read_bytes hd (by decide) (by omega) (by omega) (tableByte_bayer Config.hw s r)
      (fun c => hrom (by omega) c.toNat)
  case palette =>
    intro q
    obtain ⟨hword, hbyte⟩ := step_read_palette hd q
    exact ⟨hword, fun k => by rw [hbyte, byteOfWord_wordOfPixel]⟩
  case nearest =>
    exact step_read_bytes hd (by decide) (by decide) (by decide) (tableByte_nearest Config.hw s)
      (fun i => hrom (by decide) i.toNat)
  case unanswered =>
    intro _ offset width hlo _ hun
    rw [step_read_table hd (by omega), readTable_unanswered (byteSpaceOk_eq_false_iff.mpr hun)]
    rfl
  case writes =>
    intro offset width v ho
    exact step_write_table hd ho width v

/-! ### The image space of an idle block (R60, R65, R66) -/

theorem step_read_image {s : State} (hb : s.busy = false) (after : Option Nat) (a : Nat) (width : Width) :
    step (s.facing after (.read .image a width)) = .next (readImage Config.hw a width s) :=
  step_facing (.inl hb) _

theorem step_write_image {s : State} (hb : s.busy = false) (after : Option Nat) (a : Nat) (width : Width) (v : Word) :
    step (s.facing after (.write .image a width v)) = .next (writeImage Config.hw a width v s) := by
  rw [step_facing (.inl hb), hostAct, hostWrite, if_neg (by simp [hb])]

theorem readImage_idle {p : Params} {s : State} {a : Nat} {width : Width} (hb : s.busy = false)
    (h : byteSpaceOk a width = true) : readImage p a width s = reply (gather (hostImgByte p s) a width) s := by
  rw [readImage, if_pos h]
  exact if_neg (by simp [hb])

theorem readImage_unanswered {p : Params} {s : State} {a : Nat} {width : Width}
    (h : byteSpaceOk a width = false) : readImage p a width s = reply 0#32 s := by
  rw [readImage, if_neg (by simp [h])]

theorem writeImage_unanswered {p : Params} {s : State} {a : Nat} {width : Width} (v : Word)
    (h : byteSpaceOk a width = false) : writeImage p a width v s = s := by
  unfold writeImage
  exact if_neg (by simp [h])

theorem hostImgByte_below {p : Params} {s : State} {a : Nat} (hb : s.busy = false) (h : a < p.imgCap) :
    hostImgByte p s a = imgByte p s a := by
  rw [hostImgByte, if_neg (by omega), if_neg (by simp [hb])]

theorem hostImgByte_above {p : Params} {s : State} {a : Nat} (h : p.imgCap ≤ a) : hostImgByte p s a = 0#8 :=
  if_pos h

theorem hostSetByte_below {p : Params} {s : State} {a : Nat} (b : Byte) (h : a < p.imgCap) :
    hostSetByte p a b s = setImgByte s a b :=
  if_neg (by omega)

theorem hostSetByte_above {p : Params} {s : State} {a : Nat} (b : Byte) (h : p.imgCap ≤ a) :
    hostSetByte p a b s = s :=
  if_pos h

/-- Settles O18: below `IMG_CAP` the host sees the image bytes. -/
theorem imageReadsOfTheHost : Obligations.ImageReadsOfTheHost := by
  intro s after a hb
  constructor
  · intro ha
    rw [step_read_image hb, readImage_idle hb rfl, gather, hostImgByte_below hb ha]
    rfl
  · intro hal ha
    rw [step_read_image hb, readImage_idle hb (byteSpaceOk_word hal), gather, hostImgByte_below hb (by omega),
      hostImgByte_below hb (by omega), hostImgByte_below hb (by omega), hostImgByte_below hb ha]
    rfl

/-- A write at or above `IMG_CAP` writes nothing, byte for byte (R66). -/
theorem writeImage_above {p : Params} {s : State} {a : Nat} (width : Width) (v : Word) (h : p.imgCap ≤ a) :
    writeImage p a width v s = s := by
  unfold writeImage
  split
  · cases width with
    | w8 => exact hostSetByte_above _ h
    | w16 => rfl
    | w32 =>
      dsimp only
      rw [hostSetByte_above _ h, hostSetByte_above _ (by omega), hostSetByte_above _ (by omega),
        hostSetByte_above _ (by omega)]
  · rfl

/-- Settles O19: either R66 does not answer the access, or every byte it touches is at or above `IMG_CAP`. -/
theorem unansweredImageAccesses : Obligations.UnansweredImageAccesses := by
  intro s after a width v hb hun
  rw [step_read_image hb, step_write_image hb]
  cases hok : byteSpaceOk a width with
  | false =>
    rw [readImage_unanswered hok, writeImage_unanswered v hok]
    exact ⟨rfl, rfl⟩
  | true =>
    have hcap : Config.hw.imgCap ≤ a := hun.resolve_right fun h => by simp [byteSpaceOk_eq_false_iff.mpr h] at hok
    have hzero : gather (hostImgByte Config.hw s) a width = 0#32 :=
      gather_zero fun k _ => hostImgByte_above (by omega)
    rw [readImage_idle hb hok, hzero, writeImage_above width v hcap]
    exact ⟨rfl, rfl⟩

/-- A byte write below `IMG_CAP` writes its byte. -/
theorem writeImage_byte {p : Params} {s : State} {a : Nat} (v : Word) (h : a < p.imgCap) :
    writeImage p a .w8 v s = setImgByte s a (byteOfWord v 0) :=
  hostSetByte_below _ h

/-- An aligned word write below `IMG_CAP` writes its four bytes. -/
theorem writeImage_word {p : Params} {s : State} {a : Nat} (v : Word) (hal : a % 4 = 0) (h : a + 3 < p.imgCap) :
    writeImage p a .w32 v s =
      setImgByte (setImgByte (setImgByte (setImgByte s a (byteOfWord v 0)) (a + 1) (byteOfWord v 1))
        (a + 2) (byteOfWord v 2)) (a + 3) (byteOfWord v 3) := by
  rw [writeImage, if_pos (byteSpaceOk_word hal)]
  rw [hostSetByte_below _ h, hostSetByte_below _ (by omega), hostSetByte_below _ (by omega),
    hostSetByte_below _ (by omega)]

/-- Reading an image byte after writing the four bytes of a word, the lowest offset taking the low bits (R65). -/
theorem imgByte_setWord (p : Params) (s : State) (a k : Nat) (v : Word) :
    imgByte p (setImgByte (setImgByte (setImgByte (setImgByte s a (byteOfWord v 0)) (a + 1) (byteOfWord v 1))
      (a + 2) (byteOfWord v 2)) (a + 3) (byteOfWord v 3)) k =
      if a ≤ k ∧ k < a + 4 then byteOfWord v (k - a) else imgByte p s k := by
  simp only [imgByte_setImgByte]
  by_cases hk : a ≤ k ∧ k < a + 4
  · obtain ⟨j, rfl⟩ := Nat.exists_eq_add_of_le hk.1
    have hj : j < 4 := by omega
    rw [if_pos hk, Nat.add_sub_cancel_left]
    interval_cases j <;> simp
  · rw [if_neg hk, if_neg (by omega), if_neg (by omega), if_neg (by omega), if_neg (by omega)]

/-- Settles O17: the write is of exactly its bytes, and `writeImage_only` frames everything else. -/
theorem imageWritesOfTheHost : Obligations.ImageWritesOfTheHost := by
  intro s after a v hb
  constructor
  · intro ha
    refine ⟨_, step_write_image hb after a .w8 v, (writeImage_only ..).1, fun k => ?_⟩
    rw [imageOf, writeImage_byte v ha, imgByte_setImgByte, BitVec.setWidth_eq_extractLsb' (by decide)]
    rfl
  · intro hal ha
    refine ⟨_, step_write_image hb after a .w32 v, (writeImage_only ..).1, fun k => ?_⟩
    rw [imageOf, writeImage_word v hal ha, imgByte_setWord]
    rfl

/-! ### Reads of a busy block (R64, R71, R76; log 7) -/

/-- `s` with other contents of the image and of the tone tables. -/
def holding (s : State) (img : Memory) (g c : Vector Byte 256) : State := { s with image := img, lutG := g, lutC := c }

section
variable {p : Params} {s t : State} {img : Memory} {g c : Vector Byte 256} {offset : Nat} {width : Width}

/-- The registers read the same over any contents: none of them is in the image or a tone table. -/
theorem readRegister_holding (h : readRegister p offset s = .next t) :
    readRegister p offset (holding s img g c) = .next (holding t img g c) := by
  have hvolatile : ∀ v, readVolatile p v (holding s img g c) = holding (readVolatile p v s) img g c := fun v =>
    (apply_ite (holding · img g c) (s.busy = true) (replyFree p .w32 s) (reply v s)).symm
  revert h
  unfold readRegister
  split
  case h_3 =>
    intro h
    split at h
    · cases h
    · rename_i he
      cases h
      exact if_neg he
  case h_12 | h_13 | h_14 | h_15 => intro h; cases h; exact congrArg Host.Outcome.next (hvolatile _)
  all_goals
    intro h
    cases h
    rfl

/-- Outside the two tone table windows the table space does not depend on the tone tables. -/
theorem tableByte_holding (h : lutWindow offset = false) :
    tableByte p (holding s img g c) offset = tableByte p s offset := by
  have hout : ¬(0x400 ≤ offset ∧ offset < 0x600) := fun hw => by simp [lutWindow_iff.mpr hw] at h
  unfold tableByte
  by_cases hlow : offset < 0x400
  · rw [if_pos hlow, if_pos hlow]
  · have hG : ¬offset < 0x500 := by omega
    have hC : ¬offset < 0x600 := by omega
    simp only [if_neg hG, if_neg hC]

theorem readTable_holding (hb : s.busy = true) :
    readTable p offset width (holding s img g c) = holding (readTable p offset width s) img g c := by
  have hb' : (holding s img g c).busy = true := hb
  cases hok : byteSpaceOk offset width with
  | false => rw [readTable_unanswered hok, readTable_unanswered hok]; rfl
  | true =>
    cases hw : lutWindow offset with
    | true => rw [readTable_free hok hw (.inr hb'), readTable_free hok hw (.inr hb)]; rfl
    | false =>
      have houtside : ∀ k < accessBytes width, lutWindow (offset + k) = false := fun k hk => by
        have := touched_div_four hok hk
        simp only [lutWindow, decide_eq_false_iff_not] at hw ⊢
        omega
      rw [readTable_open hok (by simp [hw]), readTable_open hok (by simp [hw]),
        gather_congr fun k hk => tableByte_holding (houtside k hk)]
      rfl

theorem readImage_holding (hb : s.busy = true) :
    readImage p offset width (holding s img g c) = holding (readImage p offset width s) img g c := by
  have hb' : (holding s img g c).busy = true := hb
  have hbyte : hostImgByte p (holding s img g c) = hostImgByte p s := by
    funext a
    rw [hostImgByte, if_pos hb', hostImgByte, if_pos hb]
    rfl
  cases hok : byteSpaceOk offset width with
  | false => rw [readImage_unanswered hok, readImage_unanswered hok]; rfl
  | true =>
    rw [readImage, if_pos hok, readImage, if_pos hok, hbyte]
    dsimp only
    rw [if_pos hb', if_pos hb]
    rfl

/-- A read of a busy block does the same over any contents of the image and of the tone tables. -/
theorem hostRead_holding {space : Space} (hb : s.busy = true) (h : hostRead p space offset width s = .next t) :
    hostRead p space offset width (holding s img g c) = .next (holding t img g c) := by
  cases space with
  | image =>
    cases h
    exact congrArg Host.Outcome.next (readImage_holding hb)
  | window =>
    simp only [hostRead] at h ⊢
    by_cases hr : registerAccess offset width = true
    · rw [if_pos hr] at h ⊢
      exact readRegister_holding h
    · rw [if_neg hr] at h ⊢
      by_cases hlt : offset < 0x100
      · rw [if_pos hlt] at h ⊢
        cases h
        rfl
      · rw [if_neg hlt] at h ⊢
        cases h
        rw [readTable_holding hb]

end

/-- Settles O20: the two reads go to states that differ in the image and the tone tables alone. -/
theorem busyReadsRevealNothing : Obligations.BusyReadsRevealNothing := by
  intro s img g c space offset width t u hb ht hu
  have hd : ∀ s : State, s.due (some 0) := fun _ => .inr rfl
  rw [step_facing (hd _)] at ht hu
  cases (hostRead_holding (img := img) (g := g) (c := c) hb ht).symm.trans hu
  rfl

end Sys2Proof.Proofs

namespace Sys2Proof.Proofs
open Sys2Proof.Machine Sys2Proof.Laws

/-! ### Encoding: words, bytes and opcodes (R65, R90 to R93) -/

theorem map_range_four (f : Nat → Byte) : (List.range 4).map f = [f 0, f 1, f 2, f 3] := rfl

/-- Decoding the four bytes of a word decodes the word and hands the rest on (R65, R90). -/
theorem decodeBytes_bytes_append (w : Word) (rest : List Byte) :
    decodeBytes ((List.range 4).map (byteOfWord w) ++ rest) = (decode w).map (·, rest) := by
  simp only [map_range_four, List.cons_append, List.nil_append, decodeBytes, wordOfBytes_byteOfWord]

/-- Bytes that decode are the bytes of a word that decodes, with the rest behind them. -/
theorem decode_of_decodeBytes {b0 b1 b2 b3 : Byte} {rest r : List Byte} {i : Instr}
    (h : decodeBytes (b0 :: b1 :: b2 :: b3 :: rest) = .ok (i, r)) :
    decode (wordOfBytes b0 b1 b2 b3) = .ok i ∧ r = rest := by
  rw [decodeBytes] at h
  cases hd : decode (wordOfBytes b0 b1 b2 b3) with
  | error e =>
    rw [hd] at h
    cases h
  | ok j =>
    rw [hd] at h
    cases h
    exact ⟨rfl, rfl⟩

/-- A command encodes to the bytes its word is put together of (R65). -/
theorem encodeBytes_of_wordOfBytes {b0 b1 b2 b3 : Byte} {i : Instr} (h : wordOfBytes b0 b1 b2 b3 = encode i) :
    encodeBytes i = [b0, b1, b2, b3] := by
  obtain ⟨h0, h1, h2, h3⟩ := byteOfWord_wordOfBytes b0 b1 b2 b3
  rw [h] at h0 h1 h2 h3
  rw [encodeBytes, map_range_four, h0, h1, h2, h3]

/-- Settles O1: on words by the table of R91, on bytes because the word and its bytes determine each other. -/
theorem decodeInvertsEncode : Obligations.DecodeInvertsEncode := by
  refine ⟨decode_encode, fun _ _ => encode_of_decode, fun i rest => ?_, fun b0 b1 b2 b3 rest i r h => ?_⟩
  · rw [encodeBytes, decodeBytes_bytes_append, decode_encode]
    rfl
  · obtain ⟨hd, hr⟩ := decode_of_decodeBytes h
    exact ⟨hr, encodeBytes_of_wordOfBytes (encode_of_decode hd)⟩

/-- The opcodes from 0x07 on are unassigned, and no others (R91, R93). -/
theorem decodeOpcode_eq_none_iff (n : Nat) : decodeOpcode n = none ↔ 7 ≤ n := by
  match n with
  | 0 | 1 | 2 | 3 | 4 | 5 | 6 => simp [decodeOpcode]
  | n + 7 => simp [decodeOpcode]

theorem decode_reservedBits {w : Word} (h : w.extractLsb' 8 24 ≠ 0#24) : decode w = .error (.reservedBits w) :=
  if_neg h

theorem decode_unassignedOpcode {w : Word} (hz : w.extractLsb' 8 24 = 0#24)
    (h : 0x07#8 ≤ w.extractLsb' 0 8) : decode w = .error (.unassignedOpcode w) := by
  have hnone := (decodeOpcode_eq_none_iff _).mpr (BitVec.le_def.mp h)
  rw [decode, if_pos hz, hnone]

theorem decode_assignedOpcode {w : Word} (hz : w.extractLsb' 8 24 = 0#24) (h : w.extractLsb' 0 8 < 0x07#8) :
    ∃ i, decode w = .ok i := by
  have hsome : decodeOpcode (w.extractLsb' 0 8).toNat ≠ none := fun e =>
    absurd ((decodeOpcode_eq_none_iff _).mp e) (Nat.not_le.mpr (BitVec.lt_def.mp h))
  obtain ⟨i, hi⟩ := Option.ne_none_iff_exists'.mp hsome
  exact ⟨i, by rw [decode, if_pos hz, hi]⟩

/-- Settles O2, by the reserved bits first and the opcode then. -/
theorem illegalWordsAreRejectedByName : Obligations.IllegalWordsAreRejectedByName := by
  refine fun w => ⟨decode_reservedBits, decode_unassignedOpcode, fun hz hlt => ?_⟩
  obtain ⟨i, hi⟩ := decode_assignedOpcode hz hlt
  exact ⟨i, hi, (encode_of_decode hi).symm⟩

/-- A table row of 32 bits stands for the command its word decodes to (R91; log 16). -/
theorem decodeTableWord_toNat (w : Word) : decodeTableWord 32 w.toNat = (decode w).toOption := by
  have hbytes := decodeBytes_bytes_append w []
  rw [List.append_nil] at hbytes
  rw [decodeTableWord, if_pos ⟨le_rfl, w.isLt⟩, BitVec.ofNat_toNat, BitVec.setWidth_eq, hbytes]
  cases decode w <;> rfl

theorem decodeTableWord_encode (i : Instr) : decodeTableWord 32 (encode i).toNat = some i := by
  rw [decodeTableWord_toNat, decode_encode]
  rfl

theorem decodeTableWord_of_error {w : Word} {e : DecodeError} (h : decode w = .error e) :
    decodeTableWord 32 w.toNat = none := by
  rw [decodeTableWord_toNat, h]
  rfl

/-- Settles O3: each of the seven words encodes its command, and the three others are rejected (R92, R93). -/
theorem opcodeMapOfTheSpec : Obligations.OpcodeMapOfTheSpec :=
  ⟨decodeTableWord_encode .nop, decodeTableWord_encode .buildLut, decodeTableWord_encode .applyLut,
    decodeTableWord_encode .dither, decodeTableWord_encode .map332, decodeTableWord_encode .mapnn,
    decodeTableWord_encode .sreset,
    decodeTableWord_of_error (decode_unassignedOpcode (w := 0x00000007#32) (by decide) (by decide)),
    decodeTableWord_of_error (decode_reservedBits (w := 0x00000101#32) (by decide)),
    decodeTableWord_of_error (decode_reservedBits (w := 0x80000001#32) (by decide))⟩

/-! ### The value of an f32 pattern (R96) -/

/-- The value is the signed magnitude in units of the least subnormal, `2^-149`. -/
theorem f32Val_eq (f : Word) :
    f32Val f = (if f.getLsbD 31 then -1 else 1) * ((f32Magnitude f : ℚ) / 2 ^ 149) := by
  rw [f32Val, Rat.mkRat_eq_div, f32Scaled, f32Sign]
  split <;> push_cast <;> ring

theorem f32Magnitude_subnormal {f : Word} (h : f32Exp f = 0) : f32Magnitude f = f32Frac f := if_pos h

theorem f32Magnitude_normal {f : Word} (h : 1 ≤ f32Exp f) :
    f32Magnitude f = (2 ^ 23 + f32Frac f) * 2 ^ (f32Exp f - 1) := if_neg (by omega)

/-- The power of two of a normal pattern, in units of the least subnormal. -/
theorem two_zpow_exponent {e : Nat} (h : 1 ≤ e) :
    (2 : ℚ) ^ ((e : ℤ) - 127) = 2 ^ 23 * 2 ^ (e - 1) / 2 ^ 149 := by
  have he : (e : ℤ) - 127 = (e - 1 : Nat) - (126 : Nat) := by omega
  rw [he, zpow_sub₀ two_ne_zero, zpow_natCast, zpow_natCast]
  ring

/-- Settles O30: both formulas are the magnitude in units of `2^-149`. -/
theorem f32ValueFormula : Obligations.F32ValueFormula := by
  refine fun f => ⟨⟨rfl, rfl⟩, fun hnormal _ => ?_, fun hsub => ?_⟩
  · rw [f32Val_eq, f32Magnitude_normal hnormal, two_zpow_exponent hnormal]
    push_cast
    ring
  · have hscale : (2 : ℚ) ^ (-126 : ℤ) = 2 ^ 23 / 2 ^ 149 := by norm_num
    rw [f32Val_eq, f32Magnitude_subnormal hsub, hscale]
    ring

/-! ### The RGB332 byte (R99, R150) -/

/-- The RGB332 byte is the top bits of the three channels, one behind the other. -/
theorem trunc332_eq_append (px : Pixel) :
    trunc332 px = px.r.extractLsb' 5 3 ++ px.g.extractLsb' 5 3 ++ px.b.extractLsb' 6 2 := by
  apply BitVec.eq_of_getLsbD_eq
  intro i hi
  simp only [trunc332, BitVec.getLsbD_or, BitVec.getLsbD_and, BitVec.getLsbD_ushiftRight, BitVec.getLsbD_append,
    BitVec.getLsbD_extractLsb']
  interval_cases i <;> simp

/-- The terms of the three channels have no bit in common, so the byte is also their sum. -/
theorem trunc332_eq_add (px : Pixel) :
    trunc332 px = (px.r &&& 0xE0#8) + ((px.g &&& 0xE0#8) >>> 3) + (px.b >>> 6) := by
  have hrg : (px.r &&& 0xE0#8) &&& ((px.g &&& 0xE0#8) >>> 3) = 0#8 := by
    ext i hi
    interval_cases i <;> simp
  have hb : ((px.r &&& 0xE0#8) ||| ((px.g &&& 0xE0#8) >>> 3)) &&& (px.b >>> 6) = 0#8 := by
    ext i hi
    interval_cases i <;> simp
  rw [BitVec.add_eq_or_of_and_eq_zero _ _ hrg, BitVec.add_eq_or_of_and_eq_zero _ _ hb, trunc332]

/-- Settles O38: the fields are the parts of the appended byte. -/
theorem rgb332Fields : Obligations.Rgb332Fields := by
  refine fun px => ⟨?_, ?_, ?_, trunc332_eq_add px⟩ <;> rw [trunc332_eq_append]
  · rw [BitVec.extractLsb'_append_eq_of_le (by decide)]
    exact BitVec.extractLsb'_append_eq_left
  · rw [BitVec.extractLsb'_append_eq_of_le (by decide)]
    exact BitVec.extractLsb'_append_eq_right
  · exact BitVec.extractLsb'_append_eq_right

end Sys2Proof.Proofs

namespace Sys2Proof.Proofs
open Sys2Proof.Machine Sys2Proof.Laws

/-! ### The parameter check of `BUILD_LUT` (R96, R121) -/

theorem f32IsNaN_iff (f : Word) :
    f32IsNaN f = true ↔ f.extractLsb' 23 8 = 255#8 ∧ f.extractLsb' 0 23 ≠ 0#23 := by
  simp [f32IsNaN, f32Exp, f32Frac, BitVec.toNat_eq]

theorem f32IsInf_iff (f : Word) :
    f32IsInf f = true ↔ f.extractLsb' 23 8 = 255#8 ∧ f.extractLsb' 0 23 = 0#23 := by
  simp [f32IsInf, f32Exp, f32Frac, BitVec.toNat_eq]

theorem f32Val_eq_div (f : Word) : f32Val f = (f32Scaled f : ℚ) / 2 ^ 149 := by
  rw [f32Val, Rat.mkRat_eq_div]
  push_cast
  rfl

/-- Comparing a value with an integer is comparing units of the least subnormal, `2^-149`. -/
theorem f32Val_le_intCast_iff (f : Word) (n : ℤ) : f32Val f ≤ n ↔ f32Scaled f ≤ n * 2 ^ 149 := by
  rw [f32Val_eq_div, div_le_iff₀ (by positivity)]
  exact_mod_cast Iff.rfl

theorem intCast_le_f32Val_iff (f : Word) (n : ℤ) : n ≤ f32Val f ↔ n * 2 ^ 149 ≤ f32Scaled f := by
  rw [f32Val_eq_div, le_div_iff₀ (by positivity)]
  exact_mod_cast Iff.rfl

theorem gammaBad_iff (g : Word) :
    gammaBad g = true ↔ f32IsNaN g = true ∨ f32IsInf g = true ∨ f32Val g ≤ 0 := by
  have hval := f32Val_le_intCast_iff g 0
  rw [Int.cast_zero, Int.zero_mul] at hval
  rw [gammaBad, Bool.or_eq_true, Bool.or_eq_true, decide_eq_true_eq, hval, or_assoc]

theorem contrastBad_iff (c : Word) :
    contrastBad c = true ↔ f32IsNaN c = true ∨ f32IsInf c = true ∨ 259 ≤ f32Val c := by
  have hval := intCast_le_f32Val_iff c 259
  rw [Int.cast_ofNat] at hval
  rw [contrastBad, Bool.or_eq_true, Bool.or_eq_true, decide_eq_true_eq, hval, or_assoc]

theorem lightnessBad_iff (l : Word) : lightnessBad l = true ↔ f32IsNaN l = true ∨ f32IsInf l = true := by
  rw [lightnessBad, Bool.or_eq_true]

/-- A cause with a mask of one bit. -/
theorem getLsbD_cause_twoPow (holds : Bool) {k : Nat} (hk : k < 32) (n : Nat) :
    (cause holds (BitVec.twoPow 32 k)).getLsbD n = (holds && decide (k = n)) := by
  cases holds
  · simp [cause]
  · simp [cause, BitVec.getLsbD_twoPow, hk]

/-- Every bit of the check's word: a cause at 8, 9 and 10, and 0 elsewhere (R121). -/
theorem getLsbD_paramCheck (g c l : Word) (n : Nat) : (paramCheck g c l).getLsbD n =
    ((gammaBad g && decide (8 = n)) || (contrastBad c && decide (9 = n)) || (lightnessBad l && decide (10 = n))) := by
  have hmask : paramCheck g c l = cause (gammaBad g) (BitVec.twoPow 32 8) |||
      cause (contrastBad c) (BitVec.twoPow 32 9) ||| cause (lightnessBad l) (BitVec.twoPow 32 10) := rfl
  rw [hmask, BitVec.getLsbD_or, BitVec.getLsbD_or, getLsbD_cause_twoPow _ (by decide),
    getLsbD_cause_twoPow _ (by decide), getLsbD_cause_twoPow _ (by decide)]

/-- Settles O29: each cause has a bit of its own, and says what R121 says of the value. -/
theorem paramCheckBits : Obligations.ParamCheckBits := by
  refine fun g c l => ⟨?_, ?_, ?_, fun n h8 h9 h10 => ?_, fun f => ⟨f32IsNaN_iff f, f32IsInf_iff f⟩⟩
  · rw [← f32IsNaN_iff, ← f32IsInf_iff, ← gammaBad_iff, getLsbD_paramCheck]
    simp
  · rw [← f32IsNaN_iff, ← f32IsInf_iff, ← contrastBad_iff, getLsbD_paramCheck]
    simp
  · rw [← f32IsNaN_iff, ← f32IsInf_iff, ← lightnessBad_iff, getLsbD_paramCheck]
    simp
  · simp [getLsbD_paramCheck, h8.symm, h9.symm, h10.symm]

/-- A passed check has found `GAMMA` good. -/
theorem gammaBad_of_paramCheck {g c l : Word} (h : paramCheck g c l = 0#32) : gammaBad g = false := by
  have hbit := getLsbD_paramCheck g c l 8
  simpa [h] using hbit.symm

/-- A good `GAMMA` is positive (R121). -/
theorem f32Val_pos_of_gamma {g : Word} (h : gammaBad g = false) : 0 < f32Val g := by
  by_contra hle
  have hbad := (gammaBad_iff g).mpr (.inr (.inr (not_lt.mp hle)))
  exact absurd hbad (by simp [h])

/-! ### `NUM_REAL` on real numbers (R124, R125) -/

theorem numRealGamma_eq_floor {g : Word} (h : gammaBad g = false) (i : Byte) :
    ((numRealGamma Config.hw.roundTies g i).toNat : ℤ) = ⌊vg (f32Val g) i * 255 + 1 / 2⌋ := by
  have hG := f32Val_pos_of_gamma h
  have hround := rnd255_floor (atLeast := vgAtLeast (f32Val g) i) (atMost := vgAtMost (f32Val g) i)
    fun t _ _ => vgAtLeast_iff hG i t
  rw [min_eq_right (vg_le_one hG i), max_eq_right (vg_nonneg _ i)] at hround
  exact hround

theorem numRealCb_eq_floor {g : Word} (h : gammaBad g = false) (c l : Word) (i : Byte) :
    ((numRealCb Config.hw.roundTies g c l i).toNat : ℤ) =
      ⌊max 0 (min 1 ((contrastFactor (f32Val c) : ℝ) * (vg (f32Val g) i * ((f32Val l : ℚ) : ℝ) - 1 / 2) + 1 / 2)) * 255
        + 1 / 2⌋ :=
  rnd255_floor fun t _ _ => vcAtLeast_iff (f32Val_pos_of_gamma h) _ _ i t

/-- Settles O48: `vg` and the contrast factor are the formulas of R124, and counting thresholds rounds. -/
theorem numRealIsTheRealFormula : Obligations.NumRealIsTheRealFormula := by
  intro g c l i h vgi factor hvg hfactor
  have hgamma := gammaBad_of_paramCheck h
  have hvg' : vgi = vg (f32Val g) i := hvg
  have hfactor' : factor = (contrastFactor (f32Val c) : ℝ) := by
    rw [hfactor, contrastFactor]
    push_cast
    rfl
  rw [hvg', hfactor']
  exact ⟨numRealGamma_eq_floor hgamma i, numRealCb_eq_floor hgamma c l i⟩

/-! ### The properties of `NUM` and `NUM_REAL` (R123) -/

theorem f32Val_one : f32Val 0x3F800000#32 = 1 := by
  have hscaled : f32Scaled 0x3F800000#32 = 2 ^ 149 := by decide
  rw [f32Val_eq_div, hscaled]
  norm_num

theorem f32Val_zero : f32Val 0x00000000#32 = 0 := by
  have hscaled : f32Scaled 0x00000000#32 = 0 := by decide
  rw [f32Val_eq_div, hscaled]
  norm_num

theorem contrastFactor_zero : contrastFactor 0 = 1 := by norm_num [contrastFactor]

/-- At `GAMMA` 1.0 the curve is linear. -/
theorem vg_one (i : Byte) : vg 1 i = (i.toNat : ℝ) / 255 := by
  rw [vg]
  split
  · next h => simp [h]
  · simp

theorem vg_first (G : ℚ) : vg G 0#8 = 0 := if_pos rfl

theorem vg_last (G : ℚ) : vg G 255#8 = 1 := by
  have hquot : (((255#8 : Byte).toNat : ℕ) : ℝ) / 255 = 1 := by norm_num
  rw [vg, if_neg (by decide), hquot, Real.one_rpow]

/-- A channel `n / 255` scales and rounds back to `n` (R125). -/
theorem floor_scaled_channel (n : ℕ) : ⌊(n : ℝ) / 255 * 255 + 1 / 2⌋ = (n : ℤ) := by
  rw [div_mul_cancel₀ _ (by norm_num), Int.floor_natCast_add]
  norm_num

/-- A byte whose value is that of a rounded channel `n / 255` is `n`. -/
theorem eq_of_floor_channel {b i : Byte} {v : ℝ} (h : (b.toNat : ℤ) = ⌊v * 255 + 1 / 2⌋)
    (hv : v = (i.toNat : ℝ) / 255) : b = i := by
  rw [hv, floor_scaled_channel] at h
  exact BitVec.eq_of_toNat_eq (by exact_mod_cast h)

theorem gammaBad_one : gammaBad 0x3F800000#32 = false := by decide

/-- `NUM_REAL` has P2 for the gamma table (R123). -/
theorem numRealGamma_one (i : Byte) : numRealGamma Config.hw.roundTies 0x3F800000#32 i = i :=
  eq_of_floor_channel (numRealGamma_eq_floor gammaBad_one i) (by rw [f32Val_one, vg_one])

/-- `NUM_REAL` has P2 for the second table (R123). -/
theorem numRealCb_identity (i : Byte) :
    numRealCb Config.hw.roundTies 0x3F800000#32 0x00000000#32 0x3F800000#32 i = i := by
  refine eq_of_floor_channel (numRealCb_eq_floor gammaBad_one _ _ i) ?_
  have hle : vg 1 i ≤ 1 := vg_le_one one_pos i
  rw [f32Val_one, f32Val_zero, contrastFactor_zero, Rat.cast_one, one_mul, mul_one, sub_add_cancel,
    min_eq_right hle, max_eq_right (vg_nonneg 1 i), vg_one]

/-- `NUM_REAL` has P4 (R123). -/
theorem numRealGamma_ends {g : Word} (h : gammaBad g = false) :
    numRealGamma Config.hw.roundTies g 0#8 = 0#8 ∧ numRealGamma Config.hw.roundTies g 255#8 = 255#8 :=
  ⟨eq_of_floor_channel (numRealGamma_eq_floor h _) (by rw [vg_first]; norm_num),
    eq_of_floor_channel (numRealGamma_eq_floor h _) (by rw [vg_last]; norm_num)⟩

theorem hw_gammaEntry_eq (g : Word) (i : Byte) :
    Config.hw.gammaEntry g i = Config.gammaEntry Config.hw.roundTies g i := rfl

theorem hw_cbEntry_eq (g c l : Word) (i : Byte) :
    Config.hw.cbEntry g c l i = Config.cbEntry Config.hw.roundTies g c l i := rfl

/-- The hardware's `NUM` has P2 for the gamma table (R123). -/
theorem hw_gammaEntry_one (i : Byte) : Config.hw.gammaEntry 0x3F800000#32 i = i := by
  rw [hw_gammaEntry_eq, Config.gammaEntry, if_pos rfl]
  split
  · next h => exact h.symm
  · split
    · next h => exact h.symm
    · rfl

/-- The hardware's `NUM` has P2 for the second table (R123). -/
theorem hw_cbEntry_identity (i : Byte) : Config.hw.cbEntry 0x3F800000#32 0x00000000#32 0x3F800000#32 i = i := by
  rw [hw_cbEntry_eq, Config.cbEntry, if_pos ⟨rfl, rfl, rfl⟩]

/-- The hardware's `NUM` has P4 (R123). -/
theorem hw_gammaEntry_ends (g : Word) :
    Config.hw.gammaEntry g 0#8 = 0#8 ∧ Config.hw.gammaEntry g 255#8 = 255#8 := ⟨rfl, rfl⟩

/-- Settles O46: the hardware's `NUM` by its definition, `NUM_REAL` by the formula on real numbers. -/
theorem numProperties : Obligations.NumProperties := by
  intro n hn
  rcases List.mem_pair.mp hn with rfl | rfl
  · exact ⟨hw_gammaEntry_one, hw_cbEntry_identity, fun g _ => hw_gammaEntry_ends g⟩
  · exact ⟨numRealGamma_one, numRealCb_identity, fun _ h => numRealGamma_ends h⟩

/-! ### `BUILD_LUT` (R120, R121, R126) -/

/-- What a good `BUILD_LUT` leaves: the life cycle's fields, both tables, and `LUTV`. -/
theorem exec_buildLut {s : State} (h : s.ready) (hc : paramCheck s.gamma s.contrast s.lightness = 0#32) :
    exec .buildLut s = .next { s.completed .buildLut with
      posY := 0#16, posX := 0#16
      lutG := tableOf (Config.hw.gammaEntry s.gamma)
      lutC := tableOf (Config.hw.cbEntry s.gamma s.contrast s.lightness)
      iIdx := 255#8
      lutv := true } :=
  exec_oneStep h hc rfl rfl

/-- Settles O27: the tables are built entry by entry. -/
theorem buildLutCompletes : Obligations.BuildLutCompletes :=
  fun _ h hc => ⟨_, exec_buildLut h hc, tableAt_tableOf _, tableAt_tableOf _, rfl, rfl⟩

/-- Settles O28: the entry check is the parameter check, and a failed one raises. -/
theorem buildLutRaisesInvalidParameter : Obligations.BuildLutRaisesInvalidParameter :=
  fun _ hb hc => exec_failed (i := .buildLut) hb hc

/-- Settles O47: the reset parameters pass the check, and there `NUM` is the identity (P2 of R123). -/
theorem identityToneCurve : Obligations.IdentityToneCurve := by
  intro s h hg hc hl
  have hcheck : paramCheck s.gamma s.contrast s.lightness = 0#32 := by
    rw [hg, hc, hl]
    decide
  refine ⟨_, exec_buildLut h hcheck, fun i => ⟨?_, ?_⟩, rfl, rfl, rfl⟩
  · rw [hg, tableAt_tableOf, hw_gammaEntry_one]
  · rw [hg, hc, hl, tableAt_tableOf, hw_cbEntry_identity]

/-! ### `APPLY_LUT` (R127 to R130) -/

/-- A pixelwise method that maps every channel by one function maps every byte of the image by it (R129). -/
theorem refPointwise_channelwise (β : Byte → Byte) (w h : Nat) (f : ImageFn) (a : Nat) :
    refPointwise (fun _ _ px => ⟨β px.r, β px.g, β px.b⟩) w h f a = if a < 3 * w * h then β (f a) else f a := by
  unfold refPointwise
  split
  · have hthird : a % 3 = 0 ∧ a = 3 * (a / 3) ∨ a % 3 = 1 ∧ a = 3 * (a / 3) + 1 ∨ a % 3 = 2 ∧ a = 3 * (a / 3) + 2 := by
      omega
    simp only [ImageFn.pixel, pixelAddr_index]
    rcases hthird with ⟨hm, ha⟩ | ⟨hm, ha⟩ | ⟨hm, ha⟩ <;> simp [hm, ← ha]
  · rfl

/-- Settles O31: with built tables `APPLY_LUT` is pixelwise, by the chained tables on every channel. -/
theorem applyLutCompletes : Obligations.ApplyLutCompletes := by
  intro s h hbuf hlut hpixels hfits
  obtain ⟨t, ht, hframe, hx, hy, himage, -⟩ := exec_pointwise (i := .applyLut) (g := fun _ _ => tonePixel s) h
    (check_apply hbuf hlut hpixels hfits) fun _ _ _ => applyLutStep_eq hlut
  refine ⟨t.finish, ht, fun a => ?_, visible_scan hframe hx hy⟩
  calc imageOf t.finish a = refPointwise (fun _ _ => tonePixel s) s.width.toNat s.height.toNat (imageOf s) a :=
        congrFun himage a
    _ = _ := refPointwise_channelwise (toneByte s) _ _ _ a

/-- The word of the entry check, cause by cause (R128). -/
theorem check_applyLut_eq (s : State) : checkOf Config.hw .applyLut (acceptedBy .applyLut s) =
    (if s.bufv then
        (if s.width.toNat * s.height.toNat = 0 then 0x2#32 else 0#32)
          ||| (if Config.hw.imgCap < 3 * s.width.toNat * s.height.toNat then 0x8#32 else 0#32)
      else 0x1#32) ||| (if s.lutv then 0#32 else 0x4#32) := by
  calc checkOf Config.hw .applyLut (acceptedBy .applyLut s)
    _ = cause (!s.bufv) 0x1#32 ||| cause (s.bufv && decide (s.width.toNat * s.height.toNat = 0)) 0x2#32
          ||| cause (!s.lutv) 0x4#32
          ||| cause (s.bufv && decide (Config.hw.imgCap < 3 * s.width.toNat * s.height.toNat)) 0x8#32 := rfl
    _ = cause (!s.bufv) 0x1#32 ||| (cause (s.bufv && decide (s.width.toNat * s.height.toNat = 0)) 0x2#32
          ||| cause (s.bufv && decide (Config.hw.imgCap < 3 * s.width.toNat * s.height.toNat)) 0x8#32)
          ||| cause (!s.lutv) 0x4#32 := by ac_rfl
    _ = _ := by cases s.bufv <;> cases s.lutv <;> simp [cause]

/-- Settles O32: a failed entry check raises with the check's own word. -/
theorem applyLutRaisesInvalidArgument : Obligations.ApplyLutRaisesInvalidArgument := by
  intro s info hb hinfo hne
  rw [← check_applyLut_eq] at hinfo
  subst hinfo
  exact exec_failed (i := .applyLut) hb hne

end Sys2Proof.Proofs

namespace Sys2Proof.Proofs
open Sys2Proof.Machine Sys2Proof.Laws

/-! ### The grid index (R151, R152) -/

/-- The quotient is below 15, so no bit of it is lost in the nibble (R151). -/
theorem reduce4_toNat (v : Byte) : (reduce4 v).toNat = v.toNat * 15 / 256 := by
  have hv := v.isLt
  rw [reduce4, BitVec.toNat_ofNat, Nat.mod_eq_of_lt (by omega)]

theorem reduce4_le (v : Byte) : (reduce4 v).toNat ≤ 14 := by
  have hv := v.isLt
  rw [reduce4_toNat]
  omega

theorem reduce4_ne_fifteen (v : Byte) : reduce4 v ≠ 15#4 := by
  intro h
  have hle := reduce4_le v
  rw [h] at hle
  exact absurd hle (by decide)

/-- The thresholds R151 lists, with 256 as the end of the last interval. -/
def reduce4ThresholdList : List Nat := [0, 18, 35, 52, 69, 86, 103, 120, 137, 154, 171, 188, 205, 222, 239, 256]

/-- Each threshold is the least `v` with `256 k ≤ 15 v`. -/
theorem reduce4ThresholdList_getD : ∀ k < 16, reduce4ThresholdList.getD k 0 = (256 * k + 14) / 15 := by decide

/-- Settles O39: the quotient is `k` from the least `v` that reaches it to the least that reaches `k + 1`. -/
theorem reduce4Thresholds : Obligations.Reduce4Thresholds := by
  refine fun v => ⟨reduce4_toNat v, reduce4_le v, fun k hk => ?_⟩
  change _ ↔ reduce4ThresholdList.getD k 0 ≤ v.toNat ∧ v.toNat < reduce4ThresholdList.getD (k + 1) 0
  rw [reduce4_toNat, reduce4ThresholdList_getD k (by omega), reduce4ThresholdList_getD (k + 1) (by omega)]
  omega

theorem gridIndex_nibbles (px : Pixel) :
    (gridIndex px).extractLsb' 8 4 = reduce4 px.r ∧ (gridIndex px).extractLsb' 4 4 = reduce4 px.g ∧
      (gridIndex px).extractLsb' 0 4 = reduce4 px.b := by
  refine ⟨?_, ?_, ?_⟩ <;> rw [gridIndex]
  · rw [BitVec.extractLsb'_append_eq_of_le (by decide)]
    exact BitVec.extractLsb'_append_eq_left
  · rw [BitVec.extractLsb'_append_eq_of_le (by decide)]
    exact BitVec.extractLsb'_append_eq_right
  · exact BitVec.extractLsb'_append_eq_right

/-- An appended bit vector as a number. -/
theorem toNat_append_eq_add {m n : Nat} (x : BitVec m) (y : BitVec n) :
    (x ++ y).toNat = x.toNat * 2 ^ n + y.toNat := by
  rw [BitVec.toNat_append, ← Nat.shiftLeft_add_eq_or_of_lt y.isLt, Nat.shiftLeft_eq]

theorem gridIndex_toNat (px : Pixel) :
    (gridIndex px).toNat = (reduce4 px.r).toNat * 256 + (reduce4 px.g).toNat * 16 + (reduce4 px.b).toNat := by
  rw [gridIndex, toNat_append_eq_add, toNat_append_eq_add]
  omega

/-- Settles O40: each nibble is a reduced channel, which is never 15. -/
theorem gridIndexNibbles : Obligations.GridIndexNibbles := by
  intro px
  obtain ⟨hr, hg, hb⟩ := gridIndex_nibbles px
  rw [hr, hg, hb]
  exact ⟨gridIndex_toNat px, reduce4_ne_fifteen _, reduce4_ne_fifteen _, reduce4_ne_fifteen _⟩

/-! ### The step bounds of a decode (R158) -/

/-- Pixels with one RGB332 byte agree in the fields that byte keeps. -/
theorem fields_of_trunc332_eq {px py : Pixel} (h : trunc332 px = trunc332 py) :
    px.r.extractLsb' 5 3 = py.r.extractLsb' 5 3 ∧ px.g.extractLsb' 5 3 = py.g.extractLsb' 5 3 ∧
      px.b.extractLsb' 6 2 = py.b.extractLsb' 6 2 := by
  obtain ⟨hr, hg, hb, -⟩ := rgb332Fields px
  obtain ⟨hr', hg', hb', -⟩ := rgb332Fields py
  rw [← hr, ← hg, ← hb, h]
  exact ⟨hr', hg', hb'⟩

/-- Bytes that agree from bit `k` up lie in one block of `2 ^ k` values. -/
theorem toNat_lt_of_topBits_eq {k n : Nat} {x y : Byte} (hkn : k + n = 8)
    (h : x.extractLsb' k n = y.extractLsb' k n) : x.toNat < y.toNat + 2 ^ k := by
  have htop : ∀ z : Byte, (z.extractLsb' k n).toNat = z.toNat / 2 ^ k := fun z => by
    have hz : z.toNat / 2 ^ k < 2 ^ n := Nat.div_lt_of_lt_mul (by rw [← pow_add, hkn]; exact z.isLt)
    rw [BitVec.extractLsb'_toNat, Nat.shiftRight_eq_div_pow, Nat.mod_eq_of_lt hz]
  have hdiv : x.toNat / 2 ^ k = y.toNat / 2 ^ k := by rw [← htop, h, htop]
  calc x.toNat < x.toNat / 2 ^ k * 2 ^ k + 2 ^ k := Nat.lt_div_mul_add (Nat.two_pow_pos k)
    _ ≤ y.toNat + 2 ^ k := by rw [hdiv]; exact Nat.add_le_add_right (Nat.div_mul_le_self _ _) _

/-- Settles O41: the decoded pixel has the byte of the pixel itself, so the two agree in every bit it keeps. -/
theorem decodeStepBounds : Obligations.DecodeStepBounds := by
  intro d hd px
  obtain ⟨hr, hg, hb⟩ := fields_of_trunc332_eq (hd (trunc332 px))
  have hr1 := toNat_lt_of_topBits_eq rfl hr
  have hr2 := toNat_lt_of_topBits_eq rfl hr.symm
  have hg1 := toNat_lt_of_topBits_eq rfl hg
  have hg2 := toNat_lt_of_topBits_eq rfl hg.symm
  have hb1 := toNat_lt_of_topBits_eq rfl hb
  have hb2 := toNat_lt_of_topBits_eq rfl hb.symm
  omega

/-! ### `MAP332` and `MAPNN` (R154, R155) -/

/-- Settles O25: the one core step writes `PIX_OUT` and ends the command. -/
theorem map332Completes : Obligations.Map332Completes :=
  fun _ h => exec_oneStep h rfl rfl rfl

/-- The two packings of `IDX_OUT`: its four parts one behind the other, and shifted into place (R155). -/
theorem append_gaps_eq_shiftLeft_or (g : BitVec 12) (q : Byte) :
    0#4 ++ g ++ 0#8 ++ q = g.setWidth 32 <<< 16 ||| q.setWidth 32 := by
  have hg := g.isLt
  have hq := q.isLt
  have hlow : (q.setWidth 32).toNat = q.toNat := by rw [BitVec.toNat_setWidth, Nat.mod_eq_of_lt (by omega)]
  have hhigh : (g.setWidth 32 <<< 16).toNat = g.toNat <<< 16 := by
    rw [BitVec.toNat_shiftLeft, BitVec.toNat_setWidth, Nat.mod_eq_of_lt (by omega), Nat.mod_eq_of_lt (by omega)]
  apply BitVec.eq_of_toNat_eq
  rw [BitVec.toNat_or, hhigh, hlow, ← Nat.shiftLeft_add_eq_or_of_lt (by omega), toNat_append_eq_add,
    toNat_append_eq_add, toNat_append_eq_add, BitVec.toNat_ofNat, BitVec.toNat_ofNat]
  omega

/-- Settles O26: the one core step writes `PIX_OUT` and `IDX_OUT` and ends the command. -/
theorem mapnnCompletes : Obligations.MapnnCompletes := by
  intro s h px q hpx hq
  subst hpx hq
  rw [← append_gaps_eq_shiftLeft_or]
  exact exec_oneStep h rfl rfl rfl

end Sys2Proof.Proofs

namespace Sys2Proof.Proofs
open Sys2Proof.Machine Sys2Proof.Laws

/-! ### Running a command step by step (R186, R215, R222) -/

/-- Other pending acts of the host are not the invariant's. -/
theorem inv_hosted {s : State} (h : s.Inv) (host : List Pending) : (hosted host s).Inv :=
  inv_host h host s.reads s.draws

/-- A meaning leaves the host's pending acts. -/
theorem host_of_exec {i : Instr} {s t : State} (h : exec i s = .next t) : t.host = s.host := by
  rcases exec_frame h with rfl | ⟨u, hframe, ht⟩ | ⟨-, rfl⟩ | ⟨-, rfl⟩
  · rfl
  · have hu : u.host = s.host := by
      unfold runFrame at hframe
      rw [hframe]
      exact acceptedBy_host
    rcases ht with rfl | ⟨kind, info, rfl⟩ <;> exact hu
  · exact acceptedBy_host
  · rfl

/-- The rest of an idle block's command is nothing. -/
theorem restOfCommand_idle {p : Params} {s : State} (hb : s.busy = false) : restOfCommand p s = .next s :=
  runToEnd_idle (coreStep p) (coreBound s) hb

/-- The scan position of a busy block is one from which a scan runs (R40). -/
theorem scanReady_of_inv {s : State} (h : s.Inv) (hb : s.busy = true) : scanReady s := by
  by_cases h0 : s.wNat * s.hNat = 0
  · exact .inr h0
  · have ⟨hw, hh⟩ : 0 < s.wNat ∧ 0 < s.hNat := CanonicallyOrderedAdd.mul_pos.mp (Nat.pos_of_ne_zero h0)
    rcases h.position hb with hpixel | ⟨hx, hy | hy⟩
    · exact .inl (.inl hpixel)
    · exact .inl (.inr ⟨hw, hx, hy⟩)
    · exact .inl (.inl ⟨by rw [hx]; exact hw, by rw [hy]; exact hh⟩)

/-- A core step for every pixel of the image, and one for the end, take a running command to its end (R215). -/
theorem runToEnd_ends {s : State} (h : s.Inv) (hb : s.busy = true) {n : Nat} (hn : s.wNat * s.hNat + 1 ≤ n) :
    ∃ t, runToEnd (coreStep Config.hw) n s = .next t ∧ t.busy = false ∧ t.done = true := by
  obtain ⟨⟨i, ho⟩, -⟩ := h.command hb
  rw [runToEnd_coreStep n ho]
  have scan : (i = .dither ∨ (i = .applyLut ∧ s.lutv = true)) →
      ∃ t, runToEnd (commandStep Config.hw i) n s = .next t ∧ t.busy = false ∧ t.done = true := fun hi => by
    obtain ⟨t, ht, -⟩ := runToEnd_scan (s := s) (f := commandStep Config.hw i)
      (fun u hl _ => commandStep_scan (by rwa [hl])) _ n s rfl hb (scanReady_of_inv h hb) (Nat.sub_le _ _) hn
    exact ⟨t.finish, ht, rfl, rfl⟩
  obtain ⟨m, rfl⟩ : ∃ m, n = m + 1 := ⟨n - 1, by omega⟩
  cases i with
  | nop | buildLut | map332 | mapnn | sreset => exact ⟨_, runToEnd_last hb rfl rfl, rfl, rfl⟩
  | applyLut => exact scan (.inr ⟨rfl, h.tables hb ho⟩)
  | dither => exact scan (.inl rfl)

/-- A core step that leaves the block busy keeps the bound on the steps of the command. -/
theorem coreBound_of_coreStep {p : Params} {s t : State} (h : coreStep p s = .next t) (hb : t.busy = true) :
    coreBound t = coreBound s := by
  obtain ⟨i, -, hi⟩ := coreStep_cases h
  rcases runFrame_commandStep hi with hframe | ⟨-, rfl⟩ | ⟨-, rfl⟩
  · unfold runFrame at hframe
    rw [hframe]
    rfl
  all_goals cases hb

/-- One core step and then the rest is the rest at once (R186, R222). -/
theorem restOfCommand_coreStep {s t : State} (h : s.Inv) (hb : s.busy = true) (hs : coreStep Config.hw s = .next t) :
    restOfCommand Config.hw s = restOfCommand Config.hw t := by
  have hstep : restOfCommand Config.hw s = runToEnd (coreStep Config.hw) (s.wNat * s.hNat + 1) t := runToEnd_busy hb hs
  rw [hstep]
  cases hbt : t.busy with
  | false => rw [restOfCommand_idle hbt, runToEnd_idle _ _ hbt]
  | true =>
    obtain ⟨t', ht', hI⟩ := inv_coreStep h hb
    obtain rfl : t' = t := Host.Outcome.next.inj (ht'.symm.trans hs)
    have hbound : t'.wNat * t'.hNat + 2 = s.wNat * s.hNat + 2 := coreBound_of_coreStep hs hbt
    obtain ⟨u, hu, hidle, -⟩ := runToEnd_ends hI hbt (n := s.wNat * s.hNat + 1) (by omega)
    rw [hu]
    exact (runToEnd_mono hu hidle (by simp only [coreBound]; omega)).symm

/-- A command issued by a host that does not wait: the rest at once, without host acts, is the command taken whole
without them. A command over at its entry check has no rest. -/
theorem exec_of_impatient {i : Instr} {s t : State} (hb : s.busy = false) (hw : s.hostWaits = false)
    (h : exec i s = .next t) : exec i (hosted [] s) = restOfCommand Config.hw (hosted [] t) := by
  have hcheck : checkOf Config.hw i (acceptedBy i (hosted [] s)) = checkOf Config.hw i (acceptedBy i s) := by
    rw [hosted_acceptedBy]
    cases i <;> rfl
  rcases exec_cases i s with ⟨hbusy, -⟩ | ⟨-, hc, e⟩ | ⟨-, -, hwaits, -⟩ | ⟨-, hc, -, e⟩
  · simp [hb] at hbusy
  · obtain rfl := Host.Outcome.next.inj (h.symm.trans e)
    rw [exec_failed (s := hosted [] s) hb (by rwa [hcheck]), hcheck, hosted_acceptedBy,
      restOfCommand_idle (by rfl)]
    rfl
  · simp [hw] at hwaits
  · obtain rfl := Host.Outcome.next.inj (h.symm.trans e)
    rw [exec_whole (s := hosted [] s) ⟨hb, rfl⟩ (by rwa [hcheck]), ← runToEnd_coreStep _ acceptedBy_op,
      hosted_acceptedBy]
    rfl

/-- While the host's act is not due, each step of a busy block is a core step, which leaves the rest of the command
what it was (R222; log 1). -/
theorem stepsOf_keeps_rest {act : HostAct} {rest : List Pending} {k n : Nat} {t : State} (hI : t.Inv)
    (hhost : t.host = ⟨some (n + k), act⟩ :: rest)
    (hbusy : ∀ j < n, ∃ v, stepsOf j t = .next v ∧ v.busy = true) :
    ∃ u, stepsOf n t = .next u ∧ u.host = ⟨some k, act⟩ :: rest ∧
      restOfCommand Config.hw (hosted [] t) = restOfCommand Config.hw (hosted [] u) := by
  induction n generalizing t with
  | zero => exact ⟨t, rfl, by rw [hhost, Nat.zero_add], rfl⟩
  | succ n ih =>
    obtain ⟨v, hv, hb⟩ := hbusy 0 (Nat.succ_pos n)
    obtain rfl : t = v := Host.Outcome.next.inj hv
    obtain ⟨w, hw, hIw⟩ := inv_coreStep hI hb
    have hcore : ∀ host, coreStep Config.hw (hosted host t) = .next (hosted host w) := fun host => by
      rw [hosted_coreStep, hw]
      rfl
    have hstep : step t = .next (hosted (⟨some (n + k), act⟩ :: rest) w) := by
      rw [step_busy_core (k := n + k) hb (by rw [hhost, Nat.succ_add])]
      exact hcore _
    have hsteps : ∀ j, stepsOf (j + 1) t = stepsOf j (hosted (⟨some (n + k), act⟩ :: rest) w) := fun j => by
      rw [stepsOf, hstep]
    obtain ⟨u, hu, huhost, hrest⟩ := ih (inv_hosted hIw _) rfl fun j hj => by
      rw [← hsteps]
      exact hbusy (j + 1) (Nat.succ_lt_succ hj)
    refine ⟨u, (hsteps n).trans hu, huhost, ?_⟩
    exact (restOfCommand_coreStep (inv_hosted hI []) hb (hcore [])).trans hrest

/-- Settles O52: the rest of the command is the same from the acceptance on, step by step. -/
theorem stepwiseAgreesWithAtomic : Obligations.StepwiseAgreesWithAtomic := by
  refine ⟨fun i s t hb hw h _ => (exec_of_impatient hb hw h).symm, ?_⟩
  intro i s t n k act rest hI hb hhost h hbusy
  have hwaits : s.hostWaits = false := by simp [State.hostWaits, hhost]
  obtain ⟨t', ht', hIt⟩ := inv_exec hI i
  obtain rfl : t' = t := Host.Outcome.next.inj (ht'.symm.trans h)
  obtain ⟨u, hu, huhost, hrest⟩ := stepsOf_keeps_rest hIt ((host_of_exec h).trans hhost) hbusy
  refine ⟨u, hu, huhost, ?_⟩
  rw [show exec i { s with host := [] } = _ from exec_of_impatient hb hwaits h, hrest]
  split
  · rfl
  · next hidle => exact restOfCommand_idle (Bool.eq_false_iff.mpr hidle)

/-! ### What the ditherer does by the sampled method (R170, R95) -/

theorem ditherStep_diffusion {p : Params} {s : State} (h : methodOf s.m = 0 ∨ methodOf s.m = 1 ∨ methodOf s.m = 2) :
    ditherStep p s = diffusionStep p s := if_pos h

theorem ditherStep_bayer {p : Params} {s : State} (h : methodOf s.m = 3) :
    ditherStep p s = pointwiseStep p (bayerPixel p) s := by
  simp [ditherStep, h]

theorem ditherStep_passthrough {p : Params} {s : State} (h : methodOf s.m ∉ [0, 1, 2, 3]) :
    ditherStep p s = pointwiseStep p (fun _ _ => nearestRgb p) s := by
  simp only [List.mem_cons, List.not_mem_nil, or_false, not_or] at h
  simp [ditherStep, h]

/-- `DITHER` with a method whose pixels are independent, on a present buffer that fits, completes: every pixel is mapped
by itself (R182, R205). -/
theorem exec_dither_pointwise {g : Nat → Nat → Pixel → Pixel} {s : State} (h : s.ready) (hbuf : s.bufv = true)
    (hfits : s.bufferSize ≤ Config.hw.imgCap)
    (hstep : ∀ u : State, u.m = s.method → ditherStep Config.hw u = pointwiseStep Config.hw g u) :
    ∃ t, exec .dither s = .next t ∧
      imageOf t = refPointwise g s.width.toNat s.height.toNat (imageOf s) ∧
      t.visible = ({ (s.completed .dither).scanned with image := t.image } : State).visible := by
  obtain ⟨t, ht, hframe, hx, hy, himage, -⟩ := exec_pointwise (i := .dither) (g := g) h (check_dither hbuf hfits)
    fun _ _ _ => hstep _ rfl
  exact ⟨t.finish, ht, himage, visible_scan hframe hx hy⟩

/-- Settles O34: the no-dither default is the pixelwise method of `nearest_rgb`. -/
theorem ditherPassthroughCompletes : Obligations.DitherPassthroughCompletes := fun _ h hbuf hfits hmethod =>
  exec_dither_pointwise h hbuf hfits fun u hu => ditherStep_passthrough (by rwa [hu])

/-- `DITHER` with a method that diffuses errors, on a present buffer that fits and from an empty row buffer, completes:
the run through the row buffer is the fold of R172's pixel step (R186, R45). -/
theorem exec_dither_diffusion {k : Fin 3} {s : State} (h : s.ready) (htags : s.tagsNone) (hbuf : s.bufv = true)
    (hfits : s.bufferSize ≤ Config.hw.imgCap) (hmethod : methodOf s.method = k.val) :
    ∃ t, exec .dither s = .next t ∧
      imageOf t = refDiffusion Config.hw (Config.hw.stencil k) s.width.toNat s.height.toNat (imageOf s) ∧
      t.tagsNone ∧
      t.visible = ({ (s.completed .dither).scanned with image := t.image } : State).visible := by
  obtain ⟨t, ht, hframe, hx, hy, himage, htagsT⟩ := exec_diffusion h htags (check_dither hbuf hfits) hmethod
  exact ⟨t.finish, ht, himage, htagsT, visible_scan hframe hx hy⟩

/-- Settles O36: methods 0, 1 and 2 are those that diffuse errors. -/
theorem ditherErrorDiffusionCompletes : Obligations.DitherErrorDiffusionCompletes :=
  ⟨fun _ _ => rfl, fun _ _ _ => rfl, fun _ k h htags hbuf hfits hmethod =>
    exec_dither_diffusion h htags hbuf hfits (hmethod ▸ methodOf_fin k)⟩

/-! ### Every dithered pixel is a palette colour (R187) -/

/-- A method is one of the three that diffuse errors, the Bayer method, or none of the four (R95). -/
theorem methodOf_cases (w : Word) :
    (∃ k : Fin 3, methodOf w = k.val) ∨ methodOf w = 3 ∨ methodOf w ∉ [0, 1, 2, 3] := by
  by_cases h : 0 ≤ methodOf w ∧ methodOf w < 3
  · exact .inl ⟨⟨(methodOf w).toNat, by omega⟩, by simp only; omega⟩
  · simp only [List.mem_cons, List.not_mem_nil, or_false]
    omega

/-- Every pixel of the image of `t`, in the geometry of `s`, is an entry of `PALETTE_ROM`. -/
def AllPalette (s t : State) : Prop :=
  ∀ x y, x < s.width.toNat → y < s.height.toNat →
    ∃ q : Byte, ImageFn.pixel (imageOf t) s.width.toNat x y = Config.hw.paletteRom q

/-- A pixelwise method that maps every pixel to a palette entry. -/
theorem allPalette_pointwise {g : Nat → Nat → Pixel → Pixel} {s t : State}
    (himage : imageOf t = refPointwise g s.width.toNat s.height.toNat (imageOf s))
    (hg : ∀ x y px, ∃ q, g x y px = Config.hw.paletteRom q) : AllPalette s t := by
  intro x y hx hy
  rw [himage, refPointwise_pixel g _ hx hy]
  exact hg x y _

/-- Error diffusion: a pixel step makes its own pixel a palette entry, and no later one touches it (R183). -/
theorem allPalette_diffusion {k : Fin 3} {s t : State}
    (himage : imageOf t = refDiffusion Config.hw (Config.hw.stencil k) s.width.toNat s.height.toNat (imageOf s)) :
    AllPalette s t := by
  intro x y hx hy
  obtain ⟨px, hpx⟩ := refDiffusion_palette (p := Config.hw) (stencil_forward k) (imageOf s) hx hy
  exact ⟨nearestIndex Config.hw px, by rw [himage, hpx]; rfl⟩

/-- Settles O37: every method ends with a `nearest_rgb` in each pixel. -/
theorem ditheredPixelsArePaletteColours : Obligations.DitheredPixelsArePaletteColours := by
  intro s h htags hbuf hfits
  rcases methodOf_cases s.method with ⟨k, hk⟩ | hbayer | hother
  · obtain ⟨t, ht, himage, -⟩ := exec_dither_diffusion h htags hbuf hfits hk
    exact ⟨t, ht, allPalette_diffusion himage⟩
  · obtain ⟨t, ht, himage, -⟩ := exec_dither_pointwise h hbuf hfits fun u hu => ditherStep_bayer (by rwa [hu])
    exact ⟨t, ht, allPalette_pointwise himage fun _ _ _ => ⟨_, rfl⟩⟩
  · obtain ⟨t, ht, himage, -⟩ := exec_dither_pointwise h hbuf hfits fun u hu => ditherStep_passthrough (by rwa [hu])
    exact ⟨t, ht, allPalette_pointwise himage fun _ _ _ => ⟨_, rfl⟩⟩

/-! ### The entry check of `DITHER` (R171) -/

/-- The word of the entry check. -/
theorem check_dither_eq (s : State) : checkOf Config.hw .dither (acceptedBy .dither s) =
    if s.bufv then (if Config.hw.imgCap < 3 * s.width.toNat * s.height.toNat then 0x8#32 else 0#32) else 0x1#32 := by
  calc checkOf Config.hw .dither (acceptedBy .dither s)
    _ = cause (!s.bufv) 0x1#32 |||
          cause (s.bufv && decide (Config.hw.imgCap < 3 * s.width.toNat * s.height.toNat)) 0x8#32 := rfl
    _ = _ := by cases s.bufv <;> simp [cause]

/-- Settles O33: a failed entry check raises with the check's own word. -/
theorem ditherRaisesInvalidArgument : Obligations.DitherRaisesInvalidArgument := by
  intro s hb hcause
  have hword : checkOf Config.hw .dither (acceptedBy .dither s) = if s.bufv then 0x8#32 else 0x1#32 := by
    rw [check_dither_eq]
    rcases hcause with habsent | hlarge
    · simp [habsent]
    · simp [hlarge]
  refine ⟨_, exec_failed (i := .dither) hb (by rw [hword]; split <;> decide), ?_, rfl⟩
  rw [hword]
  rfl

/-! ### The forward raster order of error diffusion (R183) -/

/-- The rows of the window are rows of the image (R45). -/
theorem heldOk_of_rowsOk {s : State} (h : s.rowsOk) : heldOk s := fun j r hj => by
  obtain ⟨hslot, -, -, hrow, hlength⟩ := h j r hj
  exact ⟨hslot, hrow, hlength⟩

/-- Settles O45: seen through the buffer the step is R172's pixel step, whose targets all come later. -/
theorem forwardRasterInvariant : Obligations.ForwardRasterInvariant := by
  intro s t x y hI hb hdiff hscan ht hx hy hbefore
  have hrows := (hI.rows hb).1 hdiff
  have hpos := scanOk_of_inv hI hb hscan
  obtain ⟨f, hseen⟩ := buffers_exist Config.hw (heldOk_of_rowsOk hrows)
  obtain ⟨u, hu, hseenU, -, -, -, hframe, -⟩ := diffusionStep_pixel hseen hrows hpos hscan
  have hstep : coreStep Config.hw s = diffusionStep Config.hw s :=
    (coreStep_of_op hdiff.1).trans (ditherStep_diffusion hdiff.2)
  obtain rfl : u = t := Host.Outcome.next.inj (hu.symm.trans (hstep.symm.trans ht))
  obtain ⟨hw, hh, -⟩ := onlyScan_geometry hframe
  rw [hseenU.pixel x y (by rwa [hw]) (by rwa [hh]), hw, hseen.pixel x y hx hy]
  exact refDiffusionPixel_before (stencil_forward s.sSel) f hx (scanIndex_lt hpos hscan).1 hbefore

/-! ### `DIFFUSE` and the stencils (R174, R176 to R178, R184) -/

/-- `clamp(v, 0, 255)` loses nothing in the byte (R10). -/
theorem toNat_clampByte (v : Int) : ((clampByte v).toNat : Int) = max 0 (min 255 v) := by
  unfold clampByte
  split
  · rw [BitVec.toNat_ofNat]
    omega
  · split
    · rw [BitVec.toNat_ofNat]
      omega
    · rw [BitVec.toNat_ofInt]
      omega

/-- Clamping to integer bounds and dropping the fraction can be done in either order. -/
theorem floor_clamp (x : ℚ) : ⌊max 0 (min 255 x)⌋ = max 0 (min 255 ⌊x⌋) := by
  rw [Int.floor_mono.map_max, Int.floor_mono.map_min, Int.floor_zero, Int.floor_ofNat]

/-- Settles O42: integer division by a positive denominator is the floor of the quotient. -/
theorem diffuseIsTheExactSum : Obligations.DiffuseIsTheExactSum := by
  intro c e num den hden
  have hsum : (c.toNat : ℚ) + e * (num / den) = ((c.toNat * den + e * num : ℤ) : ℚ) / (den : ℕ) := by
    have hne : (den : ℚ) ≠ 0 := by exact_mod_cast hden.ne'
    push_cast
    field_simp
  calc ((Config.hw.diffuse c e num den).toNat : ℤ)
    _ = max 0 (min 255 (((c.toNat : ℤ) * den + e * num) / (den : ℤ))) := toNat_clampByte _
    _ = _ := by rw [floor_clamp, hsum, Rat.floor_intCast_div_natCast]

/-- Settles O44: the stencil ROM of the hardware is its default, and the sums are of numerals. -/
theorem stencilWeightSums : Obligations.StencilWeightSums := by
  refine ⟨rfl, rfl, rfl, ?_, ?_, ?_, rfl, rfl, rfl⟩
  · norm_num [show Config.hw.stencil 0 = floydSteinberg from rfl, floydSteinberg]
  · norm_num [show Config.hw.stencil 1 = jarvis from rfl, jarvis]
  · norm_num [show Config.hw.stencil 2 = atkinson from rfl, atkinson]

end Sys2Proof.Proofs

namespace Sys2Proof.Proofs
open Sys2Proof.Machine Sys2Proof.Laws

/-! ### The Bayer method (R200 to R205) -/

/-- A nibble index is already taken modulo 16 (R201). -/
theorem bayerThreshold_mod (p : Params) (x y : Nat) :
    p.bayerRom (BitVec.ofNat 4 (y % 16)) (BitVec.ofNat 4 (x % 16)) = bayerThreshold p x y := by
  have hmod (n : Nat) : BitVec.ofNat 4 (n % 16) = BitVec.ofNat 4 n :=
    BitVec.eq_of_toNat_eq (by simp only [BitVec.toNat_ofNat]; omega)
  rw [hmod, hmod, bayerThreshold]

/-- Settles O35: method 3 is pixelwise, by the Bayer pixel step. -/
theorem ditherBayerCompletes : Obligations.DitherBayerCompletes := by
  intro s h hbuf hfits hmethod
  simp only [bayerThreshold_mod]
  have hbayer : methodOf s.method = 3 := by rw [hmethod]; decide
  exact exec_dither_pointwise (g := bayerPixel Config.hw) h hbuf hfits fun u hu => ditherStep_bayer (by rwa [hu])

/-- Integer division by 8 is the floor of the exact quotient, also below 0 (R202). -/
theorem hw_bayerOffset_eq_floor (t : Byte) : Config.hw.bayerOffset t = ⌊((t.toNat : ℚ) - 128) / 8⌋ := by
  have hquot : ((t.toNat : ℚ) - 128) / 8 = (((t.toNat : ℤ) - 128 : ℤ) : ℚ) / (8 : ℕ) := by push_cast; rfl
  rw [hquot, Rat.floor_intCast_div_natCast]
  rfl

theorem hw_bayerOffset_range (t : Byte) : -16 ≤ Config.hw.bayerOffset t ∧ Config.hw.bayerOffset t ≤ 15 := by
  have ht := t.isLt
  have hdiv : Config.hw.bayerOffset t = ((t.toNat : ℤ) - 128) / 8 := rfl
  omega

/-- Adding the channel, an integer, commutes with the floor, and so does the clamp (R203). -/
theorem toNat_bayerChannel_floor (c : Byte) (x : ℚ) :
    ((bayerChannel c ⌊x⌋).toNat : ℤ) = ⌊max 0 (min 255 ((c.toNat : ℚ) + x))⌋ := by
  rw [bayerChannel, toNat_clampByte, floor_clamp, Int.floor_natCast_add]

/-- Settles O43: the offset is a floor, and the adjusted channel adds it before the clamp. -/
theorem bayerOffsetIsTheFloor : Obligations.BayerOffsetIsTheFloor := by
  intro t c
  obtain ⟨hlow, hhigh⟩ := hw_bayerOffset_range t
  refine ⟨hw_bayerOffset_eq_floor t, hlow, hhigh, ?_⟩
  rw [hw_bayerOffset_eq_floor]
  exact toNat_bayerChannel_floor c _

end Sys2Proof.Proofs

namespace Sys2Proof.Proofs
open Sys2Proof.Machine Sys2Proof.Laws

/-! ### The end of every command (R215, R236) -/

/-- The entry check of `APPLY_LUT` passes only with built tables (R128). -/
theorem lutv_of_check_applyLut {s : State} (hc : checkOf Config.hw .applyLut (acceptedBy .applyLut s) = 0#32) :
    s.lutv = true := by
  rw [check_applyLut_eq, BitVec.or_eq_zero_iff] at hc
  by_contra hlut
  simp [hlut] at hc

/-- With a host that waits a command goes on to its end: by a failed entry check, by its one core step, or by the scan
of the image (R215). -/
theorem exec_ends (i : Instr) {s : State} (h : s.ready) :
    ∃ t, exec i s = .next t ∧ t.busy = false ∧ t.done = true := by
  by_cases hc : checkOf Config.hw i (acceptedBy i s) = 0#32
  · have scan (hi : i = .dither ∨ (i = .applyLut ∧ s.lutv = true)) :
        ∃ t, exec i s = .next t ∧ t.busy = false ∧ t.done = true := by
      obtain ⟨t, ht, -⟩ := exec_scan hi h hc
      exact ⟨t.finish, ht, rfl, rfl⟩
    cases i with
    | nop | buildLut | map332 | mapnn | sreset => exact ⟨_, exec_oneStep h hc rfl rfl, rfl, rfl⟩
    | applyLut => exact scan (.inr ⟨rfl, lutv_of_check_applyLut hc⟩)
    | dither => exact scan (.inl rfl)
  · exact ⟨_, exec_failed h.1 hc, rfl, rfl⟩

/-- Settles O49: at the end `DONE` is 1, so the interrupt line is `IE`. -/
theorem everyCommandEnds : Obligations.EveryCommandEnds := by
  intro i s h
  obtain ⟨t, ht, hidle, hdone⟩ := exec_ends i h
  exact ⟨t, ht, hidle, hdone, by simp [irq, hdone]⟩

/-- Settles O24: `NOP` has no entry check, and its one core step is the end. -/
theorem nopCompletes : Obligations.NopCompletes :=
  fun _ h => exec_oneStep h rfl rfl rfl

/-! ### Acceptance (R215, R46) -/

/-- What can be seen of an accepted command (R215). -/
theorem visible_acceptedBy (i : Instr) (s : State) : (acceptedBy i s).visible = ({ s with
    busy := true, done := false, err := 0#3, errInfo := 0#32, posY := 0#16, posX := 0#16 } : State).visible := by
  rw [acceptedBy_eq]
  rfl

/-- A command of a host that does not wait (R215; log 1). -/
theorem exec_accepted {i : Instr} {s : State} (hb : s.busy = false) (hw : s.hostWaits = false)
    (hc : checkOf Config.hw i (acceptedBy i s) = 0#32) : exec i s = .next (acceptedBy i s) := by
  rw [exec_eq_runCommand]
  exact runCommand_accepted hb hc (acceptedBy_hostWaits.trans hw)

/-- Code 0 is no error's (R102). -/
theorem code_ne_zero (kind : ErrorKind) : kind.code ≠ 0#3 := by
  cases kind <;> decide

/-- Settles O50: with a host that does not wait, a command is accepted or fails its entry check. -/
theorem acceptanceBeforeExecution : Obligations.AcceptanceBeforeExecution := by
  intro i s hb hw
  by_cases hc : checkOf Config.hw i (acceptedBy i s) = 0#32
  · exact ⟨_, exec_accepted hb hw hc,
      .inl ⟨acceptedBy_busy, acceptedBy_op, acceptedBy_wl, acceptedBy_hl, visible_acceptedBy i s⟩⟩
  · exact ⟨_, exec_failed hb hc, .inr ⟨rfl, rfl, code_ne_zero (kindOf i)⟩⟩

/-! ### A step between host acts (R222; log 1, log 21) -/

/-- Settles O51, from the two forms of a busy block's step, the bound on a command's core steps, and the rest after one
core step. -/
theorem coreStepThenRest : Obligations.CoreStepThenRest := by
  refine ⟨fun _ _ _ _ => step_busy_core, fun _ => step_rest, fun _ hI hb => runToEnd_ends hI hb (Nat.le_succ _), ?_⟩
  intro s t hI hb ht
  rw [restOfCommand_coreStep hI hb ht]
  split
  · rfl
  · next hidle => exact restOfCommand_idle (Bool.eq_false_iff.mpr hidle)

/-- Settles O7: the step of an idle block is the host's next act, and there is none. -/
theorem idleBlockStaysAsItIs : Obligations.IdleBlockStaysAsItIs :=
  fun _ => step_idle_none

end Sys2Proof.Proofs

namespace Sys2Proof.Proofs
open Sys2Proof.Machine Sys2Proof.Laws

/-! ### Errors of commands (R230, R237 to R239) -/

/-- A command that passes its entry check raises nothing while it runs (R237). -/
theorem err_of_runToEnd {i : Instr} {s t : State} {n : Nat}
    (h : runToEnd (commandStep Config.hw i) n (acceptedBy i s) = .next t) : t.err = 0#3 := by
  have herr : (acceptedBy i s).err = 0#3 := by rw [acceptedBy_eq]
  rcases runFrame_runToEnd acceptedBy_busy h with hframe | ⟨-, rfl⟩ | ⟨-, rfl⟩
  · unfold runFrame at hframe
    rw [hframe]
    exact herr
  · exact herr
  · rfl

/-- An error of a command is that of its failed entry check, raised before the first core step (R215, R238). -/
theorem check_failed_of_err {i : Instr} {s t : State} (hb : s.busy = false) (h : exec i s = .next t)
    (herr : t.err ≠ 0#3) : checkOf Config.hw i (acceptedBy i s) ≠ 0#32 ∧
      t = (acceptedBy i s).raise (kindOf i) (checkOf Config.hw i (acceptedBy i s)) := by
  rcases exec_cases i s with ⟨hbusy, -⟩ | ⟨-, hc, e⟩ | ⟨-, -, -, e⟩ | ⟨-, -, -, e⟩
  · simp [hb] at hbusy
  · exact ⟨hc, Host.Outcome.next.inj (h.symm.trans e)⟩
  · exact absurd (err_of_runToEnd (e.symm.trans h)) herr
  · obtain rfl := Host.Outcome.next.inj (h.symm.trans e)
    exact absurd (by rw [acceptedBy_eq]) herr

/-- Settles O53: the error entry follows the acceptance at once, and neither touches more that can be seen. -/
theorem errorsArePrecise : Obligations.ErrorsArePrecise := by
  intro i s t hb h herr
  obtain ⟨-, rfl⟩ := check_failed_of_err hb h herr
  exact congrArg (fun u : State => u.raise (kindOf i) (checkOf Config.hw i (acceptedBy i s))) (visible_acceptedBy i s)

/-- Only `BUILD_LUT`, `APPLY_LUT` and `DITHER` have an entry check, each with the code of its error kind (R102, R231,
R232). -/
theorem code_of_check_ne_zero {p : Params} {i : Instr} {s : State} (hc : checkOf p i s ≠ 0#32) :
    (i = .buildLut ∧ (kindOf i).code = 2#3) ∨ ((i = .applyLut ∨ i = .dither) ∧ (kindOf i).code = 1#3) := by
  cases i with
  | nop | map332 | mapnn | sreset => exact absurd rfl hc
  | buildLut => exact .inl ⟨rfl, rfl⟩
  | applyLut => exact .inr ⟨.inl rfl, rfl⟩
  | dither => exact .inr ⟨.inr rfl, rfl⟩

/-- Settles O54: a code other than 0 is that of the failed entry check. -/
theorem errorKindsOfEachCommand : Obligations.ErrorKindsOfEachCommand := by
  intro i s t hb h
  refine or_iff_not_imp_left.mpr fun herr => ?_
  obtain ⟨hc, rfl⟩ := check_failed_of_err hb h herr
  exact code_of_check_ne_zero hc

/-! ### Illegal words (R92, R93, R234) -/

/-- Reserved bits or an unassigned opcode make a word illegal (R92, R93). -/
theorem decode_illegal {w : Word} (h : w.extractLsb' 8 24 ≠ 0#24 ∨ 0x07#8 ≤ w.extractLsb' 0 8) :
    ∃ e, decode w = .error e := by
  by_cases hz : w.extractLsb' 8 24 = 0#24
  · exact ⟨_, decode_unassignedOpcode hz (h.resolve_left (absurd hz))⟩
  · exact ⟨_, decode_reservedBits hz⟩

/-- An error raised at the issue, without acceptance, leaves `POS` and `OP` of an idle block (R234, R238). -/
theorem issue_raise_of_idle {s : State} (hb : s.busy = false) (kind : ErrorKind) (info : Word) :
    s.issue.raise kind info = { s with done := true, err := kind.code, estk := true, errInfo := info } := by
  simp only [State.raise, State.issue, hb]

/-- Settles O6: the word does not decode, and the block issues and raises. -/
theorem illegalWordRaisesIllegalCommand : Obligations.IllegalWordRaisesIllegalCommand := by
  intro s after w hb hw
  obtain ⟨e, he⟩ := decode_illegal hw
  calc step (s.facing after (.write .window 0x04 .w32 w))
    _ = writeCmd exec w s := step_write hb after w rfl
    _ = .next (s.issue.raise .illegalCommand w) := by rw [writeCmd, he]
    _ = _ := congrArg Host.Outcome.next (issue_raise_of_idle hb .illegalCommand w)

end Sys2Proof.Proofs

namespace Sys2Proof.Proofs
open Sys2Proof.Machine Sys2Proof.Laws

/-! ### Resets (R260, R262) -/

/-- Settles O22: the pin, due, resets the block, and `State.hardReset` is the reset state but for the model's own
fields. -/
theorem resetPinStopsEverything : Obligations.ResetPinStopsEverything :=
  fun _ _ hd => step_facing hd .resetPin

/-- Nothing of an accepted command outlives its reset: what acceptance writes, the reset clears (R48, R215). -/
theorem hardReset_acceptedBy (i : Instr) (s : State) : (acceptedBy i s).hardReset = s.hardReset := by
  rw [acceptedBy_eq]
  rfl

/-- `SRESET` of a host that waits ends with its one core step (R217). -/
theorem exec_sreset {s : State} (h : s.ready) : exec .sreset s = .next s.hardReset.finish := by
  rw [← hardReset_acceptedBy .sreset]
  exact exec_oneStep h rfl rfl rfl

/-- `STATUS` holds none of the fields a reset keeps: it reads as in the reset state with `DONE` set (R23, R262). -/
theorem statusWord_hardReset_finish (s : State) : statusWord s.hardReset.finish = 0x002#32 :=
  (by decide : statusWord State.reset.finish = 0x002#32)

/-- Settles O23: `SRESET` and the pin give the same reset, and the end of the command adds `DONE`. -/
theorem sresetIsAHardwareResetWithDone : Obligations.SresetIsAHardwareResetWithDone :=
  fun s h => ⟨s.hardReset.finish, s.hardReset, exec_sreset h, step_facing (.inl h.1) .resetPin, rfl,
    statusWord_hardReset_finish s, rfl⟩

/-! ### The lock of the geometry (R29, R30, R269) -/

/-- `WIDTH` and `HEIGHT` do not change from `s` to `t` under a `BUFV` that is 1 in both (R269). -/
def GeometryLocked (s t : State) : Prop :=
  s.bufv = true → t.bufv = true → t.width = s.width ∧ t.height = s.height

theorem GeometryLocked.refl (s : State) : GeometryLocked s s := fun _ _ => ⟨rfl, rfl⟩

/-- The pending acts a step takes off are no part of it. -/
theorem GeometryLocked.of_hosted {s t : State} (host : List Pending) (h : GeometryLocked (hosted host s) t) :
    GeometryLocked s t := h

/-- A reset clears `BUFV`, with `DONE` set after it or not (R48, R262). -/
theorem geometryLocked_hardReset (s : State) :
    GeometryLocked s s.hardReset ∧ GeometryLocked s s.hardReset.finish :=
  ⟨fun _ h => absurd h Bool.false_ne_true, fun _ h => absurd h Bool.false_ne_true⟩

/-- What moves while a command other than `BUILD_LUT` and `SRESET` runs is not the geometry. -/
theorem GeometryLocked.of_runFrame {s t : State} (h : runFrame s t) : GeometryLocked s t := by
  unfold runFrame at h
  rw [h]
  exact fun _ _ => ⟨rfl, rfl⟩

/-- Nor does acceptance write it (R215). -/
theorem GeometryLocked.of_accepted {s t : State} {i : Instr} (h : runFrame (acceptedBy i s) t) :
    GeometryLocked s t := by
  have hL := GeometryLocked.of_runFrame h
  rw [acceptedBy_eq] at hL
  exact hL

/-- The frames of `runFrame_commandStep` and `runFrame_runToEnd`, in terms of the geometry. -/
theorem geometryLocked_of_frame {p : Params} {s t : State} {i : Instr}
    (h : runFrame s t ∨ (i = .buildLut ∧ t = ({ s with
        lutG := tableOf (p.gammaEntry s.gamma)
        lutC := tableOf (p.cbEntry s.gamma s.contrast s.lightness)
        iIdx := 255#8
        lutv := true } : State).finish) ∨ (i = .sreset ∧ t = s.hardReset.finish)) : GeometryLocked s t := by
  rcases h with hF | ⟨-, rfl⟩ | ⟨-, rfl⟩
  · exact GeometryLocked.of_runFrame hF
  · exact fun _ _ => ⟨rfl, rfl⟩
  · exact (geometryLocked_hardReset s).2

theorem geometryLocked_exec {s t : State} {i : Instr} (h : exec i s = .next t) : GeometryLocked s t := by
  rcases exec_frame h with rfl | ⟨u, hF, rfl | ⟨kind, info, rfl⟩⟩ | ⟨-, ht⟩ | ⟨-, rfl⟩
  · exact GeometryLocked.refl t
  · exact GeometryLocked.of_accepted hF
  · have hu : GeometryLocked s u := GeometryLocked.of_accepted hF
    exact hu
  · rw [ht, acceptedBy_eq]
    exact fun _ _ => ⟨rfl, rfl⟩
  · exact (geometryLocked_hardReset s).2

/-- Of the acts of a host only a register write could move the geometry, and `BUFV` stops it (R29, R30). -/
theorem geometryLocked_hostAct {s t : State} {act : HostAct} (h : hostAct Config.hw exec act s = .next t) :
    GeometryLocked s t := by
  cases act with
  | resetPin =>
    cases h
    exact (geometryLocked_hardReset s).1
  | read space offset width =>
    rcases hostRead_cases Config.hw space offset width s with ⟨u, hu, e⟩ | ⟨hf, -⟩
    · cases hu.symm.trans h
      rw [e]
      exact fun _ _ => ⟨rfl, rfl⟩
    · cases hf.symm.trans h
  | write space offset width v =>
    rcases hostWrite_cases h with rfl | ⟨-, e, -⟩ | ⟨-, -, -, -, i, -, hx⟩ | ⟨-, -, rfl⟩ | ⟨-, -, -, -, rfl⟩ |
      ⟨-, -, hlock⟩
    · exact GeometryLocked.refl t
    · rw [e]
      exact fun _ _ => ⟨rfl, rfl⟩
    · exact geometryLocked_exec hx
    · exact fun _ _ => ⟨rfl, rfl⟩
    · exact fun _ _ => ⟨rfl, rfl⟩
    · exact fun hv _ => hlock hv

/-- Settles O13: no act of the host and no core step moves a locked geometry. -/
theorem geometryLock : Obligations.GeometryLock := by
  intro s t h
  rcases step_cases s with ⟨-, -, e⟩ | ⟨q, rest, -, -, e⟩ | ⟨act, rest, -, -, e⟩ | ⟨k, act, rest, -, -, e⟩ |
    ⟨hb, -, e⟩ <;> rw [e] at h
  · cases h
    exact GeometryLocked.refl s
  · exact GeometryLocked.of_hosted rest (geometryLocked_hostAct h)
  · exact GeometryLocked.of_hosted rest (geometryLocked_hostAct h)
  · obtain ⟨i, -, hs⟩ := coreStep_cases h
    exact GeometryLocked.of_hosted (⟨some k, act⟩ :: rest) (geometryLocked_of_frame (runFrame_commandStep hs))
  · obtain ⟨i, -, hr⟩ := restOfCommand_cases hb h
    exact geometryLocked_of_frame (runFrame_runToEnd hb hr)

end Sys2Proof.Proofs
